-- ==== Sys2Proof/Word.lean ====
section
/-! DEFINITION. The two widths of the block (spec 00_scope R5, R6): a byte of the instruction stream is 8 bits, a
general register is 16 bits (XLEN = 16). A 16-bit value is a bit pattern, read as signed with `toInt` and as unsigned
with `toNat` (R6). -/

namespace Sys2Proof

/-- One byte of the instruction stream, or an 8-bit immediate or displacement (00_scope R6). -/
abbrev Byte := BitVec 8

/-- A 16-bit pattern: a general register's contents, a direct address, a displacement, an immediate (R6, R21). -/
abbrev Word := BitVec 16

end Sys2Proof
end

