-- ==== Sys2Proof/Config.lean ====
section
/-! DEFINITION. The parameters of the block (spec 00_scope R5): the configuration inputs the host supplies before
reset, their types and their decided defaults, and the constants the spec fixes. Nothing of this hardware is left
without a value by its spec, so there is no free value here (92_eei_decisions decides each open point). -/

namespace Sys2Proof

/-- Which path the controller runs (R211): `MODE`. -/
inductive Mode
  /-- Disassembly: every decoded record is emitted, nothing is executed. -/
  | disasm
  /-- Every decoded record is emitted and then executed. -/
  | decodeExec
  /-- The records of the record port are executed; the stream is not used. -/
  | recordExec
deriving DecidableEq, Repr

/-- What a classification failure does (R214): `UNKNOWN_OPCODE_POLICY`. -/
inductive UnknownOpcodePolicy
  /-- Abort the run with `FAULT_UNKNOWN_OPCODE`. -/
  | strict
  /-- Skip one byte and go on. -/
  | permissive
deriving DecidableEq, Repr

/-- What an execution lookup failure does (R217): `EXEC_FAULT_POLICY`. -/
inductive ExecFaultPolicy
  /-- End the run with `FAULT_EXEC_LOOKUP`. -/
  | halt
  /-- Reject the one instruction, set the sticky bit, go on. -/
  | rejectAndContinue
deriving DecidableEq, Repr

/-- `MINLEN`: the shortest instruction, in bytes; also the loop condition's "at least 2 bytes remain" (R5, R212). -/
def Config.minLen : Nat := 2

/-- `MAXLEN`: the longest instruction, in bytes (R5, R91). -/
def Config.maxLen : Nat := 6

/-- `FLAGS_RESET`: the value of (ZF, SF) after reset, decided by the spec and not by its source (R5, D8). -/
def Config.flagsReset : Bool × Bool := (false, false)

/-- `PC_RESET`: the program counter after reset (R5, D9); the record counter starts at the same value (R35). -/
def Config.pcReset : Nat := 0

/-- The mode of `State.reset`. DESIGN CHOICE (log entry 2): the spec makes `MODE` an argument without a default (R5,
D2); `DECODE_EXEC` is the mode in which a stream instruction both is emitted and executes. -/
def Config.defaultMode : Mode := .decodeExec

/-- The default of `UNKNOWN_OPCODE_POLICY` (R5, D5). -/
def Config.defaultUnknownOpcodePolicy : UnknownOpcodePolicy := .strict

/-- The default of `EXEC_FAULT_POLICY` (R5, D6). -/
def Config.defaultExecFaultPolicy : ExecFaultPolicy := .halt

/-- The default of `EXT_CHECK` (R5, R76, D4). -/
def Config.defaultExtCheck : Bool := true

end Sys2Proof
end

