-- ==== Sys2Proof/Machine/Stream.lean ====
section
/-! DEFINITION. The one memory of the hardware, the instruction stream (10_state R30, 20_memory R50 to R55): a finite,
read-only sequence of bytes at the offsets 0 to L-1. `memRead1` and `memRead2` are the spec's `MemRead(a, 1)` and
`MemRead(a, 2)`. The hardware has no `MemWrite`: `Stream.poke` and `Stream.load` are what the HOST does before reset
(R271), never an instruction. -/

namespace Sys2Proof.Machine

/-- Bytes by address, in one canonical form (`Memory.wf`): addresses strictly rising, and no entry equal to what an
unlisted address reads as. -/
abbrev Memory := List Host.Cell

/-- What an address that is not listed reads as, inside the stream. The host supplies every byte of the stream (R271),
so this says nothing about the hardware: a byte 00 of the stream is a byte that is not listed (DESIGN CHOICE,
log entry 4). -/
def Memory.unlisted : Byte := 0

/-- The byte held at an address. -/
def Memory.read : Memory → Nat → Byte
  | [], _ => Memory.unlisted
  | (key, val) :: rest, a => if key = a then val else Memory.read rest a

/-- `m` with `b` at address `a`, in canonical form again. -/
def Memory.write : Memory → Nat → Byte → Memory
  | [], a, b => if b = Memory.unlisted then [] else [(a, b)]
  | (key, val) :: rest, a, b =>
    if a < key then (if b = Memory.unlisted then (key, val) :: rest else (a, b) :: (key, val) :: rest)
    else if a = key then (if b = Memory.unlisted then rest else (a, b) :: rest)
    else (key, val) :: Memory.write rest a b

/-- Every listed address is at least `lo`, they rise strictly, and no entry is the unlisted byte. -/
def Memory.wfFrom : Nat → Memory → Bool
  | _, [] => true
  | lo, (key, val) :: rest => decide (lo ≤ key) && val != Memory.unlisted && Memory.wfFrom (key + 1) rest

/-- The canonical form. -/
def Memory.wf (m : Memory) : Bool := Memory.wfFrom 0 m

/-- The instruction stream: its bytes and its length `L` (R5, R30). -/
structure Stream where
  cells : Memory
  len : Nat
deriving DecidableEq, Repr

/-- The stream of length 0. -/
def Stream.empty : Stream := { cells := [], len := 0 }

/-- The canonical form of a stream: canonical bytes, none listed at or beyond `L`. -/
def Stream.wf (st : Stream) : Bool := st.cells.wf && st.cells.all (fun c => decide (c.1 < st.len))

/-- `MemRead(a, 1)` (R51): defined only when `a + 1 <= L`. -/
def Stream.memRead1 (st : Stream) (a : Nat) : Option Byte :=
  if a + 1 ≤ st.len then some (st.cells.read a) else none

/-- Little-endian assembly of two bytes: the lower offset is bits 7:0 (R52). -/
def littleEndian (lo hi : Byte) : Word := hi ++ lo

/-- `MemRead(a, 2)` (R51, R52): defined only when `a + 2 <= L`. -/
def Stream.memRead2 (st : Stream) (a : Nat) : Option Word :=
  if a + 2 ≤ st.len then some (littleEndian (st.cells.read a) (st.cells.read (a + 1))) else none

/-- The host puts one byte at offset `a` before reset; the stream then reaches at least to `a`. -/
def Stream.poke (st : Stream) (a : Nat) (b : Byte) : Stream :=
  { cells := st.cells.write a b, len := max st.len (a + 1) }

/-- The host puts bytes at the offsets `a`, `a + 1`, … before reset. -/
def Stream.load (st : Stream) (a : Nat) : List Byte → Stream
  | [] => st
  | b :: rest => Stream.load (st.poke a b) (a + 1) rest

/-- The stream made of the given bytes, the first at offset 0. -/
def Stream.ofBytes (bs : List Byte) : Stream := Stream.empty.load 0 bs

end Sys2Proof.Machine
end

