-- ==== Sys2Proof/Syntax.lean ====
section
/-! DEFINITION. The syntax: the spec's data types of an instruction record (00_scope R8), and `Instr`, one constructor
for each of the 22 rows of spec/opcode_table.json (30_encoding R103): 14 forms of the instruction stream and 8 forms
of the record port. -/

namespace Sys2Proof

/-- The operand width bit `w`: `byte` is w = 0, `word` is w = 1 (R6, R8). -/
inductive Width
  | byte
  | word
deriving DecidableEq, Repr

/-- The eight general registers, in the order of their indices 0 to 7 (10_state R21). -/
inductive Reg16
  | ax | cx | dx | bx | sp | bp | si | di
deriving DecidableEq, Repr

/-- The eight byte register names, in the order of their indices 0 to 7 (10_state R22): names for decoding and
rendering only, with no storage behind them. -/
inductive Reg8
  | al | cl | dl | bl | ah | ch | dh | bh
deriving DecidableEq, Repr

/-- The base-register combinations of a memory operand (R8, R81). -/
inductive Base
  | bxSi | bxDi | bpSi | bpDi | si | di | bp | bx
deriving DecidableEq, Repr

/-- Which displacement the encoding carried (R8): none (mod 00), a byte (mod 01) or a word (mod 10). -/
inductive DispKind
  | none | d8 | d16
deriving DecidableEq, Repr

/-- The register/memory operand of an addressing-mode byte (R80 to R85), over the registers `ρ` of one width. -/
inductive RegMem (ρ : Type)
  /-- mod = 11: a register of the instruction's width (R80). -/
  | reg (r : ρ)
  /-- A base and a displacement, the 16-bit pattern of a signed number (R82, R84, R85). -/
  | mem (base : Base) (kind : DispKind) (disp : Word)
  /-- mod = 00, rm = 110: an unsigned 16-bit absolute address (R83). -/
  | direct (addr : Word)
deriving DecidableEq, Repr

/-- An operand of an instruction record (R8; log entries 8 and 13). A register's index is a natural number because a record of the record
port may name one outside 0 to 7 (60_exceptions R244). -/
inductive Operand
  | register (width : Width) (index : Nat)
  | memory (base : Base) (kind : DispKind) (disp : Word)
  | direct (addr : Word)
  | immediate (value : Word) (width : Width)
deriving DecidableEq, Repr

/-- The four executable operations (R8). -/
inductive Mnemonic
  | MOV | ADD | SUB | CMP
deriving DecidableEq, Repr

/-- An instruction record (R8; its name there is Instruction): `length` is the byte length of a decoded record and is
unused for a record of the record port. -/
structure Record where
  mnemonic : Mnemonic
  dest : Operand
  src : Operand
  length : Nat
deriving DecidableEq, Repr

/-- The instructions, one constructor for each row of spec/opcode_table.json, in the table's order. -/
inductive Instr
  /-- `88` mod reg rm disp: MOV r/m8, r8 (R161). -/
  | movRm8R8 (dst : RegMem Reg8) (src : Reg8)
  /-- `89` mod reg rm disp: MOV r/m16, r16 (R162). -/
  | movRm16R16 (dst : RegMem Reg16) (src : Reg16)
  /-- `8A` mod reg rm disp: MOV r8, r/m8 (R163). -/
  | movR8Rm8 (dst : Reg8) (src : RegMem Reg8)
  /-- `8B` mod reg rm disp: MOV r16, r/m16 (R164). -/
  | movR16Rm16 (dst : Reg16) (src : RegMem Reg16)
  /-- `B0`+reg ib: MOV r8, imm8 (R165). -/
  | movR8Imm8 (dst : Reg8) (imm : Byte)
  /-- `B8`+reg iw: MOV r16, imm16 (R166). -/
  | movR16Imm16 (dst : Reg16) (imm : Word)
  /-- `00` mod reg rm disp: ADD r/m8, r8 (R181). -/
  | addRm8R8 (dst : RegMem Reg8) (src : Reg8)
  /-- `01` mod reg rm disp: ADD r/m16, r16 (R182). -/
  | addRm16R16 (dst : RegMem Reg16) (src : Reg16)
  /-- `02` mod reg rm disp: ADD r8, r/m8 (R183). -/
  | addR8Rm8 (dst : Reg8) (src : RegMem Reg8)
  /-- `03` mod reg rm disp: ADD r16, r/m16 (R184). -/
  | addR16Rm16 (dst : Reg16) (src : RegMem Reg16)
  /-- `80` mod 000 rm disp ib: ADD r/m8, imm8 (R185). -/
  | addRm8Imm8 (dst : RegMem Reg8) (imm : Byte)
  /-- `81` mod 000 rm disp iw: ADD r/m16, imm16 (R186). -/
  | addRm16Imm16 (dst : RegMem Reg16) (imm : Word)
  /-- `04` ib: ADD al, imm8 (R187). -/
  | addAlImm8 (imm : Byte)
  /-- `05` iw: ADD ax, imm16 (R188). -/
  | addAxImm16 (imm : Word)
  /-- MOV reg16, reg16 on the record port (R167). -/
  | recMovReg (dst src : Reg16)
  /-- MOV reg16, imm16 on the record port (R168). -/
  | recMovImm (dst : Reg16) (imm : Word)
  /-- ADD reg16, reg16 on the record port (R189). -/
  | recAddReg (dst src : Reg16)
  /-- ADD reg16, imm16 on the record port (R190). -/
  | recAddImm (dst : Reg16) (imm : Word)
  /-- SUB reg16, reg16 on the record port (R202). -/
  | recSubReg (dst src : Reg16)
  /-- SUB reg16, imm16 on the record port (R203). -/
  | recSubImm (dst : Reg16) (imm : Word)
  /-- CMP reg16, reg16 on the record port (R205). -/
  | recCmpReg (dst src : Reg16)
  /-- CMP reg16, imm16 on the record port (R206). -/
  | recCmpImm (dst : Reg16) (imm : Word)
deriving DecidableEq, Repr

/-- One item the record port delivers (10_state R31): an abstract record, or its 24-bit packing `XREC` (30_encoding
R95). -/
inductive PortItem
  | packed (xrec : BitVec 24)
  | abstract (rec : Record)
deriving DecidableEq, Repr

end Sys2Proof
end

