-- ==== Sys2Proof/Machine/State.lean ====
section
/-! DEFINITION. The state of the block: everything 10_state R20 lists as mutable, and beside it the inputs the host
supplies before reset, which no step changes (R20, R29). Plain data throughout. -/

namespace Sys2Proof.Machine

/-- The register file (R21): eight registers of 16 bits, each under its canonical name. -/
structure RegFile where
  ax : Word
  cx : Word
  dx : Word
  bx : Word
  sp : Word
  bp : Word
  si : Word
  di : Word
deriving DecidableEq, Repr

/-- "created once at simulation start, all zero" (R21, R35). -/
def RegFile.zero : RegFile := ⟨0, 0, 0, 0, 0, 0, 0, 0⟩

/-- The flags register (R26): Zero and Sign, and no other flag (R27). -/
structure Flags where
  zf : Bool
  sf : Bool
deriving DecidableEq, Repr

/-- The controller status (R28). -/
inductive Status
  /-- The controller can take another step. -/
  | run
  /-- Fewer than 2 bytes remain, or every record has been executed. -/
  | done
  /-- The next instruction's declared length exceeds the remaining stream. -/
  | stopTruncated
  /-- Classification failure under the strict policy. -/
  | faultUnknownOpcode
  /-- Execution lookup failure under the halt policy. -/
  | faultExecLookup
  /-- An index out of table range, or an ill-formed record. -/
  | faultInvariant
deriving DecidableEq, Repr

/-- What the host supplies before reset and holds constant during the run (R5, R20, R29, R31, R271): the stream, the
records, and the four configuration inputs. -/
structure Inputs where
  stream : Stream
  records : List PortItem
  mode : Mode
  unknownOpcodePolicy : UnknownOpcodePolicy
  execFaultPolicy : ExecFaultPolicy
  extCheck : Bool
deriving DecidableEq, Repr

/-- The state (R20). -/
structure State where
  /-- `R[0..7]` (R21). -/
  regs : RegFile
  /-- `ZF`, `SF` (R26). -/
  flags : Flags
  /-- The byte offset of the next instruction to classify (R24); its width is not fixed (D9). -/
  pc : Nat
  /-- The index of the next record to execute (R25). -/
  rpc : Nat
  /-- `status` (R28). -/
  status : Status
  /-- `fault_info`: an offset or an index, or none (R28). -/
  faultInfo : Option Nat
  /-- `exec_rejected`: the sticky bit (R28). -/
  execRejected : Bool
  /-- The output trace `out`, oldest first: each record with the offset it was decoded at (R32). -/
  out : List (Nat × Record)
  /-- The inputs sampled at reset (R20, R29). -/
  inputs : Inputs
deriving DecidableEq, Repr

/-- Why `exec` answers a fault (DESIGN CHOICE, log entry 9). Neither arises from `step`, which takes an instruction only in status `RUN` and only
from the port its mode selects; the failure conditions of the spec are NOT faults here: they are next states with
`status` and `fault_info` set (60_exceptions R240). -/
inductive Fault
  /-- Raised by `exec`, any instruction, when `status` is not `RUN`: the controller steps only while it is (R210, and
  "requires status = RUN" of R213 and R219). Safe: the model stops where the spec gives no step. -/
  | controllerStopped
  /-- Raised by `exec` for a form of the instruction stream in mode `RECORD_EXEC`, where "the stream is not used", and
  for a record-port form in a stream mode, where it "cannot occur" (R211, R200). Safe: the model stops where the spec
  gives no meaning. -/
  | wrongPort
deriving DecidableEq, Repr

/-- Why an instruction has no meaning. -/
inductive Refusal
  /-- Raised by an arm of `exec` whose instruction has no meaning yet. Safe: the model stops. No arm raises it. -/
  | notModelled (mnemonic : String)
deriving DecidableEq, Repr

/-- The state right after a reset (R35, R270) with the given `FLAGS_RESET` and inputs: the registers all zero, the
counters at 0, status `RUN`, no fault record, no rejection, an empty trace, and the inputs as sampled. -/
def State.resetWith (flagsReset : Bool × Bool) (inputs : Inputs) : State where
  regs := RegFile.zero
  flags := ⟨flagsReset.1, flagsReset.2⟩
  pc := Config.pcReset
  rpc := Config.pcReset
  status := .run
  faultInfo := none
  execRejected := false
  out := []
  inputs := inputs

/-- The inputs of `State.reset`: nothing placed (a stream of length 0, no record) and the configuration at the
defaults of R5. The mode is this model's choice (DESIGN CHOICE, log entry 2). -/
def Inputs.default : Inputs where
  stream := Stream.empty
  records := []
  mode := Config.defaultMode
  unknownOpcodePolicy := Config.defaultUnknownOpcodePolicy
  execFaultPolicy := Config.defaultExecFaultPolicy
  extCheck := Config.defaultExtCheck

/-- The machine right after reset, with the default inputs (R5, R35). -/
def State.reset : State := State.resetWith Config.flagsReset Inputs.default

end Sys2Proof.Machine
end

