-- ==== Sys2Proof/Machine/Flags.lean ====
section
/-! DEFINITION. The ALU adder and the flag logic (40_execute_engine R143, R144, R146). -/

namespace Sys2Proof.Machine

/-- `alu(ADD, a, b) = (a + b) mod 2^16` (R143): no carry in or out, no overflow (R146). -/
def aluAdd (a b : Word) : Word := a + b

/-- `alu(SUB, a, b) = (a - b) mod 2^16` (R143): no borrow recorded (R146). -/
def aluSub (a b : Word) : Word := a - b

/-- The flags of an ALU result (R144): Zero looks at all 16 bits, Sign is bit 7 at every width (the narrowing quirk). -/
def flagsOf (r : Word) : Flags := { zf := r == 0x0000#16, sf := r.getLsbD 7 }

end Sys2Proof.Machine
end

