-- ==== Sys2Proof/WellFormed.lean ====
section
/-! DEFINITION. Which terms of the syntax stand for something the spec has: the register/memory operands an
addressing-mode byte can produce (30_encoding R82 to R85, R99) and the well-formed records of the record port
(10_state R31). -/

namespace Sys2Proof

/-- The register/memory operands the encoding admits: without a displacement the base is never `bp` alone (mod 00 with
rm 110 is the direct address, R83, R99) and the displacement is 0 (R82); a `d8` displacement is in -128 to 127, the
sign extension of its low byte (R84). -/
def RegMem.wellFormed {ρ : Type} : RegMem ρ → Bool
  | .reg _ => true
  | .mem base .none disp => base != .bp && disp == 0
  | .mem _ .d8 disp => (disp.setWidth 8).signExtend 16 == disp
  | .mem _ .d16 _ => true
  | .direct _ => true

/-- Well-formed instructions: the register/memory operand, where the form has one, is well formed; every other field
is in range by its type ("no field value is illegal", 30_encoding R93). -/
def Instr.wellFormed : Instr → Bool
  | .movRm8R8 dst _ => dst.wellFormed
  | .movRm16R16 dst _ => dst.wellFormed
  | .movR8Rm8 _ src => src.wellFormed
  | .movR16Rm16 _ src => src.wellFormed
  | .movR8Imm8 _ _ => true
  | .movR16Imm16 _ _ => true
  | .addRm8R8 dst _ => dst.wellFormed
  | .addRm16R16 dst _ => dst.wellFormed
  | .addR8Rm8 _ src => src.wellFormed
  | .addR16Rm16 _ src => src.wellFormed
  | .addRm8Imm8 dst _ => dst.wellFormed
  | .addRm16Imm16 dst _ => dst.wellFormed
  | .addAlImm8 _ => true
  | .addAxImm16 _ => true
  | .recMovReg _ _ => true
  | .recMovImm _ _ => true
  | .recAddReg _ _ => true
  | .recAddImm _ _ => true
  | .recSubReg _ _ => true
  | .recSubImm _ _ => true
  | .recCmpReg _ _ => true
  | .recCmpImm _ _ => true

/-- An operand that is a word register of the register file. -/
def Operand.isWordReg : Operand → Bool
  | .register .word index => decide (index < 8)
  | .register .byte _ => false
  | .memory _ _ _ => false
  | .direct _ => false
  | .immediate _ _ => false

/-- An operand that is an immediate. -/
def Operand.isImmediate : Operand → Bool
  | .immediate _ _ => true
  | .register _ _ => false
  | .memory _ _ _ => false
  | .direct _ => false

/-- A well-formed record of the record port (R31): "its destination is `Register(word, i)` and its source is
`Register(word, j)` or `Immediate(v, width)`, with `0 <= i, j <= 7`". -/
def Record.wellFormed (r : Record) : Bool :=
  r.dest.isWordReg && (r.src.isWordReg || r.src.isImmediate)

/-- Does the instruction arrive on the record port (R103)? All others are forms of the instruction stream. -/
def Instr.onRecordPort : Instr → Bool
  | .movRm8R8 _ _ => false
  | .movRm16R16 _ _ => false
  | .movR8Rm8 _ _ => false
  | .movR16Rm16 _ _ => false
  | .movR8Imm8 _ _ => false
  | .movR16Imm16 _ _ => false
  | .addRm8R8 _ _ => false
  | .addRm16R16 _ _ => false
  | .addR8Rm8 _ _ => false
  | .addR16Rm16 _ _ => false
  | .addRm8Imm8 _ _ => false
  | .addRm16Imm16 _ _ => false
  | .addAlImm8 _ => false
  | .addAxImm16 _ => false
  | .recMovReg _ _ => true
  | .recMovImm _ _ => true
  | .recAddReg _ _ => true
  | .recAddImm _ _ => true
  | .recSubReg _ _ => true
  | .recSubImm _ _ => true
  | .recCmpReg _ _ => true
  | .recCmpImm _ _ => true

end Sys2Proof
end

