-- ==== Sys2Proof/Decode.lean ====
section
/-! DEFINITION. The three decoding units of the block (spec 30_encoding): the opcode classifier (R75 to R77), the
instruction length calculator (R90, R91) and the operand decoder (R78 to R89, R92); the decoding of the record port
(R31, R95); and, after them, the encoder, written from the same tables. `decodeAt` is rule R92. -/

namespace Sys2Proof

open Sys2Proof.Machine (Stream littleEndian)

/-- `sext_16`: an 8-bit pattern with bit 7 copied into bits 15:8 (00_scope R7). -/
def sext16 (b : Byte) : Word := b.signExtend 16

/-! ### The opcode classifier -/

/-- The five opcode families (R75). -/
inductive Family
  | movRmR | movRI | addRmR | addRmI | addAI
deriving DecidableEq, Repr

/-- One row of the classifier's table of masks and patterns (R75). -/
structure ClassRow where
  mask : Byte
  pattern : Byte
  family : Family
deriving DecidableEq, Repr

/-- The table of R75, in its priority order. -/
def classTable : List ClassRow :=
  [ { mask := 0xFC, pattern := 0x88, family := .movRmR }
  , { mask := 0xF0, pattern := 0xB0, family := .movRI }
  , { mask := 0xFC, pattern := 0x00, family := .addRmR }
  , { mask := 0xFE, pattern := 0x80, family := .addRmI }
  , { mask := 0xFE, pattern := 0x04, family := .addAI } ]

/-- `(b0 AND mask) = pattern` (R75). -/
def ClassRow.hits (row : ClassRow) (b0 : Byte) : Bool := b0 &&& row.mask == row.pattern

/-- `classify1(b0)`: the family of the first row that matches, or none (R75). -/
def classify1 (b0 : Byte) : Option Family :=
  (classTable.find? (fun row => row.hits b0)).map (fun row => row.family)

/-- `mod = b1[7:6]` (R78). -/
def fieldMod (b1 : Byte) : BitVec 2 := b1.extractLsb' 6 2

/-- `reg = b1[5:3]` (R78), also the opcode-extension field (R76). -/
def fieldReg (b1 : Byte) : BitVec 3 := b1.extractLsb' 3 3

/-- `rm = b1[2:0]` (R78). -/
def fieldRm (b1 : Byte) : BitVec 3 := b1.extractLsb' 0 3

/-- The direction bit `d = b0[1]` of format `F-RM` (R71). -/
def fieldD (b0 : Byte) : Bool := b0.getLsbD 1

/-- The width bit `w = b0[0]` of formats `F-RM`, `F-IRM` and `F-AI` (R71, R73, R74). -/
def fieldW (b0 : Byte) : Bool := b0.getLsbD 0

/-- The width bit `w = b0[3]` of format `F-IR` (R72). -/
def fieldWIr (b0 : Byte) : Bool := b0.getLsbD 3

/-- `classify(b0, b1)`: `classify1`, with the extension field of `80` and `81` checked when `EXT_CHECK` is true (R76).
-/
def classify (extCheck : Bool) (b0 b1 : Byte) : Option Family :=
  match classify1 b0 with
  | some .addRmI => if extCheck && fieldReg b1 != 0b000#3 then none else some .addRmI
  | other => other

/-! ### The instruction length calculator -/

/-- `disp_size(mod, rm)` in bytes (R86). -/
def dispSize (mod : BitVec 2) (rm : BitVec 3) : Nat :=
  if mod = 0b00#2 then (if rm = 0b110#3 then 2 else 0)
  else if mod = 0b01#2 then 1
  else if mod = 0b10#2 then 2
  else 0

/-- `imm_size(w)` in bytes (R87). -/
def immSize (w : Bool) : Nat := if w then 2 else 1

/-- `insn_length(family, b0, b1)` (R90). -/
def insnLength (family : Family) (b0 b1 : Byte) : Nat :=
  match family with
  | .movRmR => 2 + dispSize (fieldMod b1) (fieldRm b1)
  | .addRmR => 2 + dispSize (fieldMod b1) (fieldRm b1)
  | .addRmI => 2 + dispSize (fieldMod b1) (fieldRm b1) + immSize (fieldW b0)
  | .movRI => 1 + immSize (fieldWIr b0)
  | .addAI => 1 + immSize (fieldW b0)

/-! ### The operand decoder -/

/-- The word row of the register naming table (R79). -/
def Reg16.ofIndex (i : BitVec 3) : Reg16 :=
  match i.toNat with
  | 0 => .ax
  | 1 => .cx
  | 2 => .dx
  | 3 => .bx
  | 4 => .sp
  | 5 => .bp
  | 6 => .si
  | _ => .di

/-- The byte row of the register naming table (R79). -/
def Reg8.ofIndex (i : BitVec 3) : Reg8 :=
  match i.toNat with
  | 0 => .al
  | 1 => .cl
  | 2 => .dl
  | 3 => .bl
  | 4 => .ah
  | 5 => .ch
  | 6 => .dh
  | _ => .bh

/-- The base table (R81). -/
def Base.ofRm (rm : BitVec 3) : Base :=
  match rm.toNat with
  | 0 => .bxSi
  | 1 => .bxDi
  | 2 => .bpSi
  | 3 => .bpDi
  | 4 => .si
  | 5 => .di
  | 6 => .bp
  | _ => .bx

/-- `decode_rm(pc, w, mod, rm)` (R92; R80 to R85), the register table of the width given as `regOf`; none stands for a
`MemRead` out of bounds (R51). -/
def decodeRm {ρ : Type} (regOf : BitVec 3 → ρ) (st : Stream) (pc : Nat) (mod : BitVec 2) (rm : BitVec 3) :
    Option (RegMem ρ) :=
  if mod = 0b11#2 then some (.reg (regOf rm))
  else if mod = 0b00#2 ∧ rm = 0b110#3 then (st.memRead2 (pc + 2)).map (fun a => .direct a)
  else if mod = 0b00#2 then some (.mem (Base.ofRm rm) .none 0)
  else if mod = 0b01#2 then (st.memRead1 (pc + 2)).map (fun d => .mem (Base.ofRm rm) .d8 (sext16 d))
  else (st.memRead2 (pc + 2)).map (fun d => .mem (Base.ofRm rm) .d16 d)

/-- The register/memory forms of MOV and ADD (R71, R89): `d = 1` makes the register operand the destination. -/
def decodeRmR (add : Bool) (st : Stream) (pc : Nat) (b0 b1 : Byte) : Option Instr :=
  match fieldW b0 with
  | false =>
    (decodeRm Reg8.ofIndex st pc (fieldMod b1) (fieldRm b1)).map fun rm =>
      match add, fieldD b0 with
      | false, false => .movRm8R8 rm (Reg8.ofIndex (fieldReg b1))
      | false, true => .movR8Rm8 (Reg8.ofIndex (fieldReg b1)) rm
      | true, false => .addRm8R8 rm (Reg8.ofIndex (fieldReg b1))
      | true, true => .addR8Rm8 (Reg8.ofIndex (fieldReg b1)) rm
  | true =>
    (decodeRm Reg16.ofIndex st pc (fieldMod b1) (fieldRm b1)).map fun rm =>
      match add, fieldD b0 with
      | false, false => .movRm16R16 rm (Reg16.ofIndex (fieldReg b1))
      | false, true => .movR16Rm16 (Reg16.ofIndex (fieldReg b1)) rm
      | true, false => .addRm16R16 rm (Reg16.ofIndex (fieldReg b1))
      | true, true => .addR16Rm16 (Reg16.ofIndex (fieldReg b1)) rm

/-- The immediate-to-register MOV (R72): `w = b0[3]`, `reg = b0[2:0]`, the immediate at `pc + 1`. -/
def decodeMovRI (st : Stream) (pc : Nat) (b0 : Byte) : Option Instr :=
  match fieldWIr b0 with
  | false => (st.memRead1 (pc + 1)).map (fun v => .movR8Imm8 (Reg8.ofIndex (fieldRm b0)) v)
  | true => (st.memRead2 (pc + 1)).map (fun v => .movR16Imm16 (Reg16.ofIndex (fieldRm b0)) v)

/-- The immediate-to-register/memory ADD (R73): the immediate follows the displacement (R88). -/
def decodeAddRmI (st : Stream) (pc : Nat) (b0 b1 : Byte) : Option Instr :=
  let immAt := pc + 2 + dispSize (fieldMod b1) (fieldRm b1)
  match fieldW b0 with
  | false =>
    (decodeRm Reg8.ofIndex st pc (fieldMod b1) (fieldRm b1)).bind fun rm =>
      (st.memRead1 immAt).map (fun v => .addRm8Imm8 rm v)
  | true =>
    (decodeRm Reg16.ofIndex st pc (fieldMod b1) (fieldRm b1)).bind fun rm =>
      (st.memRead2 immAt).map (fun v => .addRm16Imm16 rm v)

/-- The accumulator-immediate ADD (R74): the destination is al or ax by the width bit. -/
def decodeAddAI (st : Stream) (pc : Nat) (b0 : Byte) : Option Instr :=
  match fieldW b0 with
  | false => (st.memRead1 (pc + 1)).map (fun v => .addAlImm8 v)
  | true => (st.memRead2 (pc + 1)).map (fun v => .addAxImm16 v)

/-- The operands of a classified instruction whose length has passed the check (R92). -/
def decodeOperands (family : Family) (st : Stream) (pc : Nat) (b0 b1 : Byte) : Option Instr :=
  match family with
  | .movRmR => decodeRmR false st pc b0 b1
  | .addRmR => decodeRmR true st pc b0 b1
  | .movRI => decodeMovRI st pc b0
  | .addRmI => decodeAddRmI st pc b0 b1
  | .addAI => decodeAddAI st pc b0

/-- What `decode` returns (R92). `outOfBounds` is a `MemRead` past the end (R51; log entry 11), which the bounds discipline rules out
(R62) and which is treated as `InvariantViolation` if it is ever met (R244). -/
inductive Decoded
  | unknown
  | truncated (len : Nat)
  | outOfBounds
  | ok (i : Instr)
deriving DecidableEq, Repr

/-- `decode(pc)` (R92): classify, compute the length, check the bound, and only then read the trailing bytes. -/
def decodeAt (extCheck : Bool) (st : Stream) (pc : Nat) : Decoded :=
  match st.memRead1 pc, st.memRead1 (pc + 1) with
  | some b0, some b1 =>
    match classify extCheck b0 b1 with
    | none => .unknown
    | some family =>
      if pc + insnLength family b0 b1 > st.len then .truncated (insnLength family b0 b1)
      else
        match decodeOperands family st pc b0 b1 with
        | some i => .ok i
        | none => .outOfBounds
  | _, _ => .outOfBounds

/-! ### The record port -/

/-- The record-port form of an operation with a register source (R95). -/
def xrecReg (op : BitVec 2) (dst src : Reg16) : Instr :=
  match op.toNat with
  | 0 => .recMovReg dst src
  | 1 => .recAddReg dst src
  | 2 => .recSubReg dst src
  | _ => .recCmpReg dst src

/-- The record-port form of an operation with an immediate source (R95). -/
def xrecImm (op : BitVec 2) (dst : Reg16) (v : Word) : Instr :=
  match op.toNat with
  | 0 => .recMovImm dst v
  | 1 => .recAddImm dst v
  | 2 => .recSubImm dst v
  | _ => .recCmpImm dst v

/-- Unpacking an `XREC` word (R95): none where bits 20:19 are not zero, or `k = 0` and `v[15:3]` is not zero. -/
def decodeXrec (x : BitVec 24) : Option Instr :=
  if x.extractLsb' 19 2 ≠ 0b00#2 then none
  else
    match x.getLsbD 21 with
    | true => some (xrecImm (x.extractLsb' 22 2) (Reg16.ofIndex (x.extractLsb' 16 3)) (x.extractLsb' 0 16))
    | false =>
      if x.extractLsb' 3 13 ≠ 0#13 then none
      else some (xrecReg (x.extractLsb' 22 2) (Reg16.ofIndex (x.extractLsb' 16 3)) (Reg16.ofIndex (x.extractLsb' 0 3)))

/-- The general register of an index of a record, if it is in 0 to 7 (R21). -/
def Reg16.ofRecordIndex (index : Nat) : Option Reg16 :=
  match index with
  | 0 => some .ax
  | 1 => some .cx
  | 2 => some .dx
  | 3 => some .bx
  | 4 => some .sp
  | 5 => some .bp
  | 6 => some .si
  | 7 => some .di
  | _ + 8 => none

/-- The instruction an abstract record of the record port stands for, when it is well formed (R31; log entry 8): the engine ignores
its length and the intended width of an immediate (R140). None for any other record. -/
def Record.instr (r : Record) : Option Instr :=
  match r.dest, r.src with
  | .register .word i, .register .word j =>
    match Reg16.ofRecordIndex i, Reg16.ofRecordIndex j with
    | some d, some s =>
      match r.mnemonic with
      | .MOV => some (.recMovReg d s)
      | .ADD => some (.recAddReg d s)
      | .SUB => some (.recSubReg d s)
      | .CMP => some (.recCmpReg d s)
    | _, _ => none
  | .register .word i, .immediate v _ =>
    match Reg16.ofRecordIndex i with
    | some d =>
      match r.mnemonic with
      | .MOV => some (.recMovImm d v)
      | .ADD => some (.recAddImm d v)
      | .SUB => some (.recSubImm d v)
      | .CMP => some (.recCmpImm d v)
    | none => none
  | _, _ => none

/-! ### The encoder, from the same tables -/

/-- The index of a general register (R79). -/
def Reg16.index : Reg16 → BitVec 3
  | .ax => 0b000
  | .cx => 0b001
  | .dx => 0b010
  | .bx => 0b011
  | .sp => 0b100
  | .bp => 0b101
  | .si => 0b110
  | .di => 0b111

/-- The index of a byte register name (R79). -/
def Reg8.index : Reg8 → BitVec 3
  | .al => 0b000
  | .cl => 0b001
  | .dl => 0b010
  | .bl => 0b011
  | .ah => 0b100
  | .ch => 0b101
  | .dh => 0b110
  | .bh => 0b111

/-- The register/memory field of a base combination (R81). -/
def Base.rm : Base → BitVec 3
  | .bxSi => 0b000
  | .bxDi => 0b001
  | .bpSi => 0b010
  | .bpDi => 0b011
  | .si => 0b100
  | .di => 0b101
  | .bp => 0b110
  | .bx => 0b111

/-- The low byte of a word, at the lower offset (R52). -/
def lowByte (v : Word) : Byte := v.extractLsb' 0 8

/-- The high byte of a word, at the next offset (R52). -/
def highByte (v : Word) : Byte := v.extractLsb' 8 8

/-- The two bytes of a word in stream order (R52). -/
def wordBytes (v : Word) : List Byte := [lowByte v, highByte v]

/-- The addressing-mode byte (R78) with its displacement bytes (R80 to R86). -/
def encodeRm {ρ : Type} (indexOf : ρ → BitVec 3) (reg : BitVec 3) : RegMem ρ → List Byte
  | .reg r => [0b11#2 ++ reg ++ indexOf r]
  | .mem base .none _ => [0b00#2 ++ reg ++ base.rm]
  | .mem base .d8 disp => [0b01#2 ++ reg ++ base.rm, lowByte disp]
  | .mem base .d16 disp => (0b10#2 ++ reg ++ base.rm) :: wordBytes disp
  | .direct addr => (0b00#2 ++ reg ++ 0b110#3) :: wordBytes addr

/-- `XREC` with a register source (R95). -/
def encodeXrecReg (op : BitVec 2) (dst src : Reg16) : BitVec 24 :=
  op ++ 0b0#1 ++ 0b00#2 ++ dst.index ++ 0#13 ++ src.index

/-- `XREC` with an immediate source (R95). -/
def encodeXrecImm (op : BitVec 2) (dst : Reg16) (v : Word) : BitVec 24 :=
  op ++ 0b1#1 ++ 0b00#2 ++ dst.index ++ v

/-- What an instruction is encoded as: bytes of the stream, or one `XREC` word of the record port. -/
inductive Encoding
  | bytes (bs : List Byte)
  | xrec (x : BitVec 24)
deriving DecidableEq, Repr

/-- The encoding of a well-formed instruction (R70 to R74, R88, R95). -/
def encode : Instr → Encoding
  | .movRm8R8 dst src => .bytes (0x88 :: encodeRm Reg8.index src.index dst)
  | .movRm16R16 dst src => .bytes (0x89 :: encodeRm Reg16.index src.index dst)
  | .movR8Rm8 dst src => .bytes (0x8A :: encodeRm Reg8.index dst.index src)
  | .movR16Rm16 dst src => .bytes (0x8B :: encodeRm Reg16.index dst.index src)
  | .movR8Imm8 dst imm => .bytes [0b10110#5 ++ dst.index, imm]
  | .movR16Imm16 dst imm => .bytes ((0b10111#5 ++ dst.index) :: wordBytes imm)
  | .addRm8R8 dst src => .bytes (0x00 :: encodeRm Reg8.index src.index dst)
  | .addRm16R16 dst src => .bytes (0x01 :: encodeRm Reg16.index src.index dst)
  | .addR8Rm8 dst src => .bytes (0x02 :: encodeRm Reg8.index dst.index src)
  | .addR16Rm16 dst src => .bytes (0x03 :: encodeRm Reg16.index dst.index src)
  | .addRm8Imm8 dst imm => .bytes (0x80 :: (encodeRm Reg8.index 0b000 dst ++ [imm]))
  | .addRm16Imm16 dst imm => .bytes (0x81 :: (encodeRm Reg16.index 0b000 dst ++ wordBytes imm))
  | .addAlImm8 imm => .bytes [0x04, imm]
  | .addAxImm16 imm => .bytes (0x05 :: wordBytes imm)
  | .recMovReg dst src => .xrec (encodeXrecReg 0b00 dst src)
  | .recMovImm dst imm => .xrec (encodeXrecImm 0b00 dst imm)
  | .recAddReg dst src => .xrec (encodeXrecReg 0b01 dst src)
  | .recAddImm dst imm => .xrec (encodeXrecImm 0b01 dst imm)
  | .recSubReg dst src => .xrec (encodeXrecReg 0b10 dst src)
  | .recSubImm dst imm => .xrec (encodeXrecImm 0b10 dst imm)
  | .recCmpReg dst src => .xrec (encodeXrecReg 0b11 dst src)
  | .recCmpImm dst imm => .xrec (encodeXrecImm 0b11 dst imm)

/-- The bytes of a stream instruction; none of a record-port one. -/
def encodeBytes (i : Instr) : List Byte :=
  match encode i with
  | .bytes bs => bs
  | .xrec _ => []

/-! ### Length and record of an instruction -/

/-- The displacement or direct-address bytes of a register/memory operand (R86). -/
def RegMem.dispSize {ρ : Type} : RegMem ρ → Nat
  | .reg _ => 0
  | .mem _ .none _ => 0
  | .mem _ .d8 _ => 1
  | .mem _ .d16 _ => 2
  | .direct _ => 2

/-- The byte length of a stream instruction (R90, R91); 0 for a record of the record port (R8). -/
def Instr.length : Instr → Nat
  | .movRm8R8 dst _ => 2 + dst.dispSize
  | .movRm16R16 dst _ => 2 + dst.dispSize
  | .movR8Rm8 _ src => 2 + src.dispSize
  | .movR16Rm16 _ src => 2 + src.dispSize
  | .movR8Imm8 _ _ => 2
  | .movR16Imm16 _ _ => 3
  | .addRm8R8 dst _ => 2 + dst.dispSize
  | .addRm16R16 dst _ => 2 + dst.dispSize
  | .addR8Rm8 _ src => 2 + src.dispSize
  | .addR16Rm16 _ src => 2 + src.dispSize
  | .addRm8Imm8 dst _ => 3 + dst.dispSize
  | .addRm16Imm16 dst _ => 4 + dst.dispSize
  | .addAlImm8 _ => 2
  | .addAxImm16 _ => 3
  | .recMovReg _ _ => 0
  | .recMovImm _ _ => 0
  | .recAddReg _ _ => 0
  | .recAddImm _ _ => 0
  | .recSubReg _ _ => 0
  | .recSubImm _ _ => 0
  | .recCmpReg _ _ => 0
  | .recCmpImm _ _ => 0

/-- `reg_operand(0, i)` (R79). -/
def Reg8.operand (r : Reg8) : Operand := .register .byte r.index.toNat

/-- `reg_operand(1, i)` (R79). -/
def Reg16.operand (r : Reg16) : Operand := .register .word r.index.toNat

/-- A register/memory operand as an operand of a record (R80 to R85). -/
def RegMem.operand {ρ : Type} (regOperand : ρ → Operand) : RegMem ρ → Operand
  | .reg r => regOperand r
  | .mem base kind disp => .memory base kind disp
  | .direct addr => .direct addr

/-- `Immediate(signed(sext_16(ib)), byte)` (R87). -/
def imm8Operand (v : Byte) : Operand := .immediate (sext16 v) .byte

/-- `Immediate(signed(iw), word)` (R87). -/
def imm16Operand (v : Word) : Operand := .immediate v .word

/-- The record of an instruction: what `decode` returns as `Ok(rec)` for a stream form (R89, R92), what an `XREC` word
unpacks to for a record-port form (R95). -/
def Instr.record (i : Instr) : Record :=
  match i with
  | .movRm8R8 dst src => ⟨.MOV, dst.operand Reg8.operand, src.operand, i.length⟩
  | .movRm16R16 dst src => ⟨.MOV, dst.operand Reg16.operand, src.operand, i.length⟩
  | .movR8Rm8 dst src => ⟨.MOV, dst.operand, src.operand Reg8.operand, i.length⟩
  | .movR16Rm16 dst src => ⟨.MOV, dst.operand, src.operand Reg16.operand, i.length⟩
  | .movR8Imm8 dst imm => ⟨.MOV, dst.operand, imm8Operand imm, i.length⟩
  | .movR16Imm16 dst imm => ⟨.MOV, dst.operand, imm16Operand imm, i.length⟩
  | .addRm8R8 dst src => ⟨.ADD, dst.operand Reg8.operand, src.operand, i.length⟩
  | .addRm16R16 dst src => ⟨.ADD, dst.operand Reg16.operand, src.operand, i.length⟩
  | .addR8Rm8 dst src => ⟨.ADD, dst.operand, src.operand Reg8.operand, i.length⟩
  | .addR16Rm16 dst src => ⟨.ADD, dst.operand, src.operand Reg16.operand, i.length⟩
  | .addRm8Imm8 dst imm => ⟨.ADD, dst.operand Reg8.operand, imm8Operand imm, i.length⟩
  | .addRm16Imm16 dst imm => ⟨.ADD, dst.operand Reg16.operand, imm16Operand imm, i.length⟩
  | .addAlImm8 imm => ⟨.ADD, Reg8.al.operand, imm8Operand imm, i.length⟩
  | .addAxImm16 imm => ⟨.ADD, Reg16.ax.operand, imm16Operand imm, i.length⟩
  | .recMovReg dst src => ⟨.MOV, dst.operand, src.operand, i.length⟩
  | .recMovImm dst imm => ⟨.MOV, dst.operand, imm16Operand imm, i.length⟩
  | .recAddReg dst src => ⟨.ADD, dst.operand, src.operand, i.length⟩
  | .recAddImm dst imm => ⟨.ADD, dst.operand, imm16Operand imm, i.length⟩
  | .recSubReg dst src => ⟨.SUB, dst.operand, src.operand, i.length⟩
  | .recSubImm dst imm => ⟨.SUB, dst.operand, imm16Operand imm, i.length⟩
  | .recCmpReg dst src => ⟨.CMP, dst.operand, src.operand, i.length⟩
  | .recCmpImm dst imm => ⟨.CMP, dst.operand, imm16Operand imm, i.length⟩

/-! ### Words as spec/opcode_table.json numbers them -/

/-- Is a word of `nbits` bits an `XREC` word of the record port? The table's record-port rows, and only they, have 24
bits. -/
def tableWordIsXrec (nbits : Nat) : Bool := nbits == 24

/-- The bytes of a stream row's word in stream order. The table numbers a stream row's two bytes as `(b0 << 8) | b1`
(R103, and "match_over" of each row): the byte at the LOWER offset is the more significant one (DEDUCED, log entry 6). The
bytes above the row's own are 0, up to the longest instruction. -/
def tableWordBytes (nbits w : Nat) : List Byte :=
  let n := nbits / 8
  (List.range n).map (fun k => BitVec.ofNat 8 (w >>> (8 * (n - 1 - k)))) ++ List.replicate (Config.maxLen - n) 0

/-- The instruction the decoder reads from a word of spec/opcode_table.json: the record port's decoder for the 24-bit
rows, the stream's (with `EXT_CHECK` at its default) for the others. -/
def decodeTableWord (nbits w : Nat) : Option Instr :=
  if tableWordIsXrec nbits then decodeXrec (BitVec.ofNat 24 w)
  else
    match decodeAt Config.defaultExtCheck (Stream.ofBytes (tableWordBytes nbits w)) 0 with
    | .ok i => some i
    | .unknown => none
    | .truncated _ => none
    | .outOfBounds => none

end Sys2Proof
end

