-- ==== Sys2Proof/Machine/Operands.lean ====
section
/-! DEFINITION. Access to the register file (10_state R21, R23) and the resolution of a record's operands against it
(40_execute_engine R141). -/

namespace Sys2Proof.Machine

/-- `R[i]` (00_scope R7, 10_state R21). -/
def RegFile.get (rf : RegFile) : Reg16 → Word
  | .ax => rf.ax
  | .cx => rf.cx
  | .dx => rf.dx
  | .bx => rf.bx
  | .sp => rf.sp
  | .bp => rf.bp
  | .si => rf.si
  | .di => rf.di

/-- `R[i] <- v` (00_scope R7, 10_state R21). No register is hardwired. -/
def RegFile.set (rf : RegFile) (r : Reg16) (v : Word) : RegFile :=
  match r with
  | .ax => { rf with ax := v }
  | .cx => { rf with cx := v }
  | .dx => { rf with dx := v }
  | .bx => { rf with bx := v }
  | .sp => { rf with sp := v }
  | .bp => { rf with bp := v }
  | .si => { rf with si := v }
  | .di => { rf with di := v }

/-- `dest_index(op)` (R141): only a word register of the register file resolves; none is `LookupFailure`. -/
def destIndex : Operand → Option Reg16
  | .register .word index => Reg16.ofRecordIndex index
  | .register .byte _ => none
  | .memory _ _ _ => none
  | .direct _ => none
  | .immediate _ _ => none

/-- `src_value(op)` (R141): a word register's contents, or the 16-bit pattern of an immediate of any width; none is
`LookupFailure`. -/
def srcValue (rf : RegFile) : Operand → Option Word
  | .register .word index => (Reg16.ofRecordIndex index).map rf.get
  | .register .byte _ => none
  | .memory _ _ _ => none
  | .direct _ => none
  | .immediate value _ => some value

/-- A register operand, of either width, names an index in 0 to 7 (R8, R244). -/
def operandInRange : Operand → Bool
  | .register _ index => decide (index < 8)
  | .memory _ _ _ => true
  | .direct _ => true
  | .immediate _ _ => true

/-- The record names no register index outside 0 to 7 (R219, R244). -/
def recordInRange (r : Record) : Bool := operandInRange r.dest && operandInRange r.src

end Sys2Proof.Machine
end

