-- ==== Sys2Proof/Machine/Ops.lean ====
section
/-! DEFINITION. The named operations every meaning is built from: the execution engine's four operations
(40_execute_engine R140 to R147, 41_mov R160, 42_add R180, 43_sub_cmp R201, R204), raising a condition (60_exceptions
R240, the one shared operation for every condition; there is no return from one, R249), emission (R216), rejection
(R217), the advance of the counters (R218, R219), and the two ways an instruction is carried out, from the stream
(R213) and from the record port (R219). -/

namespace Sys2Proof.Machine

/-! ### The execution engine: what it returns is all it can write (R147); none is `LookupFailure`, nothing written -/

/-- MOV (R160): "destination ← source value (no flag effect)". -/
def engineMov (dest src : Operand) (rf : RegFile) (fl : Flags) : Option (RegFile × Flags) :=
  match destIndex dest, srcValue rf src with
  | some i, some b => some (rf.set i b, fl)
  | _, _ => none

/-- ADD (R180). -/
def engineAdd (dest src : Operand) (rf : RegFile) : Option (RegFile × Flags) :=
  match destIndex dest, srcValue rf src with
  | some i, some b => some (rf.set i (aluAdd (rf.get i) b), flagsOf (aluAdd (rf.get i) b))
  | _, _ => none

/-- SUB (R201). -/
def engineSub (dest src : Operand) (rf : RegFile) : Option (RegFile × Flags) :=
  match destIndex dest, srcValue rf src with
  | some i, some b => some (rf.set i (aluSub (rf.get i) b), flagsOf (aluSub (rf.get i) b))
  | _, _ => none

/-- CMP (R204): the flags of the subtraction; the destination is not written. -/
def engineCmp (dest src : Operand) (rf : RegFile) : Option (RegFile × Flags) :=
  match destIndex dest, srcValue rf src with
  | some i, some b => some (rf, flagsOf (aluSub (rf.get i) b))
  | _, _ => none

/-- `execute(rec)` (R140): the mnemonic and the two operands decide; the length and an immediate's width do not. -/
def execute (rec : Record) (rf : RegFile) (fl : Flags) : Option (RegFile × Flags) :=
  match rec.mnemonic with
  | .MOV => engineMov rec.dest rec.src rf fl
  | .ADD => engineAdd rec.dest rec.src rf
  | .SUB => engineSub rec.dest rec.src rf
  | .CMP => engineCmp rec.dest rec.src rf

/-! ### Conditions -/

/-- The synchronous conditions the controller can raise, all of them (R240). -/
inductive Condition
  | truncated
  | unknownOpcode
  | execLookup
  | invariantViolation
deriving DecidableEq, Repr

/-- The status a condition sets (R240). -/
def Condition.status : Condition → Status
  | .truncated => .stopTruncated
  | .unknownOpcode => .faultUnknownOpcode
  | .execLookup => .faultExecLookup
  | .invariantViolation => .faultInvariant

/-- `raise X(info)` (R240): "set `status` to the code of `X`, set `fault_info <- info`, write nothing else". After an
earlier rejection it replaces the rejection's position (DEDUCED, log entry 7). -/
def State.raise (s : State) (c : Condition) (info : Nat) : State :=
  { s with status := c.status, faultInfo := some info }

/-- The normal end (R212, R219). -/
def State.finish (s : State) : State := { s with status := .done }

/-- `emit(a, rec)` at the current offset (R216). -/
def State.emit (s : State) (rec : Record) : State := { s with out := s.out ++ [(s.pc, rec)] }

/-- The new register and flag values of an executed instruction, committed together (R145, R217). -/
def State.commit (s : State) (result : RegFile × Flags) : State :=
  { s with regs := result.1, flags := result.2 }

/-- One rejected instruction under `reject_and_continue` (R213, R217): the sticky bit, and the position of the first
rejection. -/
def State.reject (s : State) (position : Nat) : State :=
  { s with faultInfo := if s.execRejected then s.faultInfo else some position, execRejected := true }

/-- `pc <- pc + n` (R218, and n = 1 for a skipped byte, R214). -/
def State.advance (s : State) (n : Nat) : State := { s with pc := s.pc + n }

/-- `rpc <- rpc + 1` (R219). -/
def State.nextRecord (s : State) : State := { s with rpc := s.rpc + 1 }

/-! ### Carrying out an instruction -/

/-- Execution of an emitted record in `DECODE_EXEC`, and the advance (R213, R217, R218). -/
def State.executeAndAdvance (s : State) (rec : Record) : State :=
  match execute rec s.regs s.flags with
  | some result => (s.commit result).advance rec.length
  | none =>
    match s.inputs.execFaultPolicy with
    | .halt => s.raise .execLookup s.pc
    | .rejectAndContinue => (s.reject s.pc).advance rec.length

/-- The `Ok(rec)` case of the step in the stream modes (R213): emit, execute in `DECODE_EXEC`, advance. -/
def takeFromStream (rec : Record) (s : State) : Host.Outcome State Fault Refusal :=
  if s.status ≠ .run then .fault .controllerStopped
  else
    match s.inputs.mode with
    | .recordExec => .fault .wrongPort
    | .disasm => .next ((s.emit rec).advance rec.length)
    | .decodeExec => .next ((s.emit rec).executeAndAdvance rec)

/-- One record of the record port whose indices are in range (R219): execute, reject or halt, count. -/
def State.executeRecord (s : State) (rec : Record) : State :=
  match execute rec s.regs s.flags with
  | some result => (s.commit result).nextRecord
  | none =>
    match s.inputs.execFaultPolicy with
    | .halt => s.raise .execLookup s.rpc
    | .rejectAndContinue => (s.reject s.rpc).nextRecord

/-- A record-port instruction (R219): nothing is emitted and `pc` is not used. -/
def takeFromPort (rec : Record) (s : State) : Host.Outcome State Fault Refusal :=
  if s.status ≠ .run then .fault .controllerStopped
  else
    match s.inputs.mode with
    | .recordExec => .next (s.executeRecord rec)
    | .disasm => .fault .wrongPort
    | .decodeExec => .fault .wrongPort

end Sys2Proof.Machine
end

