-- ==== Sys2Proof/Machine/Add.lean ====
section
/-! DEFINITION. The meanings of ADD (spec 42_add): eight forms of the instruction stream, two of the record port. The
lengths are those of 30_encoding R91. -/

namespace Sys2Proof.Machine

/-- ADD r/m8, r8 (R181): emitted; never executable, since the source is a byte register. -/
def execAddRm8R8 (dst : RegMem Reg8) (src : Reg8) (s : State) : Host.Outcome State Fault Refusal :=
  takeFromStream ⟨.ADD, dst.operand Reg8.operand, src.operand, 2 + dst.dispSize⟩ s

/-- ADD r/m16, r16 (R182): R180 with i = rm, b = R[reg] when mod = 11; a memory destination is a lookup failure. -/
def execAddRm16R16 (dst : RegMem Reg16) (src : Reg16) (s : State) : Host.Outcome State Fault Refusal :=
  takeFromStream ⟨.ADD, dst.operand Reg16.operand, src.operand, 2 + dst.dispSize⟩ s

/-- ADD r8, r/m8 (R183): emitted; never executable, since the destination is a byte register. -/
def execAddR8Rm8 (dst : Reg8) (src : RegMem Reg8) (s : State) : Host.Outcome State Fault Refusal :=
  takeFromStream ⟨.ADD, dst.operand, src.operand Reg8.operand, 2 + src.dispSize⟩ s

/-- ADD r16, r/m16 (R184): R180 with i = reg, b = R[rm] when mod = 11; a memory source is a lookup failure. -/
def execAddR16Rm16 (dst : Reg16) (src : RegMem Reg16) (s : State) : Host.Outcome State Fault Refusal :=
  takeFromStream ⟨.ADD, dst.operand, src.operand Reg16.operand, 2 + src.dispSize⟩ s

/-- ADD r/m8, imm8 (R185): emitted; never executable, since the destination is a byte register or memory. -/
def execAddRm8Imm8 (dst : RegMem Reg8) (imm : Byte) (s : State) : Host.Outcome State Fault Refusal :=
  takeFromStream ⟨.ADD, dst.operand Reg8.operand, imm8Operand imm, 3 + dst.dispSize⟩ s

/-- ADD r/m16, imm16 (R186): R180 with i = rm, b = iw when mod = 11; a memory destination is a lookup failure. -/
def execAddRm16Imm16 (dst : RegMem Reg16) (imm : Word) (s : State) : Host.Outcome State Fault Refusal :=
  takeFromStream ⟨.ADD, dst.operand Reg16.operand, imm16Operand imm, 4 + dst.dispSize⟩ s

/-- ADD al, imm8 (R187): emitted; never executable, since the destination is a byte register. -/
def execAddAlImm8 (imm : Byte) (s : State) : Host.Outcome State Fault Refusal :=
  takeFromStream ⟨.ADD, Reg8.al.operand, imm8Operand imm, 2⟩ s

/-- ADD ax, imm16 (R188): R180 with i = 0, b = iw. -/
def execAddAxImm16 (imm : Word) (s : State) : Host.Outcome State Fault Refusal :=
  takeFromStream ⟨.ADD, Reg16.ax.operand, imm16Operand imm, 3⟩ s

/-- ADD reg16, reg16 on the record port (R189). -/
def execRecAddReg (dst src : Reg16) (s : State) : Host.Outcome State Fault Refusal :=
  takeFromPort ⟨.ADD, dst.operand, src.operand, 0⟩ s

/-- ADD reg16, imm16 on the record port (R190). -/
def execRecAddImm (dst : Reg16) (imm : Word) (s : State) : Host.Outcome State Fault Refusal :=
  takeFromPort ⟨.ADD, dst.operand, imm16Operand imm, 0⟩ s

end Sys2Proof.Machine
end

