-- ==== Sys2Proof/Machine/Mov.lean ====
section
/-! DEFINITION. The meanings of MOV (spec 41_mov): six forms of the instruction stream, two of the record port. The
lengths are those of 30_encoding R91. -/

namespace Sys2Proof.Machine

/-- MOV r/m8, r8 (R161): emitted; never executable, since the source is a byte register. -/
def execMovRm8R8 (dst : RegMem Reg8) (src : Reg8) (s : State) : Host.Outcome State Fault Refusal :=
  takeFromStream ⟨.MOV, dst.operand Reg8.operand, src.operand, 2 + dst.dispSize⟩ s

/-- MOV r/m16, r16 (R162): `R[rm] <- R[reg]` when mod = 11; a memory destination is a lookup failure. -/
def execMovRm16R16 (dst : RegMem Reg16) (src : Reg16) (s : State) : Host.Outcome State Fault Refusal :=
  takeFromStream ⟨.MOV, dst.operand Reg16.operand, src.operand, 2 + dst.dispSize⟩ s

/-- MOV r8, r/m8 (R163): emitted; never executable, since the destination is a byte register. -/
def execMovR8Rm8 (dst : Reg8) (src : RegMem Reg8) (s : State) : Host.Outcome State Fault Refusal :=
  takeFromStream ⟨.MOV, dst.operand, src.operand Reg8.operand, 2 + src.dispSize⟩ s

/-- MOV r16, r/m16 (R164): `R[reg] <- R[rm]` when mod = 11; a memory source is a lookup failure. -/
def execMovR16Rm16 (dst : Reg16) (src : RegMem Reg16) (s : State) : Host.Outcome State Fault Refusal :=
  takeFromStream ⟨.MOV, dst.operand, src.operand Reg16.operand, 2 + src.dispSize⟩ s

/-- MOV r8, imm8 (R165): emitted; never executable, since the destination is a byte register. -/
def execMovR8Imm8 (dst : Reg8) (imm : Byte) (s : State) : Host.Outcome State Fault Refusal :=
  takeFromStream ⟨.MOV, dst.operand, imm8Operand imm, 2⟩ s

/-- MOV r16, imm16 (R166): `R[reg] <- iw`. -/
def execMovR16Imm16 (dst : Reg16) (imm : Word) (s : State) : Host.Outcome State Fault Refusal :=
  takeFromStream ⟨.MOV, dst.operand, imm16Operand imm, 3⟩ s

/-- MOV reg16, reg16 on the record port (R167). -/
def execRecMovReg (dst src : Reg16) (s : State) : Host.Outcome State Fault Refusal :=
  takeFromPort ⟨.MOV, dst.operand, src.operand, 0⟩ s

/-- MOV reg16, imm16 on the record port (R168). -/
def execRecMovImm (dst : Reg16) (imm : Word) (s : State) : Host.Outcome State Fault Refusal :=
  takeFromPort ⟨.MOV, dst.operand, imm16Operand imm, 0⟩ s

end Sys2Proof.Machine
end

