-- ==== Sys2Proof/Machine/SubCmp.lean ====
section
/-! DEFINITION. The meanings of SUB and CMP (spec 43_sub_cmp): record-port forms only (R200). -/

namespace Sys2Proof.Machine

/-- SUB reg16, reg16 (R202): R201 with b = R[j]. -/
def execRecSubReg (dst src : Reg16) (s : State) : Host.Outcome State Fault Refusal :=
  takeFromPort ⟨.SUB, dst.operand, src.operand, 0⟩ s

/-- SUB reg16, imm16 (R203): R201 with b = v mod 2^16. -/
def execRecSubImm (dst : Reg16) (imm : Word) (s : State) : Host.Outcome State Fault Refusal :=
  takeFromPort ⟨.SUB, dst.operand, imm16Operand imm, 0⟩ s

/-- CMP reg16, reg16 (R205): R204 with b = R[j]; no register is written. -/
def execRecCmpReg (dst src : Reg16) (s : State) : Host.Outcome State Fault Refusal :=
  takeFromPort ⟨.CMP, dst.operand, src.operand, 0⟩ s

/-- CMP reg16, imm16 (R206): R204 with b = v mod 2^16; no register is written. -/
def execRecCmpImm (dst : Reg16) (imm : Word) (s : State) : Host.Outcome State Fault Refusal :=
  takeFromPort ⟨.CMP, dst.operand, imm16Operand imm, 0⟩ s

end Sys2Proof.Machine
end

