-- ==== Sys2Proof/Machine/Dispatch.lean ====
section
/-! DEFINITION. One arm for each constructor of Instr. -/

namespace Sys2Proof.Machine

def exec (i : Instr) (s : State) : Host.Outcome State Fault Refusal :=
  match i with
  | .movRm8R8 dst src => Sys2Proof.Machine.execMovRm8R8 dst src s
  | .movRm16R16 dst src => Sys2Proof.Machine.execMovRm16R16 dst src s
  | .movR8Rm8 dst src => Sys2Proof.Machine.execMovR8Rm8 dst src s
  | .movR16Rm16 dst src => Sys2Proof.Machine.execMovR16Rm16 dst src s
  | .movR8Imm8 dst imm => Sys2Proof.Machine.execMovR8Imm8 dst imm s
  | .movR16Imm16 dst imm => Sys2Proof.Machine.execMovR16Imm16 dst imm s
  | .addRm8R8 dst src => Sys2Proof.Machine.execAddRm8R8 dst src s
  | .addRm16R16 dst src => Sys2Proof.Machine.execAddRm16R16 dst src s
  | .addR8Rm8 dst src => Sys2Proof.Machine.execAddR8Rm8 dst src s
  | .addR16Rm16 dst src => Sys2Proof.Machine.execAddR16Rm16 dst src s
  | .addRm8Imm8 dst imm => Sys2Proof.Machine.execAddRm8Imm8 dst imm s
  | .addRm16Imm16 dst imm => Sys2Proof.Machine.execAddRm16Imm16 dst imm s
  | .addAlImm8 imm => Sys2Proof.Machine.execAddAlImm8 imm s
  | .addAxImm16 imm => Sys2Proof.Machine.execAddAxImm16 imm s
  | .recMovReg dst src => Sys2Proof.Machine.execRecMovReg dst src s
  | .recMovImm dst imm => Sys2Proof.Machine.execRecMovImm dst imm s
  | .recAddReg dst src => Sys2Proof.Machine.execRecAddReg dst src s
  | .recAddImm dst imm => Sys2Proof.Machine.execRecAddImm dst imm s
  | .recSubReg dst src => Sys2Proof.Machine.execRecSubReg dst src s
  | .recSubImm dst imm => Sys2Proof.Machine.execRecSubImm dst imm s
  | .recCmpReg dst src => Sys2Proof.Machine.execRecCmpReg dst src s
  | .recCmpImm dst imm => Sys2Proof.Machine.execRecCmpImm dst imm s

end Sys2Proof.Machine
end

