-- ==== Sys2Proof/Machine/Fetch.lean ====
section
/-! DEFINITION. What the controller does with its input before an instruction is carried out (spec 44_controller R210
to R219): the loop condition, the decode, the classification failure and the truncation of the stream modes; the next
record of the record port. And the status codes (10_state R28). -/

namespace Sys2Proof.Machine

/-- What the controller's look at its input comes to: the step is settled without an instruction, or it takes one. -/
inductive Fetched
  | settled (t : State)
  | take (i : Instr)
deriving DecidableEq, Repr

/-- A classification failure (R214): the run ends under `strict`; under `permissive` one byte is skipped, nothing
emitted. -/
def State.onUnknown (s : State) : State :=
  match s.inputs.unknownOpcodePolicy with
  | .strict => s.raise .unknownOpcode s.pc
  | .permissive => s.advance 1

/-- The stream modes up to `Ok(rec)` (R212 to R215). -/
def fetchStream (s : State) : Fetched :=
  if s.inputs.stream.len - s.pc < Config.minLen then .settled s.finish
  else
    match decodeAt s.inputs.extCheck s.inputs.stream s.pc with
    | .unknown => .settled s.onUnknown
    | .truncated _ => .settled (s.raise .truncated s.pc)
    | .outOfBounds => .settled (s.raise .invariantViolation s.pc)
    | .ok i => .take i

/-- The next record (R219): an ill-formed `XREC` word or an index out of range, of a byte register too (DEDUCED, log entry
14), is an invariant violation; a record that
is none of the eight record-port instructions goes to the engine as it is (R142). -/
def fetchItem (s : State) : PortItem → Fetched
  | .packed x =>
    match decodeXrec x with
    | some i => .take i
    | none => .settled (s.raise .invariantViolation s.rpc)
  | .abstract rec =>
    if recordInRange rec then
      match rec.instr with
      | some i => .take i
      | none => .settled (s.executeRecord rec)
    else .settled (s.raise .invariantViolation s.rpc)

/-- Record mode up to the execution of a record (R219). -/
def fetchRecord (s : State) : Fetched :=
  match s.inputs.records[s.rpc]? with
  | none => .settled s.finish
  | some item => fetchItem s item

/-- The controller's look at its input. Once the status is terminal no state changes any more (R220; DEDUCED, log
entry 3). -/
def fetch (s : State) : Fetched :=
  if s.status ≠ .run then .settled s
  else
    match s.inputs.mode with
    | .disasm => fetchStream s
    | .decodeExec => fetchStream s
    | .recordExec => fetchRecord s

/-- The code of a status (R28). -/
def Status.code : Status → Nat
  | .run => 0
  | .done => 1
  | .stopTruncated => 2
  | .faultUnknownOpcode => 3
  | .faultExecLookup => 4
  | .faultInvariant => 5

/-- The items with `item` at index `k`, filled up before it with `mov ax, ax` where there are fewer. -/
def placeItem (items : List PortItem) (k : Nat) (item : PortItem) : List PortItem :=
  (items ++ List.replicate (k - items.length) (PortItem.packed 0)).take k ++ [item] ++ items.drop (k + 1)

/-- The host places bytes at the program counter, in a stream mode (DESIGN CHOICE, log entry 5). -/
def State.placeBytes (s : State) (bs : List Byte) : State :=
  { s with
    status := .run
    inputs := { s.inputs with
      stream := s.inputs.stream.load s.pc bs
      mode := match s.inputs.mode with
        | .disasm => .disasm
        | .decodeExec => .decodeExec
        | .recordExec => Config.defaultMode } }

/-- The host places an `XREC` word at the record counter, in record mode (DESIGN CHOICE, log entry 5). -/
def State.placeXrec (s : State) (x : BitVec 24) : State :=
  { s with
    status := .run
    inputs := { s.inputs with
      records := placeItem s.inputs.records s.rpc (.packed x)
      mode := .recordExec } }

end Sys2Proof.Machine
end

