-- ==== Sys2Proof/Machine/Step.lean ====
section
/-! DEFINITION. One step of the controller (spec 44_controller R210): one iteration of its loop. -/

namespace Sys2Proof.Machine

/-- One step (R210, R213, R219): what the controller's input settles by itself, or the instruction it takes. -/
def step (s : State) : Host.Outcome State Fault Refusal :=
  match fetch s with
  | .settled t => .next t
  | .take i => exec i s

/-- `s` with the word of a row of spec/opcode_table.json placed where `step` takes its next instruction: an `XREC` word
at the record counter, in record mode; bytes at the program counter, in a stream mode (DESIGN CHOICE, log entry 5). -/
def State.withFetchWord (s : State) (nbits w : Nat) : State :=
  if tableWordIsXrec nbits then s.placeXrec (BitVec.ofNat 24 w) else s.placeBytes (tableWordBytes nbits w)

end Sys2Proof.Machine
end

