-- ==== Sys2Proof/Machine/Render.lean ====
section
/-! DEFINITION. The canonical assembly text of a record (30_encoding R96 to R100). The renderer is not a unit of the
block and no step calls it; the spec keeps its rules because every decode example of the source is written in it (R3,
R96). -/

namespace Sys2Proof.Machine

/-- The byte row of the naming table (R79). The table has no name for an index beyond 7, which only a record of the record
port can name; the text is then `bh` (DESIGN CHOICE, log entry 15). -/
def byteName (index : Nat) : String :=
  match index with
  | 0 => "al"
  | 1 => "cl"
  | 2 => "dl"
  | 3 => "bl"
  | 4 => "ah"
  | 5 => "ch"
  | 6 => "dh"
  | _ => "bh"

/-- The word row of the naming table (R79). The table has no name for an index beyond 7, which only a record of the record
port can name; the text is then `di` (DESIGN CHOICE, log entry 15). -/
def wordName (index : Nat) : String :=
  match index with
  | 0 => "ax"
  | 1 => "cx"
  | 2 => "dx"
  | 3 => "bx"
  | 4 => "sp"
  | 5 => "bp"
  | 6 => "si"
  | _ => "di"

/-- The base expression `B` (R98). -/
def renderBase : Base → String
  | .bxSi => "bx + si"
  | .bxDi => "bx + di"
  | .bpSi => "bp + si"
  | .bpDi => "bp + di"
  | .si => "si"
  | .di => "di"
  | .bp => "bp"
  | .bx => "bx"

/-- A displacement after a base (R98): `+ n` for n at least 0, `- m` with m = -n otherwise. -/
def renderDisp (disp : Word) : String :=
  if disp.toInt < 0 then " - " ++ toString disp.toInt.natAbs else " + " ++ toString disp.toInt.natAbs

/-- A memory operand (R98), with the one elision of R99: base `bp` alone, mode 01, displacement exactly 0. R98 gives the
text of `Memory(b, none, n)` for n = 0 only; for another n, which only a record of the record port can hold, the text is
the same `[B]`, without n (DESIGN CHOICE, log entry 15). -/
def renderMemory (base : Base) (kind : DispKind) (disp : Word) : String :=
  match kind with
  | .none => "[" ++ renderBase base ++ "]"
  | .d8 =>
    if base = .bp ∧ disp = 0 then "[bp]" else "[" ++ renderBase base ++ renderDisp disp ++ "]"
  | .d16 => "[" ++ renderBase base ++ renderDisp disp ++ "]"

/-- An operand (R97, R98): register names, immediates in signed decimal, direct addresses in unsigned decimal. -/
def renderOperand : Operand → String
  | .register .byte index => byteName index
  | .register .word index => wordName index
  | .memory base kind disp => renderMemory base kind disp
  | .direct addr => "[" ++ toString addr.toNat ++ "]"
  | .immediate value _ => toString value.toInt

/-- The size keyword of an immediate-to-memory instruction (R100); none in any other case. -/
def sizeKeyword (dest src : Operand) : String :=
  match dest, src with
  | .memory _ _ _, .immediate _ .byte => "byte "
  | .memory _ _ _, .immediate _ .word => "word "
  | .direct _, .immediate _ .byte => "byte "
  | .direct _, .immediate _ .word => "word "
  | _, _ => ""

/-- The mnemonic in lower case (R96). -/
def renderMnemonic : Mnemonic → String
  | .MOV => "mov"
  | .ADD => "add"
  | .SUB => "sub"
  | .CMP => "cmp"

/-- One instruction: `mnemonic dest, src` (R96). -/
def render (rec : Record) : String :=
  renderMnemonic rec.mnemonic ++ " " ++ sizeKeyword rec.dest rec.src ++ renderOperand rec.dest ++ ", " ++
    renderOperand rec.src

end Sys2Proof.Machine
end

