-- ==== Sys2Proof/Safety.lean ====
section
/-! DEFINITION. The terms in which statements speak of runs: which statuses are terminal, which ends are clean
(44_controller R220), which instructions are executable (40_execute_engine R148), which register an instruction may
write, and the invariants of the state (10_state R24, R25, R28, R32). -/

namespace Sys2Proof

/-- A stream mode, as against the record mode (R211). -/
def Mode.isStream : Mode → Bool
  | .disasm => true
  | .decodeExec => true
  | .recordExec => false

/-- The executable instructions (R148): both operands are word registers or immediates. -/
def Instr.executable : Instr → Bool
  | .movRm8R8 _ _ => false
  | .movRm16R16 (.reg _) _ => true
  | .movRm16R16 (.mem _ _ _) _ => false
  | .movRm16R16 (.direct _) _ => false
  | .movR8Rm8 _ _ => false
  | .movR16Rm16 _ (.reg _) => true
  | .movR16Rm16 _ (.mem _ _ _) => false
  | .movR16Rm16 _ (.direct _) => false
  | .movR8Imm8 _ _ => false
  | .movR16Imm16 _ _ => true
  | .addRm8R8 _ _ => false
  | .addRm16R16 (.reg _) _ => true
  | .addRm16R16 (.mem _ _ _) _ => false
  | .addRm16R16 (.direct _) _ => false
  | .addR8Rm8 _ _ => false
  | .addR16Rm16 _ (.reg _) => true
  | .addR16Rm16 _ (.mem _ _ _) => false
  | .addR16Rm16 _ (.direct _) => false
  | .addRm8Imm8 _ _ => false
  | .addRm16Imm16 (.reg _) _ => true
  | .addRm16Imm16 (.mem _ _ _) _ => false
  | .addRm16Imm16 (.direct _) _ => false
  | .addAlImm8 _ => false
  | .addAxImm16 _ => true
  | .recMovReg _ _ => true
  | .recMovImm _ _ => true
  | .recAddReg _ _ => true
  | .recAddImm _ _ => true
  | .recSubReg _ _ => true
  | .recSubImm _ _ => true
  | .recCmpReg _ _ => true
  | .recCmpImm _ _ => true

/-- The one general register an instruction may write: its destination, when that is a word register and the operation
writes it (R23, R147). -/
def Instr.writes : Instr → Option Reg16
  | .movRm8R8 _ _ => none
  | .movRm16R16 (.reg d) _ => some d
  | .movRm16R16 (.mem _ _ _) _ => none
  | .movRm16R16 (.direct _) _ => none
  | .movR8Rm8 _ _ => none
  | .movR16Rm16 d (.reg _) => some d
  | .movR16Rm16 _ (.mem _ _ _) => none
  | .movR16Rm16 _ (.direct _) => none
  | .movR8Imm8 _ _ => none
  | .movR16Imm16 d _ => some d
  | .addRm8R8 _ _ => none
  | .addRm16R16 (.reg d) _ => some d
  | .addRm16R16 (.mem _ _ _) _ => none
  | .addRm16R16 (.direct _) _ => none
  | .addR8Rm8 _ _ => none
  | .addR16Rm16 d (.reg _) => some d
  | .addR16Rm16 _ (.mem _ _ _) => none
  | .addR16Rm16 _ (.direct _) => none
  | .addRm8Imm8 _ _ => none
  | .addRm16Imm16 (.reg d) _ => some d
  | .addRm16Imm16 (.mem _ _ _) _ => none
  | .addRm16Imm16 (.direct _) _ => none
  | .addAlImm8 _ => none
  | .addAxImm16 _ => some .ax
  | .recMovReg d _ => some d
  | .recMovImm d _ => some d
  | .recAddReg d _ => some d
  | .recAddImm d _ => some d
  | .recSubReg d _ => some d
  | .recSubImm d _ => some d
  | .recCmpReg _ _ => none
  | .recCmpImm _ _ => none

end Sys2Proof

namespace Sys2Proof.Machine

/-- A terminal status (R28, R220). -/
def Status.terminal : Status → Bool
  | .run => false
  | .done => true
  | .stopTruncated => true
  | .faultUnknownOpcode => true
  | .faultExecLookup => true
  | .faultInvariant => true

/-- A status that a condition set (R240): codes 2 to 5. -/
def Status.raised : Status → Bool
  | .run => false
  | .done => false
  | .stopTruncated => true
  | .faultUnknownOpcode => true
  | .faultExecLookup => true
  | .faultInvariant => true

/-- A clean end of a run with nothing rejected on the way (R220): "the run ends in `DONE`" (or in `STOP_TRUNCATED`) "and
`exec_rejected = 0`". -/
def State.endedCleanly (s : State) : Bool :=
  (s.status == .done || s.status == .stopTruncated) && !s.execRejected

/-! ### Invariants -/

/-- The counters stay in range (R24, R25). -/
structure State.InRange (s : State) : Prop where
  pcLe : s.pc ≤ s.inputs.stream.len
  rpcLe : s.rpc ≤ s.inputs.records.length

/-- What the mode says about the state (R24, R25, R32, R211): the record mode uses neither `pc` nor `out`, the stream
modes do not use `rpc`, and the disassembly mode rejects nothing. -/
structure State.FitsMode (s : State) : Prop where
  recordUnused : s.inputs.mode = .recordExec → s.pc = 0 ∧ s.out = []
  streamUnused : s.inputs.mode ≠ .recordExec → s.rpc = 0
  disasmAccepts : s.inputs.mode = .disasm → s.execRejected = false

/-- What the status says (R28, R240): a condition recorded the position at which the controller still stands, it arose
in a mode and under a policy that lets it arise, and without a condition or a rejection nothing is recorded. -/
structure State.StatusHolds (s : State) : Prop where
  position : s.status.raised = true →
    s.faultInfo = some (if s.inputs.mode = .recordExec then s.rpc else s.pc)
  nothing : s.status.raised = false → s.execRejected = false → s.faultInfo = none
  rejected : s.execRejected = true → s.faultInfo.isSome = true ∧ s.inputs.execFaultPolicy = .rejectAndContinue
  truncated : s.status = .stopTruncated → s.inputs.mode ≠ .recordExec
  unknownOpcode : s.status = .faultUnknownOpcode →
    s.inputs.mode ≠ .recordExec ∧ s.inputs.unknownOpcodePolicy = .strict
  execLookup : s.status = .faultExecLookup → s.inputs.mode ≠ .disasm ∧ s.inputs.execFaultPolicy = .halt
  invariantViolation : s.status = .faultInvariant → s.inputs.mode = .recordExec

/-- The invariant of the controller. -/
structure State.Inv (s : State) : Prop where
  inRange : s.InRange
  fitsMode : s.FitsMode
  statusHolds : s.StatusHolds

/-- The trace holds what was decoded (R32, R216): every entry is the record that `decode` gives at its offset, which
lies wholly inside the stream; entries do not overlap and stand in stream order; and unless the last one was refused
under the halt policy, all of them lie before `pc`. -/
structure State.TraceFaithful (s : State) : Prop where
  decoded : ∀ e ∈ s.out, ∃ i, decodeAt s.inputs.extCheck s.inputs.stream e.1 = .ok i ∧ i.record = e.2
  inside : ∀ e ∈ s.out, e.1 + e.2.length ≤ s.inputs.stream.len
  ordered : s.out.Pairwise (fun e f => e.1 + e.2.length ≤ f.1)
  before : s.status ≠ .faultExecLookup → ∀ e ∈ s.out, e.1 + e.2.length ≤ s.pc

/-- The entries of a trace follow one another without a gap, from offset `a` to offset `b`. -/
def tiles : Nat → List (Nat × Record) → Nat → Prop
  | a, [], b => a = b
  | a, e :: rest, b => e.1 = a ∧ tiles (a + e.2.length) rest b

/-- Two states that differ in the registers and the flags only. -/
def State.agreeButData (s t : State) : Prop := t = { s with regs := t.regs, flags := t.flags }

end Sys2Proof.Machine
end

