-- ==== Sys2Proof/Certificates/Slice0/Obligations.lean ====
section
/-! DEFINITION. The statements about the model, for the provers: each formalises a rule of the spec, or is derived from
the sections its entry in OBLIGATIONS.json names. Before them, a few functions that say in numbers what the spec says
in numbers, so that a statement does not quote the model's own bit operations. A statement about every step takes in
the steps from a terminal status, which the model lets answer the same state (DEDUCED, log entry 3). -/

namespace Sys2Proof.Spec

/-- `(a + b) mod 2^16` (40_execute_engine R143). -/
def add (a b : Word) : Word := BitVec.ofNat 16 ((a.toNat + b.toNat) % 2 ^ 16)

/-- `(a - b) mod 2^16` (R143). -/
def sub (a b : Word) : Word := BitVec.ofInt 16 ((a.toInt - b.toInt) % 2 ^ 16)

/-- `ZF <- 1` if r is 0 else 0, `SF <- r[7]` (R144). -/
def flags (r : Word) : Machine.Flags := ⟨decide (r.toNat = 0), decide (r.toNat / 2 ^ 7 % 2 = 1)⟩

/-- `Register(word, i)` of a general register. -/
def reg (r : Reg16) : Operand := .register .word r.index.toNat

/-- Bits `hi` down to `lo` of a number, as an unsigned number (00_scope R6). -/
def slice (v hi lo : Nat) : Nat := v / 2 ^ lo % 2 ^ (hi - lo + 1)

/-- `reg_operand(w, i)` (30_encoding R79). -/
def regOperand (w : Bool) (i : Nat) : Operand := .register (if w then .word else .byte) i

/-- The base table (R81). -/
def base (rm : Nat) : Base := [Base.bxSi, .bxDi, .bpSi, .bpDi, .si, .di, .bp, .bx].getD rm .bx

/-- `disp_size(mod, rm)` (R86). -/
def dispSize (mod rm : Nat) : Nat :=
  if mod = 0 ∧ rm = 6 then 2 else if mod = 1 then 1 else if mod = 2 then 2 else 0

/-- `decode_rm(pc, w, mod, rm)` of R92, as an operand of a record. -/
def decodeRm (st : Machine.Stream) (pc : Nat) (w : Bool) (mod rm : Nat) : Option Operand :=
  if mod = 3 then some (regOperand w rm)
  else if mod = 0 ∧ rm = 6 then (st.memRead2 (pc + 2)).map fun a => .direct a
  else if mod = 0 then some (.memory (base rm) .none 0)
  else if mod = 1 then (st.memRead1 (pc + 2)).map fun d => .memory (base rm) .d8 (BitVec.ofInt 16 d.toInt)
  else (st.memRead2 (pc + 2)).map fun d => .memory (base rm) .d16 d

/-- `decode_imm(a, w)` (R87). -/
def decodeImm (st : Machine.Stream) (a : Nat) (w : Bool) : Option Operand :=
  if w then (st.memRead2 a).map fun v => .immediate v .word
  else (st.memRead1 a).map fun v => .immediate (BitVec.ofInt 16 v.toInt) .byte

/-- The record R92 builds for a classified instruction of length `len`, from its first two bytes as numbers. -/
def decodeRecord (f : Family) (st : Machine.Stream) (pc b0 b1 len : Nat) : Option Record :=
  let d := b0 / 2 % 2 = 1
  let w := decide (b0 % 2 = 1)
  let mod := slice b1 7 6
  let reg := slice b1 5 3
  let rm := slice b1 2 0
  match f with
  | .movRmR => (decodeRm st pc w mod rm).map fun o =>
      if d then ⟨.MOV, regOperand w reg, o, len⟩ else ⟨.MOV, o, regOperand w reg, len⟩
  | .addRmR => (decodeRm st pc w mod rm).map fun o =>
      if d then ⟨.ADD, regOperand w reg, o, len⟩ else ⟨.ADD, o, regOperand w reg, len⟩
  | .movRI =>
    let w' := decide (b0 / 8 % 2 = 1)
    (decodeImm st (pc + 1) w').map fun o => ⟨.MOV, regOperand w' (b0 % 8), o, len⟩
  | .addRmI => (decodeRm st pc w mod rm).bind fun o =>
      (decodeImm st (pc + 2 + dispSize mod rm) w).map fun v => ⟨.ADD, o, v, len⟩
  | .addAI => (decodeImm st (pc + 1) w).map fun v => ⟨.ADD, regOperand w 0, v, len⟩

/-- The mnemonic of an `XREC` word's `op` field (R95). -/
def xrecMnemonic (op : Nat) : Mnemonic := [Mnemonic.MOV, .ADD, .SUB, .CMP].getD op .CMP

/-- The next state where the record at `rpc` has executed with these registers and flags (44_controller R219). -/
def recordDone (s : Machine.State) (regs : Machine.RegFile) (flags : Machine.Flags) :
    Host.Outcome Machine.State Machine.Fault Machine.Refusal :=
  .next { s with regs := regs, flags := flags, rpc := s.rpc + 1 }

/-- The next state where the record at `rpc` is refused under `halt` (R217, R219); `fault_info` is written also after an
earlier rejection (DEDUCED, log entry 7). -/
def recordHalted (s : Machine.State) : Host.Outcome Machine.State Machine.Fault Machine.Refusal :=
  .next { s with status := .faultExecLookup, faultInfo := some s.rpc }

/-- The next state where the record at `rpc` is refused under `reject_and_continue` (R217, R219). -/
def recordRejected (s : Machine.State) : Host.Outcome Machine.State Machine.Fault Machine.Refusal :=
  .next { s with
    execRejected := true, faultInfo := if s.execRejected then s.faultInfo else some s.rpc, rpc := s.rpc + 1 }

/-- The record port delivers `item` as the next record, and the controller runs in record mode. -/
def atRecord (s : Machine.State) (item : PortItem) : Prop :=
  s.status = .run ∧ s.inputs.mode = .recordExec ∧ s.inputs.records[s.rpc]? = some item

/-- The controller runs in `DECODE_EXEC`. -/
def executing (s : Machine.State) : Prop := s.status = .run ∧ s.inputs.mode = .decodeExec

/-- The next state where a stream instruction has been emitted and executed (R213). -/
def streamDone (s : Machine.State) (rec : Record) (regs : Machine.RegFile) (flags : Machine.Flags) :
    Host.Outcome Machine.State Machine.Fault Machine.Refusal :=
  .next { s with regs := regs, flags := flags, out := s.out ++ [(s.pc, rec)], pc := s.pc + rec.length }

end Sys2Proof.Spec

open Sys2Proof Sys2Proof.Machine

/-! ### Reset and registers -/

/-- 10_state R35: the state after reset; the flags' value is the parameter `FLAGS_RESET`, (0, 0) by default. Only the
registers' zeros are the source's; the rest is the spec's own decision (D8, D9, D10), and the mode of `State.reset` is
the model's choice (log entry 2). -/
def Obligations.ResetValues : Prop :=
  (∀ (fr : Bool × Bool) (inp : Inputs), let s := State.resetWith fr inp
    (∀ r, s.regs.get r = 0x0000#16) ∧ s.flags.zf = fr.1 ∧ s.flags.sf = fr.2 ∧ s.pc = 0 ∧ s.rpc = 0 ∧ s.status = .run ∧
      s.faultInfo = none ∧ s.execRejected = false ∧ s.out = [] ∧ s.inputs = inp) ∧
  Config.flagsReset = (false, false) ∧ State.reset = State.resetWith Config.flagsReset Inputs.default

/-- 40_execute_engine R141: which operands resolve, and to what. -/
def Obligations.OperandResolution : Prop :=
  ∀ op : Operand,
    (∀ i, destIndex op = some i ↔ op = .register .word i.index.toNat) ∧
    (∀ rf v, srcValue rf op = some v ↔
      (∃ j : Reg16, op = .register .word j.index.toNat ∧ v = rf.get j) ∨ ∃ w, op = .immediate v w)

/-- R143, R144: what the engine computes for each mnemonic from the old destination value and the source value, both
read before the write (the reduction modulo 2^16 is the spec's own decision D7); and a record that does not execute
leaves the flags alone. -/
def Obligations.EngineComputesAluAndFlags : Prop :=
  (∀ (rf : RegFile) (fl : Flags) (dest src : Operand) (len : Nat) (i : Reg16) (b : Word),
    destIndex dest = some i → srcValue rf src = some b →
      execute ⟨.MOV, dest, src, len⟩ rf fl = some (rf.set i b, fl) ∧
      execute ⟨.ADD, dest, src, len⟩ rf fl =
        some (rf.set i (Spec.add (rf.get i) b), Spec.flags (Spec.add (rf.get i) b)) ∧
      execute ⟨.SUB, dest, src, len⟩ rf fl =
        some (rf.set i (Spec.sub (rf.get i) b), Spec.flags (Spec.sub (rf.get i) b)) ∧
      execute ⟨.CMP, dest, src, len⟩ rf fl = some (rf, Spec.flags (Spec.sub (rf.get i) b))) ∧
  (∀ (s : State) (rec : Record), execute rec s.regs s.flags = none →
    (s.executeRecord rec).flags = s.flags ∧ (s.executeAndAdvance rec).flags = s.flags)

/-- R142: the records the engine refuses are exactly those that are not well formed (10_state R31): the destination is
not a word register of the file, or the source is neither one nor an immediate; whatever the registers hold (the
spec's own decision D12). -/
def Obligations.LookupFailureExactly : Prop :=
  ∀ (rec : Record) (rf : RegFile) (fl : Flags), execute rec rf fl = none ↔ rec.wellFormed = false

/-- R148: the executable instructions are the word forms whose operands are registers or immediates. -/
def Obligations.ExecutableSubset : Prop :=
  ∀ (i : Instr) (rf : RegFile) (fl : Flags), (execute i.record rf fl).isSome = i.executable

/-! ### Results of the instructions: each exec answers a next state -/

/-- 41_mov R160 for the executable stream forms (R162, R164, R166): exec completes in `DECODE_EXEC` with exactly this
state. -/
def Obligations.MovStreamCompletes : Prop :=
  ∀ s : State, Spec.executing s →
    (∀ d r : Reg16, exec (.movRm16R16 (.reg d) r) s =
      Spec.streamDone s ⟨.MOV, Spec.reg d, Spec.reg r, 2⟩ (s.regs.set d (s.regs.get r)) s.flags) ∧
    (∀ d r : Reg16, exec (.movR16Rm16 d (.reg r)) s =
      Spec.streamDone s ⟨.MOV, Spec.reg d, Spec.reg r, 2⟩ (s.regs.set d (s.regs.get r)) s.flags) ∧
    (∀ (d : Reg16) (v : Word), exec (.movR16Imm16 d v) s =
      Spec.streamDone s ⟨.MOV, Spec.reg d, .immediate v .word, 3⟩ (s.regs.set d v) s.flags)

/-- 42_add R180 for the executable stream forms (R182, R184, R186, R188): exec completes in `DECODE_EXEC` with exactly
this state. The sum is reduced modulo 2^16 as R143 says, the spec's own decision D7. -/
def Obligations.AddStreamCompletes : Prop :=
  ∀ s : State, Spec.executing s →
    (∀ d r : Reg16, exec (.addRm16R16 (.reg d) r) s =
      Spec.streamDone s ⟨.ADD, Spec.reg d, Spec.reg r, 2⟩ (s.regs.set d (Spec.add (s.regs.get d) (s.regs.get r)))
        (Spec.flags (Spec.add (s.regs.get d) (s.regs.get r)))) ∧
    (∀ d r : Reg16, exec (.addR16Rm16 d (.reg r)) s =
      Spec.streamDone s ⟨.ADD, Spec.reg d, Spec.reg r, 2⟩ (s.regs.set d (Spec.add (s.regs.get d) (s.regs.get r)))
        (Spec.flags (Spec.add (s.regs.get d) (s.regs.get r)))) ∧
    (∀ (d : Reg16) (v : Word), exec (.addRm16Imm16 (.reg d) v) s =
      Spec.streamDone s ⟨.ADD, Spec.reg d, .immediate v .word, 4⟩ (s.regs.set d (Spec.add (s.regs.get d) v))
        (Spec.flags (Spec.add (s.regs.get d) v))) ∧
    (∀ v : Word, exec (.addAxImm16 v) s =
      Spec.streamDone s ⟨.ADD, Spec.reg .ax, .immediate v .word, 3⟩ (s.regs.set .ax (Spec.add (s.regs.get .ax) v))
        (Spec.flags (Spec.add (s.regs.get .ax) v)))

/-- 44_controller R211, R216, R218 for all fourteen stream forms (movRm8R8, movRm16R16, movR8Rm8, movR16Rm16, movR8Imm8,
movR16Imm16, addRm8R8, addRm16R16, addR8Rm8, addR16Rm16, addRm8Imm8, addRm16Imm16, addAlImm8, addAxImm16): in `DISASM`
exec completes; the record is emitted at `pc`, `pc` moves past it, and nothing else changes. -/
def Obligations.DisasmCompletes : Prop :=
  ∀ (i : Instr) (s : State), i.onRecordPort = false → s.status = .run → s.inputs.mode = .disasm →
    exec i s = .next { s with out := s.out ++ [(s.pc, i.record)], pc := s.pc + i.length }

/-- R142, R148, R216, R217: in `DECODE_EXEC` every stream form that is not executable (every byte form, every form
with a memory operand) is emitted and then refused, with no register and no flag written: under `halt` the run ends at
it, under `reject_and_continue` it is counted once and passed over (the spec's own decisions D6, D12, D18). That
`halt` writes `fault_info` also in a state with an earlier rejection is log entry 7 (DEDUCED). -/
def Obligations.StreamFormsRefused : Prop :=
  ∀ (i : Instr) (s : State), i.onRecordPort = false → i.executable = false → Spec.executing s →
    (s.inputs.execFaultPolicy = .halt →
      exec i s = .next { s with
        out := s.out ++ [(s.pc, i.record)], status := .faultExecLookup, faultInfo := some s.pc }) ∧
    (s.inputs.execFaultPolicy = .rejectAndContinue →
      exec i s = .next { s with
        out := s.out ++ [(s.pc, i.record)], execRejected := true,
        faultInfo := if s.execRejected then s.faultInfo else some s.pc, pc := s.pc + i.length })

/-- 41_mov R167, R168: MOV on the record port. As an `XREC` word (the spec's own packing, D13) or as an abstract
record, the next record executes and completes with exactly this state: the destination holds the source value, the
flags are as before. The text's signed decimal immediate is the spec's own decision D14. -/
def Obligations.MovRecordCompletes : Prop :=
  ∀ s : State,
    (∀ d r : Reg16,
      (s.status = .run → s.inputs.mode = .recordExec →
        exec (.recMovReg d r) s = Spec.recordDone s (s.regs.set d (s.regs.get r)) s.flags) ∧
      (Spec.atRecord s (.packed (0b00#2 ++ 0b0#1 ++ 0b00#2 ++ d.index ++ 0#13 ++ r.index)) →
        step s = Spec.recordDone s (s.regs.set d (s.regs.get r)) s.flags) ∧
      ∀ len, (Spec.atRecord s (.abstract ⟨.MOV, Spec.reg d, Spec.reg r, len⟩) →
          step s = Spec.recordDone s (s.regs.set d (s.regs.get r)) s.flags) ∧
        render ⟨.MOV, Spec.reg d, Spec.reg r, len⟩ =
          "mov " ++ wordName d.index.toNat ++ ", " ++ wordName r.index.toNat) ∧
    (∀ (d : Reg16) (v : Word),
      (s.status = .run → s.inputs.mode = .recordExec →
        exec (.recMovImm d v) s = Spec.recordDone s (s.regs.set d v) s.flags) ∧
      (Spec.atRecord s (.packed (0b00#2 ++ 0b1#1 ++ 0b00#2 ++ d.index ++ v)) →
        step s = Spec.recordDone s (s.regs.set d v) s.flags) ∧
      ∀ len w, (Spec.atRecord s (.abstract ⟨.MOV, Spec.reg d, .immediate v w, len⟩) →
          step s = Spec.recordDone s (s.regs.set d v) s.flags) ∧
        render ⟨.MOV, Spec.reg d, .immediate v w, len⟩ =
          "mov " ++ wordName d.index.toNat ++ ", " ++ toString v.toInt)

/-- 42_add R189, R190: ADD on the record port, as an `XREC` word (the spec's own packing, D13) or as an abstract
record. The sum is reduced modulo 2^16 as R143 says, the spec's own decision D7, and the text's signed decimal
immediate is its decision D14. -/
def Obligations.AddRecordCompletes : Prop :=
  ∀ s : State,
    (∀ d r : Reg16, let x := Spec.add (s.regs.get d) (s.regs.get r)
      (s.status = .run → s.inputs.mode = .recordExec →
        exec (.recAddReg d r) s = Spec.recordDone s (s.regs.set d x) (Spec.flags x)) ∧
      (Spec.atRecord s (.packed (0b01#2 ++ 0b0#1 ++ 0b00#2 ++ d.index ++ 0#13 ++ r.index)) →
        step s = Spec.recordDone s (s.regs.set d x) (Spec.flags x)) ∧
      ∀ len, (Spec.atRecord s (.abstract ⟨.ADD, Spec.reg d, Spec.reg r, len⟩) →
          step s = Spec.recordDone s (s.regs.set d x) (Spec.flags x)) ∧
        render ⟨.ADD, Spec.reg d, Spec.reg r, len⟩ =
          "add " ++ wordName d.index.toNat ++ ", " ++ wordName r.index.toNat) ∧
    (∀ (d : Reg16) (v : Word), let x := Spec.add (s.regs.get d) v
      (s.status = .run → s.inputs.mode = .recordExec →
        exec (.recAddImm d v) s = Spec.recordDone s (s.regs.set d x) (Spec.flags x)) ∧
      (Spec.atRecord s (.packed (0b01#2 ++ 0b1#1 ++ 0b00#2 ++ d.index ++ v)) →
        step s = Spec.recordDone s (s.regs.set d x) (Spec.flags x)) ∧
      ∀ len w, (Spec.atRecord s (.abstract ⟨.ADD, Spec.reg d, .immediate v w, len⟩) →
          step s = Spec.recordDone s (s.regs.set d x) (Spec.flags x)) ∧
        render ⟨.ADD, Spec.reg d, .immediate v w, len⟩ =
          "add " ++ wordName d.index.toNat ++ ", " ++ toString v.toInt)

/-- 43_sub_cmp R202, R203: SUB on the record port, as an `XREC` word (the spec's own packing, D13) or as an abstract
record; a SUB record with any other operand is refused. The difference is reduced modulo 2^16 as R143 says, the spec's
own decision D7; that a byte register or memory operand is refused is D12, and what a refusal does under `halt` and
under `reject_and_continue` is R217 and R219, decision D6; the text's signed decimal immediate is D14. That `halt`
writes `fault_info` also in a state with an earlier rejection is log entry 7 (DEDUCED). -/
def Obligations.SubRecordCompletes : Prop :=
  ∀ s : State,
    (∀ d r : Reg16, let x := Spec.sub (s.regs.get d) (s.regs.get r)
      (s.status = .run → s.inputs.mode = .recordExec →
        exec (.recSubReg d r) s = Spec.recordDone s (s.regs.set d x) (Spec.flags x)) ∧
      (Spec.atRecord s (.packed (0b10#2 ++ 0b0#1 ++ 0b00#2 ++ d.index ++ 0#13 ++ r.index)) →
        step s = Spec.recordDone s (s.regs.set d x) (Spec.flags x)) ∧
      ∀ len, (Spec.atRecord s (.abstract ⟨.SUB, Spec.reg d, Spec.reg r, len⟩) →
          step s = Spec.recordDone s (s.regs.set d x) (Spec.flags x)) ∧
        render ⟨.SUB, Spec.reg d, Spec.reg r, len⟩ =
          "sub " ++ wordName d.index.toNat ++ ", " ++ wordName r.index.toNat) ∧
    (∀ (d : Reg16) (v : Word), let x := Spec.sub (s.regs.get d) v
      (s.status = .run → s.inputs.mode = .recordExec →
        exec (.recSubImm d v) s = Spec.recordDone s (s.regs.set d x) (Spec.flags x)) ∧
      (Spec.atRecord s (.packed (0b10#2 ++ 0b1#1 ++ 0b00#2 ++ d.index ++ v)) →
        step s = Spec.recordDone s (s.regs.set d x) (Spec.flags x)) ∧
      ∀ len w, (Spec.atRecord s (.abstract ⟨.SUB, Spec.reg d, .immediate v w, len⟩) →
          step s = Spec.recordDone s (s.regs.set d x) (Spec.flags x)) ∧
        render ⟨.SUB, Spec.reg d, .immediate v w, len⟩ =
          "sub " ++ wordName d.index.toNat ++ ", " ++ toString v.toInt) ∧
    (∀ dest src len, recordInRange ⟨.SUB, dest, src, len⟩ = true → Record.wellFormed ⟨.SUB, dest, src, len⟩ = false →
      Spec.atRecord s (.abstract ⟨.SUB, dest, src, len⟩) →
        step s = match s.inputs.execFaultPolicy with
          | .halt => Spec.recordHalted s
          | .rejectAndContinue => Spec.recordRejected s)

/-- 43_sub_cmp R205, R206: CMP on the record port, as an `XREC` word (the spec's own packing, D13) or as an abstract
record: the flags of the subtraction, and no register written; a CMP record with any other operand is refused. The
difference is reduced modulo 2^16 as R143 says, the spec's own decision D7; that a byte register or memory operand is
refused is D12, and what a refusal does under `halt` and under `reject_and_continue` is R217 and R219, decision D6;
the text's signed decimal immediate is D14. That `halt` writes `fault_info` also in a state with an earlier rejection
is log entry 7 (DEDUCED). -/
def Obligations.CmpRecordCompletes : Prop :=
  ∀ s : State,
    (∀ d r : Reg16, let x := Spec.sub (s.regs.get d) (s.regs.get r)
      (s.status = .run → s.inputs.mode = .recordExec →
        exec (.recCmpReg d r) s = Spec.recordDone s s.regs (Spec.flags x)) ∧
      (Spec.atRecord s (.packed (0b11#2 ++ 0b0#1 ++ 0b00#2 ++ d.index ++ 0#13 ++ r.index)) →
        step s = Spec.recordDone s s.regs (Spec.flags x)) ∧
      ∀ len, (Spec.atRecord s (.abstract ⟨.CMP, Spec.reg d, Spec.reg r, len⟩) →
          step s = Spec.recordDone s s.regs (Spec.flags x)) ∧
        render ⟨.CMP, Spec.reg d, Spec.reg r, len⟩ =
          "cmp " ++ wordName d.index.toNat ++ ", " ++ wordName r.index.toNat) ∧
    (∀ (d : Reg16) (v : Word), let x := Spec.sub (s.regs.get d) v
      (s.status = .run → s.inputs.mode = .recordExec →
        exec (.recCmpImm d v) s = Spec.recordDone s s.regs (Spec.flags x)) ∧
      (Spec.atRecord s (.packed (0b11#2 ++ 0b1#1 ++ 0b00#2 ++ d.index ++ v)) →
        step s = Spec.recordDone s s.regs (Spec.flags x)) ∧
      ∀ len w, (Spec.atRecord s (.abstract ⟨.CMP, Spec.reg d, .immediate v w, len⟩) →
          step s = Spec.recordDone s s.regs (Spec.flags x)) ∧
        render ⟨.CMP, Spec.reg d, .immediate v w, len⟩ =
          "cmp " ++ wordName d.index.toNat ++ ", " ++ toString v.toInt) ∧
    (∀ dest src len, recordInRange ⟨.CMP, dest, src, len⟩ = true → Record.wellFormed ⟨.CMP, dest, src, len⟩ = false →
      Spec.atRecord s (.abstract ⟨.CMP, dest, src, len⟩) →
        step s = match s.inputs.execFaultPolicy with
          | .halt => Spec.recordHalted s
          | .rejectAndContinue => Spec.recordRejected s)

/-- R147, R23, R26, R57: the frame of all 22 instructions. Whenever exec answers a next state: the inputs, and every
byte of the stream, are as before; every register but the one the instruction writes is as before (none for CMP and
for a form that is not executable); the flags are as before for MOV and for a form that is not executable; a
record-port form leaves `pc` and `out` alone, a stream form `rpc`; and an executable form leaves `status`,
`fault_info` and `exec_rejected` alone. -/
def Obligations.InstructionFrame : Prop :=
  ∀ (i : Instr) (s t : State), exec i s = .next t →
    t.inputs = s.inputs ∧
    (∀ a, t.inputs.stream.memRead1 a = s.inputs.stream.memRead1 a) ∧
    (∀ r, i.writes ≠ some r → t.regs.get r = s.regs.get r) ∧
    (i.record.mnemonic = .MOV ∨ i.executable = false → t.flags = s.flags) ∧
    (i.onRecordPort = true → t.pc = s.pc ∧ t.out = s.out) ∧
    (i.onRecordPort = false → t.rpc = s.rpc) ∧
    (i.executable = true → t.status = s.status ∧ t.faultInfo = s.faultInfo ∧ t.execRejected = s.execRejected)

/-! ### Encoding -/

/-- Decode and encode agree on every well-formed instruction: a stream form at any offset of any stream, with any bytes
around it and either value of `EXT_CHECK`; a record-port form as its `XREC` word. -/
def Obligations.DecodeEncodeRoundTrip : Prop :=
  ∀ i : Instr, i.wellFormed = true →
    match encode i with
    | .bytes bs => ∀ (ext : Bool) (before after : List Byte),
        decodeAt ext (Stream.ofBytes (before ++ bs ++ after)) before.length = .ok i
    | .xrec x => decodeXrec x = some i

/-- With `EXT_CHECK` on, the bytes an instruction decodes from are the bytes it encodes to, all of them and no more. -/
def Obligations.EncodeDecodeRoundTrip : Prop :=
  ∀ (st : Stream) (pc : Nat) (i : Instr), decodeAt true st pc = .ok i →
    (encodeBytes i).length = i.length ∧ ∀ k, k < i.length → st.memRead1 (pc + k) = (encodeBytes i)[k]?

/-- 30_encoding R95: what an `XREC` word unpacks to, in the numbers of its fields, which words are ill-formed, and that
a word is the packing of what it unpacks to. The packing is the spec's own (D13). -/
def Obligations.XrecUnpacking : Prop :=
  ∀ x : BitVec 24,
    let n := x.toNat
    let v := Spec.slice n 15 0
    (decodeXrec x = none ↔ Spec.slice n 20 19 ≠ 0 ∨ (Spec.slice n 21 21 = 0 ∧ Spec.slice v 15 3 ≠ 0)) ∧
    ∀ i, decodeXrec x = some i →
      encode i = .xrec x ∧
      i.record = ⟨Spec.xrecMnemonic (Spec.slice n 23 22), .register .word (Spec.slice n 18 16),
        if Spec.slice n 21 21 = 1 then .immediate (BitVec.ofNat 16 v) .word else .register .word (Spec.slice v 2 0), 0⟩

/-- R75: the classifier is one dispatch over five masks and patterns, and a byte matches at most one of them. -/
def Obligations.ClassifierIsOneDispatch : Prop :=
  ∀ b0 : Byte,
    (classify1 b0 =
      if b0 &&& 0xFC = 0x88 then some .movRmR
      else if b0 &&& 0xF0 = 0xB0 then some .movRI
      else if b0 &&& 0xFC = 0x00 then some .addRmR
      else if b0 &&& 0xFE = 0x80 then some .addRmI
      else if b0 &&& 0xFE = 0x04 then some .addAI
      else none) ∧
    ([(0xFC, 0x88), (0xF0, 0xB0), (0xFC, 0x00), (0xFE, 0x80), (0xFE, 0x04)].filter
      (fun (row : Byte × Byte) => b0 &&& row.1 == row.2)).length ≤ 1

/-- R76, R77: the complete map of the first byte, with the extension field of the second byte where it counts (the
check, its default and the pattern of `04` and `05` are the spec's own decisions D4 and D3). -/
def Obligations.FirstByteMap : Prop :=
  ∀ (ext : Bool) (b0 b1 : Byte), let n := b0.toNat
    classify ext b0 b1 =
      if n ≤ 0x03 then some .addRmR
      else if n ≤ 0x05 then some .addAI
      else if n < 0x80 then none
      else if n ≤ 0x81 then (if ext = true ∧ Spec.slice b1.toNat 5 3 ≠ 0 then none else some .addRmI)
      else if n < 0x88 then none
      else if n ≤ 0x8B then some .movRmR
      else if n < 0xB0 then none
      else if n ≤ 0xBF then some .movRI
      else none

/-- R90: `insn_length` for the five families; its values are the table of R91. -/
def Obligations.LengthTable : Prop :=
  ∀ b0 b1 : Byte,
    let disp := Spec.dispSize (Spec.slice b1.toNat 7 6) (Spec.slice b1.toNat 2 0)
    let w := b0.toNat % 2
    let w' := b0.toNat / 8 % 2
    insnLength .movRmR b0 b1 = 2 + disp ∧ insnLength .addRmR b0 b1 = 2 + disp ∧
    insnLength .addRmI b0 b1 = 3 + disp + w ∧ insnLength .movRI b0 b1 = 2 + w' ∧ insnLength .addAI b0 b1 = 2 + w

/-- R92, R62, R223: with two bytes left, decode classifies, checks the length and only then reads on; it never reads
out of bounds, and the length of what it decodes is the computed length. -/
def Obligations.DecodeOutcomes : Prop :=
  ∀ (ext : Bool) (st : Stream) (pc : Nat), pc + 2 ≤ st.len →
    ∃ b0 b1, st.memRead1 pc = some b0 ∧ st.memRead1 (pc + 1) = some b1 ∧
      match classify ext b0 b1 with
      | none => decodeAt ext st pc = .unknown
      | some f =>
        (st.len < pc + insnLength f b0 b1 → decodeAt ext st pc = .truncated (insnLength f b0 b1)) ∧
        (pc + insnLength f b0 b1 ≤ st.len → ∃ i, decodeAt ext st pc = .ok i ∧ i.length = insnLength f b0 b1 ∧
          i.wellFormed = true ∧ i.onRecordPort = false)

/-- R92, R78 to R89: the record of a decoded instruction is the record of the spec's pseudocode, every operand read at
the offset it gives. -/
def Obligations.DecodeRecordIsTheSpecs : Prop :=
  ∀ (ext : Bool) (st : Stream) (pc : Nat) (i : Instr), decodeAt ext st pc = .ok i →
    ∃ b0 b1 f, st.memRead1 pc = some b0 ∧ st.memRead1 (pc + 1) = some b1 ∧ classify ext b0 b1 = some f ∧
      Spec.decodeRecord f st pc b0.toNat b1.toNat (insnLength f b0 b1) = some i.record

/-- R92, R94, R54: what is decoded depends on the instruction's own bytes and on nothing else: not on the bytes around
it, not on the offset, not on how it was reached. -/
def Obligations.DecodeReadsItsOwnBytes : Prop :=
  ∀ (ext : Bool) (st st' : Stream) (pc pc' : Nat) (i : Instr), decodeAt ext st pc = .ok i →
    (∀ k, k < i.length → st'.memRead1 (pc' + k) = st.memRead1 (pc + k)) → decodeAt ext st' pc' = .ok i

/-- The three decode scenarios of the source and four more words of 95_test_vectors, from their bytes: a sanity check.
-/
def Obligations.SpecWordsDecode : Prop :=
  decodeAt true (Stream.ofBytes [0x89, 0xD9]) 0 = .ok (.movRm16R16 (.reg .cx) .bx) ∧
  decodeAt true (Stream.ofBytes [0xB8, 0x01, 0x00]) 0 = .ok (.movR16Imm16 .ax 1) ∧
  decodeAt true (Stream.ofBytes [0x8B, 0x06, 0x1E, 0x00]) 0 = .ok (.movR16Rm16 .ax (.direct 30)) ∧
  decodeAt true (Stream.ofBytes [0x01, 0x5E, 0xFE]) 0 = .ok (.addRm16R16 (.mem .bp .d8 (-2)) .bx) ∧
  decodeAt true (Stream.ofBytes [0x80, 0x86, 0xE8, 0x03, 0x05]) 0 = .ok (.addRm8Imm8 (.mem .bp .d16 1000) 5) ∧
  decodeAt true (Stream.ofBytes [0x05, 0x34, 0x12]) 0 = .ok (.addAxImm16 0x1234) ∧
  decodeXrec 0xE1FF9C = some (.recCmpImm .cx (-100))

/-- 43_sub_cmp R200: no byte of the stream decodes to SUB or CMP; in a stream mode no step takes one; and the bytes that
are a subtract or a compare on a real 8086 are classification failures. -/
def Obligations.StreamHasNoSubOrCmp : Prop :=
  (∀ (ext : Bool) (st : Stream) (pc : Nat) (i : Instr), decodeAt ext st pc = .ok i →
    i.record.mnemonic ≠ .SUB ∧ i.record.mnemonic ≠ .CMP) ∧
  (∀ (s : State) (i : Instr), s.inputs.mode ≠ .recordExec → fetch s = .take i →
    i.record.mnemonic ≠ .SUB ∧ i.record.mnemonic ≠ .CMP) ∧
  (∀ (ext : Bool) (b1 : Byte), classify ext 0x29 b1 = none ∧ classify ext 0x39 b1 = none ∧
    classify ext 0x2C b1 = none ∧ classify ext 0x3C b1 = none)

/-! ### The step -/

/-- R213, R219: a step runs the decoded instruction. In a stream mode, when the bytes at `pc` decode to `i`, the step
is exec of `i`; in record mode, when the next record is an `XREC` word or a well-formed record that stands for `i`,
the step is exec of `i`. The step adds nothing around exec. -/
def Obligations.StepRunsTheInstruction : Prop :=
  ∀ (s : State) (i : Instr), s.status = .run →
    (s.inputs.mode ≠ .recordExec → decodeAt s.inputs.extCheck s.inputs.stream s.pc = .ok i → step s = exec i s) ∧
    (∀ x, Spec.atRecord s (.packed x) → decodeXrec x = some i → step s = exec i s) ∧
    (∀ rec, Spec.atRecord s (.abstract rec) → rec.instr = some i → step s = exec i s)

/-- The model's own choice (log entry 9): exec of an instruction outside the conditions under which the controller
takes it is a fault, and exactly then. The status is not `RUN`; or the port is not the one the mode uses. -/
def Obligations.ExecStopsOutsideTheController : Prop :=
  ∀ (i : Instr) (s : State),
    (s.status ≠ .run → exec i s = .fault .controllerStopped) ∧
    (s.status = .run → i.onRecordPort ≠ decide (s.inputs.mode = .recordExec) → exec i s = .fault .wrongPort) ∧
    (s.status = .run → i.onRecordPort = decide (s.inputs.mode = .recordExec) → ∃ t, exec i s = .next t)

/-- 10_state R31: the abstract records that stand for an instruction are exactly the well-formed ones, and the
instruction's record has the same mnemonic, destination and source value. -/
def Obligations.WellFormedRecordsAreInstructions : Prop :=
  ∀ rec : Record,
    (rec.wellFormed = true ↔ ∃ i, rec.instr = some i) ∧
    ∀ i, rec.instr = some i → i.onRecordPort = true ∧ i.record.mnemonic = rec.mnemonic ∧ i.record.dest = rec.dest ∧
      ∀ rf, srcValue rf i.record.src = srcValue rf rec.src

/-- 44_controller R212: with fewer than 2 bytes left the step ends the run, whatever the byte; with L = 0 or L = 1 the
first step does, with nothing emitted. -/
def Obligations.LoopEndsBelowTwoBytes : Prop :=
  (∀ s : State, s.status = .run → s.inputs.mode ≠ .recordExec → s.inputs.stream.len - s.pc < 2 →
    step s = .next { s with status := .done }) ∧
  (∀ s : State, s.status = .run → s.inputs.mode ≠ .recordExec → 2 ≤ s.inputs.stream.len - s.pc →
    step s ≠ .next { s with status := .done }) ∧
  (∀ (fr : Bool × Bool) (inp : Inputs), inp.mode ≠ .recordExec → inp.stream.len ≤ 1 →
    ∃ t, step (State.resetWith fr inp) = .next t ∧ t.status = .done ∧ t.out = [])

/-- R214: a classification failure, under both policies (the spec's own decision D5); a skip is always in bounds. That
`strict` writes `fault_info` also in a state with an earlier rejection is log entry 7 (DEDUCED). -/
def Obligations.UnknownOpcodePolicies : Prop :=
  ∀ (s : State) (b0 b1 : Byte), s.status = .run → s.inputs.mode ≠ .recordExec → 2 ≤ s.inputs.stream.len - s.pc →
    s.inputs.stream.memRead1 s.pc = some b0 → s.inputs.stream.memRead1 (s.pc + 1) = some b1 →
    classify s.inputs.extCheck b0 b1 = none →
      (s.inputs.unknownOpcodePolicy = .strict →
        step s = .next { s with status := .faultUnknownOpcode, faultInfo := some s.pc }) ∧
      (s.inputs.unknownOpcodePolicy = .permissive →
        step s = .next { s with pc := s.pc + 1 } ∧ s.pc + 1 ≤ s.inputs.stream.len)

/-- R215: a classified instruction whose length passes the end of the stream stops the run without being emitted or
executed, and `pc` stays (its own status is the spec's decision D15). That `fault_info` becomes `pc` also after an
earlier rejection is log entry 7 (DEDUCED). -/
def Obligations.TruncationStops : Prop :=
  ∀ (s : State) (b0 b1 : Byte) (f : Family), s.status = .run → s.inputs.mode ≠ .recordExec →
    s.inputs.stream.memRead1 s.pc = some b0 → s.inputs.stream.memRead1 (s.pc + 1) = some b1 →
    classify s.inputs.extCheck b0 b1 = some f → s.inputs.stream.len < s.pc + insnLength f b0 b1 →
      step s = .next { s with status := .stopTruncated, faultInfo := some s.pc }

/-- 41_mov R166, from the bytes: `B8+reg` lo hi stores the two bytes as read, in `DECODE_EXEC`; with only 2 bytes left
it is truncated. The emission in `DECODE_EXEC` is the spec's own decision D18 and the status `STOP_TRUNCATED` its
decision D15; that `fault_info` becomes `pc` also after an earlier rejection is log entry 7 (DEDUCED). -/
def Obligations.StepMovR16Imm16 : Prop :=
  ∀ (s : State) (r : Reg16) (lo : Byte), Spec.executing s →
    s.inputs.stream.memRead1 s.pc = some (0b10111#5 ++ r.index) → s.inputs.stream.memRead1 (s.pc + 1) = some lo →
      (∀ hi : Byte, s.inputs.stream.memRead1 (s.pc + 2) = some hi →
        step s = Spec.streamDone s ⟨.MOV, Spec.reg r, .immediate (BitVec.ofNat 16 (lo.toNat + 256 * hi.toNat)) .word, 3⟩
          (s.regs.set r (BitVec.ofNat 16 (lo.toNat + 256 * hi.toNat))) s.flags) ∧
      (s.inputs.stream.len = s.pc + 2 →
        step s = .next { s with status := .stopTruncated, faultInfo := some s.pc })

/-- 42_add R188, from the bytes: `05` lo hi adds the word to ax and sets both flags, in `DECODE_EXEC`; with only 2
bytes left it is truncated. That `05` is this instruction is the spec's own decision D3, the sum modulo 2^16 its
decision D7, the emission in `DECODE_EXEC` D18 and the status `STOP_TRUNCATED` D15; that `fault_info` becomes `pc`
also after an earlier rejection is log entry 7 (DEDUCED). -/
def Obligations.StepAddAxImm16 : Prop :=
  ∀ (s : State) (lo : Byte), Spec.executing s →
    s.inputs.stream.memRead1 s.pc = some 0x05 → s.inputs.stream.memRead1 (s.pc + 1) = some lo →
      (∀ hi : Byte, s.inputs.stream.memRead1 (s.pc + 2) = some hi →
        let v := BitVec.ofNat 16 (lo.toNat + 256 * hi.toNat)
        let x := Spec.add s.regs.ax v
        step s = Spec.streamDone s ⟨.ADD, Spec.reg .ax, .immediate v .word, 3⟩ { s.regs with ax := x } (Spec.flags x)) ∧
      (s.inputs.stream.len = s.pc + 2 →
        step s = .next { s with status := .stopTruncated, faultInfo := some s.pc })

/-- R219: in record mode, with no record left the run ends; a record in range that the engine cannot resolve is
refused, under `halt` by ending the run at it, under `reject_and_continue` by passing over it (the spec's own
decisions D6, D12). That `halt` writes `fault_info` also in a state with an earlier rejection is log entry 7
(DEDUCED). -/
def Obligations.RecordModeEndsAndRefuses : Prop :=
  ∀ s : State, s.status = .run → s.inputs.mode = .recordExec →
    (s.inputs.records.length ≤ s.rpc → step s = .next { s with status := .done }) ∧
    (∀ rec, s.inputs.records[s.rpc]? = some (.abstract rec) → recordInRange rec = true → rec.wellFormed = false →
      step s = match s.inputs.execFaultPolicy with
        | .halt => Spec.recordHalted s
        | .rejectAndContinue => Spec.recordRejected s)

/-- 60_exceptions R244: an invariant violation cannot come from the decoder; it arises exactly for a record of the
record port with an index out of range and for an ill-formed `XREC` word, under every policy, and records `rpc` (the
spec's own decision D19; the packing is D13). That a byte register with an index out of range is one, and not a lookup
failure, is log entry 14 (DEDUCED); that `fault_info` becomes `rpc` also after an earlier rejection is log entry 7
(DEDUCED). -/
def Obligations.InvariantViolationExactly : Prop :=
  (∀ (ext : Bool) (st : Stream) (pc : Nat) (i : Instr), decodeAt ext st pc = .ok i → recordInRange i.record = true) ∧
  (∀ s : State, s.status = .run →
    ((∃ t, step s = .next t ∧ t.status = .faultInvariant) ↔
      s.inputs.mode = .recordExec ∧
      ∃ item, s.inputs.records[s.rpc]? = some item ∧
        ((∃ x, item = .packed x ∧ decodeXrec x = none) ∨ ∃ rec, item = .abstract rec ∧ recordInRange rec = false))) ∧
  (∀ s t : State, s.status = .run → step s = .next t → t.status = .faultInvariant →
    t = { s with status := .faultInvariant, faultInfo := some s.rpc })

/-- Every step of the machine answers a next state: no state, reached or not, makes it fault or refuse. That a state
with a terminal status answers one at all is the model's (DEDUCED, log entry 3). -/
def Obligations.StepAlwaysAnswersNext : Prop :=
  ∀ s : State, ∃ t, step s = .next t

/-- 10_state R29, R30: no step changes an input; every byte of the stream reads as before. -/
def Obligations.StepKeepsInputs : Prop :=
  ∀ s t : State, step s = .next t →
    t.inputs = s.inputs ∧ (∀ a, t.inputs.stream.memRead1 a = s.inputs.stream.memRead1 a) ∧
    (∀ a, t.inputs.stream.memRead2 a = s.inputs.stream.memRead2 a)

/-- R220: a terminal state never changes (that its step answers the same state is log entry 3, DEDUCED);
every other step ends the run or advances a counter; so a run ends within L + 1 steps in the stream modes and NREC + 1
in record mode. -/
def Obligations.EveryRunEnds : Prop :=
  (∀ s : State, s.status ≠ .run → ∀ n, core.run n s = .next s) ∧
  (∀ s t : State, s.status = .run → step s = .next t →
    t.status ≠ .run ∨
    (s.inputs.mode ≠ .recordExec ∧ s.pc < t.pc ∧ t.pc ≤ s.inputs.stream.len ∧ t.pc ≤ s.pc + 6) ∨
    (s.inputs.mode = .recordExec ∧ t.rpc = s.rpc + 1 ∧ t.rpc ≤ s.inputs.records.length)) ∧
  (∀ s : State, s.inputs.mode ≠ .recordExec →
    ∃ t : State, core.run (s.inputs.stream.len + 1) s = .next t ∧ t.status ≠ .run) ∧
  (∀ s : State, s.inputs.mode = .recordExec →
    ∃ t : State, core.run (s.inputs.records.length + 1) s = .next t ∧ t.status ≠ .run)

/-! ### Invariants -/

/-- The invariants hold right after a reset with any `FLAGS_RESET` and any inputs. -/
def Obligations.InvariantsHoldAtReset : Prop :=
  ∀ (fr : Bool × Bool) (inp : Inputs),
    (State.resetWith fr inp).Inv ∧ (State.resetWith fr inp).TraceFaithful ∧
    tiles 0 (State.resetWith fr inp).out (State.resetWith fr inp).pc

/-- R24, R25, R28, R32, R240: every step keeps the controller's invariant. The clause `StatusHolds.position`, by which
a condition's position is in `fault_info` also after a rejection, where R28 and R240 differ, is log entry 7 (DEDUCED,
unsafe); that a state with a terminal status steps to itself is log entry 3 (DEDUCED). -/
def Obligations.StepKeepsInvariant : Prop :=
  ∀ s t : State, s.Inv → step s = .next t → t.Inv

/-- R32, R216, R223: every step keeps the trace faithful to the stream: nothing fabricated, nothing past the end, in
order, without overlap. -/
def Obligations.StepKeepsTraceFaithful : Prop :=
  ∀ s t : State, s.TraceFaithful → step s = .next t → t.TraceFaithful

/-- R218, R223 (a): under the strict policy the emitted instructions follow one another from offset 0 to `pc` with no
byte skipped or read twice, as long as none was refused under `halt`. -/
def Obligations.StrictTraceHasNoGap : Prop :=
  ∀ s t : State, s.inputs.unknownOpcodePolicy = .strict → step s = .next t →
    (s.status ≠ .faultExecLookup → tiles 0 s.out s.pc) → (t.status ≠ .faultExecLookup → tiles 0 t.out t.pc)

/-! ### Rules of the whole machine -/

/-- R24, R218, R221: `pc` changes in two ways only: past the instruction just emitted, by its length, or past one byte
that a permissive run skips with nothing emitted. -/
def Obligations.PcMovesOnlySequentially : Prop :=
  ∀ s t : State, step s = .next t → t.pc ≠ s.pc →
    s.status = .run ∧ s.inputs.mode ≠ .recordExec ∧
    ((∃ i, decodeAt s.inputs.extCheck s.inputs.stream s.pc = .ok i ∧ t.pc = s.pc + i.length ∧
        t.out = s.out ++ [(s.pc, i.record)]) ∨
     (decodeAt s.inputs.extCheck s.inputs.stream s.pc = .unknown ∧ s.inputs.unknownOpcodePolicy = .permissive ∧
        t = { s with pc := s.pc + 1 }))

/-- R32: the trace only grows, by at most one entry a step, and only by a record that passed the length check; in record
mode it does not grow. -/
def Obligations.TraceOnlyGrows : Prop :=
  ∀ s t : State, step s = .next t →
    t.out = s.out ∨
    (s.inputs.mode ≠ .recordExec ∧ ∃ i, decodeAt s.inputs.extCheck s.inputs.stream s.pc = .ok i ∧
      s.pc + i.length ≤ s.inputs.stream.len ∧ t.out = s.out ++ [(s.pc, i.record)])

/-- R217, R28: `exec_rejected` is never cleared, and is set only under `reject_and_continue`; while the run goes on,
`fault_info` keeps the position of the first rejection and nothing else writes it (the spec's own decision D6). -/
def Obligations.RejectionIsSticky : Prop :=
  ∀ s t : State, step s = .next t →
    (s.execRejected = true → t.execRejected = true) ∧
    (s.execRejected = false → t.execRejected = true → s.inputs.execFaultPolicy = .rejectAndContinue ∧
      t.faultInfo = some (if s.inputs.mode = .recordExec then s.rpc else s.pc)) ∧
    (t.status = .run → (s.execRejected = true ∨ t.execRejected = false) → t.faultInfo = s.faultInfo)

/-- 60_exceptions R248: conditions are precise (the spec's own decision D16). A step that ends the run leaves every
register, both flags, both counters and the sticky bit as the last completed instruction left them, and the trace too,
except that an instruction refused in `DECODE_EXEC` has been emitted. -/
def Obligations.ConditionsArePrecise : Prop :=
  ∀ s t : State, s.status = .run → step s = .next t → t.status ≠ .run →
    t.regs = s.regs ∧ t.flags = s.flags ∧ t.pc = s.pc ∧ t.rpc = s.rpc ∧ t.execRejected = s.execRejected ∧
    (t.out = s.out ∨ (t.status = .faultExecLookup ∧ s.inputs.mode = .decodeExec ∧
      ∃ i, decodeAt s.inputs.extCheck s.inputs.stream s.pc = .ok i ∧ t.out = s.out ++ [(s.pc, i.record)]))

/-- R26, R221: the data never steer the control. Two states that differ in registers and flags only step to states
that differ in registers and flags only: no instruction reads a flag, no operand decides where the machine goes or
what it emits. For a terminal status it rests on log entry 3 (DEDUCED). -/
def Obligations.DataNeverSteersControl : Prop :=
  ∀ s t s' : State, s.agreeButData t → step s = .next s' → ∃ t', step t = .next t' ∧ s'.agreeButData t'

/-- R211, R216, R217: a disassembly and an execution that rejects and continues pass through the same offsets with the
same trace and the same status, after any number of steps. That a refused instruction is passed over is the spec's own
decision D6, that `DECODE_EXEC` emits what `DISASM` emits its decision D18; for a number of steps past the end of the
run it rests on log entry 3 (a terminal state steps to itself, DEDUCED). -/
def Obligations.DisasmAndExecuteAgree : Prop :=
  ∀ (s : State) (n : Nat), s.inputs.mode = .decodeExec → s.inputs.execFaultPolicy = .rejectAndContinue →
    ∃ t u : State, core.run n s = .next t ∧
      core.run n ({ s with inputs := { s.inputs with mode := .disasm } } : State) = .next u ∧
      t.pc = u.pc ∧ t.out = u.out ∧ t.status = u.status

/-- R211: in `DISASM` no step touches a register, a flag or the sticky bit. -/
def Obligations.DisasmKeepsData : Prop :=
  ∀ s t : State, s.inputs.mode = .disasm → step s = .next t →
    t.regs = s.regs ∧ t.flags = s.flags ∧ t.execRejected = s.execRejected

/-- R160, R204, R26: a step that changes a flag carries out an executable ADD, SUB or CMP; a step that changes a
register carries out an executable instruction other than a CMP whose destination is that register, and not in
`DISASM`. -/
def Obligations.OnlyArithmeticTouchesFlags : Prop :=
  ∀ s t : State, step s = .next t →
    (t.flags ≠ s.flags → ∃ i, fetch s = .take i ∧ i.record.mnemonic ≠ .MOV ∧ i.executable = true) ∧
    (∀ r, t.regs.get r ≠ s.regs.get r → s.inputs.mode ≠ .disasm ∧
      ∃ i, fetch s = .take i ∧ i.writes = some r ∧ i.executable = true ∧ i.record.mnemonic ≠ .CMP)

/-! ### Text, the stream as data, and placing a word -/

/-- 30_encoding R99, R100: the one elision, and the size keyword of an immediate-to-memory instruction. The spaces and
the form of a negative displacement are R98's, the spec's own decision D14. -/
def Obligations.ElisionAndSizeKeyword : Prop :=
  (∀ (base : Base) (kind : DispKind) (disp : Word), kind ≠ .none →
    renderOperand (.memory base kind disp) =
      if base = .bp ∧ kind = .d8 ∧ disp = 0 then "[bp]"
      else if 0 ≤ disp.toInt then "[" ++ renderBase base ++ " + " ++ toString disp.toInt.natAbs ++ "]"
      else "[" ++ renderBase base ++ " - " ++ toString disp.toInt.natAbs ++ "]") ∧
  (∀ (m : Mnemonic) (dest src : Operand) (len : Nat),
    render ⟨m, dest, src, len⟩ =
      renderMnemonic m ++ " " ++
        (match dest, src with
          | .memory _ _ _, .immediate _ w => (match w with | .byte => "byte " | .word => "word ")
          | .direct _, .immediate _ w => (match w with | .byte => "byte " | .word => "word ")
          | _, _ => "") ++
        renderOperand dest ++ ", " ++ renderOperand src)

/-- 20_memory R51, R52: `MemRead` is defined exactly inside the stream, and a two-byte read is little-endian. -/
def Obligations.MemReadIsLittleEndian : Prop :=
  ∀ (st : Stream) (a : Nat),
    ((∃ b, st.memRead1 a = some b) ↔ a + 1 ≤ st.len) ∧ ((∃ v, st.memRead2 a = some v) ↔ a + 2 ≤ st.len) ∧
    ∀ v, st.memRead2 a = some v →
      ∃ lo hi, st.memRead1 a = some lo ∧ st.memRead1 (a + 1) = some hi ∧ v.toNat = lo.toNat + 256 * hi.toNat

/-- The canonical form (log entry 4): a stream is determined by its length and its bytes, and every stream the host can
supply has the form. -/
def Obligations.StreamsAreCanonical : Prop :=
  (∀ st st' : Stream, st.wf = true → st'.wf = true → st.len = st'.len →
    (∀ a, st.memRead1 a = st'.memRead1 a) → st = st') ∧
  (∀ bs : List Byte, (Stream.ofBytes bs).wf = true ∧ (Stream.ofBytes bs).len = bs.length ∧
    ∀ a, (Stream.ofBytes bs).memRead1 a = bs[a]?) ∧
  (∀ st : Stream, st.wf = true → ∃ bs, st = Stream.ofBytes bs)

/-- The model's own way of placing a word of the opcode table (log entry 5): the very next step runs the instruction the
decoder reads from it. -/
def Obligations.PlacedWordIsRun : Prop :=
  ∀ (s : State) (w : Nat) (i : Instr), s.inputs.extCheck = true → s.inputs.stream.wf = true →
    (∀ nbits, nbits = 16 ∨ nbits = 24 → w < 2 ^ nbits → decodeTableWord nbits w = some i →
      step (s.withFetchWord nbits w) = exec i (s.withFetchWord nbits w))
end

