-- ==== Sys2Proof/Laws/Registers.lean ====
section
/-! SUPPORT. The register file reads back what was written, and a write leaves the other registers alone (10_state R21);
a register's index names it and no other (30_encoding R79). -/

namespace Sys2Proof

@[simp] theorem Reg16.ofIndex_index (r : Reg16) : Reg16.ofIndex r.index = r := by cases r <;> rfl

@[simp] theorem Reg8.ofIndex_index (r : Reg8) : Reg8.ofIndex r.index = r := by cases r <;> rfl

@[simp] theorem Reg16.index_ofIndex (i : BitVec 3) : (Reg16.ofIndex i).index = i := by revert i; decide

@[simp] theorem Reg8.index_ofIndex (i : BitVec 3) : (Reg8.ofIndex i).index = i := by revert i; decide

@[simp] theorem Reg16.ofRecordIndex_index (r : Reg16) : Reg16.ofRecordIndex r.index.toNat = some r := by
  cases r <;> rfl

theorem Reg16.index_of_ofRecordIndex {n : Nat} {r : Reg16} (h : Reg16.ofRecordIndex n = some r) :
    n = r.index.toNat := by
  match n, h with
  | 0, h | 1, h | 2, h | 3, h | 4, h | 5, h | 6, h | 7, h => cases h; rfl

theorem Reg16.ofRecordIndex_isSome (n : Nat) : (Reg16.ofRecordIndex n).isSome = decide (n < 8) := by
  match n with
  | 0 | 1 | 2 | 3 | 4 | 5 | 6 | 7 => rfl
  | n + 8 => simp [Reg16.ofRecordIndex]

@[simp] theorem Base.rm_ofRm (rm : BitVec 3) : (Base.ofRm rm).rm = rm := by revert rm; decide

@[simp] theorem Base.ofRm_rm (b : Base) : Base.ofRm b.rm = b := by cases b <;> rfl

namespace Machine

@[simp] theorem RegFile.get_set_self (rf : RegFile) (r : Reg16) (v : Word) : (rf.set r v).get r = v := by
  cases r <;> rfl

theorem RegFile.get_set_of_ne (rf : RegFile) {r q : Reg16} (v : Word) (h : q ≠ r) :
    (rf.set r v).get q = rf.get q := by
  cases r <;> cases q <;> first | rfl | exact absurd rfl h

theorem RegFile.get_set (rf : RegFile) (r q : Reg16) (v : Word) :
    (rf.set r v).get q = if q = r then v else rf.get q := by
  by_cases h : q = r
  · subst h; simp
  · simp [h, RegFile.get_set_of_ne rf v h]

@[simp] theorem RegFile.get_zero (r : Reg16) : RegFile.zero.get r = 0 := by cases r <;> rfl

/-- Two register files with the same eight contents are the same. -/
theorem RegFile.eq_of_get {x y : RegFile} (h : ∀ r, x.get r = y.get r) : x = y := by
  have h0 := h .ax
  have h1 := h .cx
  have h2 := h .dx
  have h3 := h .bx
  have h4 := h .sp
  have h5 := h .bp
  have h6 := h .si
  have h7 := h .di
  cases x; cases y
  simp_all [RegFile.get]

end Machine

end Sys2Proof
end

