-- ==== Sys2Proof/Laws/Stream.lean ====
section
/-! SUPPORT. The memory keeps its canonical form under every operation on it, and reads back what the host placed
(20_memory R50 to R52). -/

namespace Sys2Proof.Machine

theorem Memory.wfFrom_mono {m : Memory} {lo lo' : Nat} (h : lo' ≤ lo) (hw : Memory.wfFrom lo m = true) :
    Memory.wfFrom lo' m = true := by
  cases m with
  | nil => rfl
  | cons c rest =>
    simp only [Memory.wfFrom, Bool.and_eq_true, decide_eq_true_eq] at hw ⊢
    exact ⟨⟨Nat.le_trans h hw.1.1, hw.1.2⟩, hw.2⟩

theorem Memory.wfFrom_write {m : Memory} {lo a : Nat} (b : Byte) (ha : lo ≤ a) (hw : Memory.wfFrom lo m = true) :
    Memory.wfFrom lo (m.write a b) = true := by
  induction m generalizing lo with
  | nil =>
    by_cases hb : b = Memory.unlisted
    · simp [Memory.write, hb, Memory.wfFrom]
    · simp [Memory.write, hb, Memory.wfFrom, ha]
  | cons c rest ih =>
    obtain ⟨key, val⟩ := c
    simp only [Memory.wfFrom, Bool.and_eq_true, decide_eq_true_eq, bne_iff_ne] at hw
    obtain ⟨⟨hk, hv⟩, hr⟩ := hw
    unfold Memory.write
    split
    · split
      · simp [Memory.wfFrom, hk, hv, hr]
      · rename_i h1 h2
        have h3 : a + 1 ≤ key := h1
        simp [Memory.wfFrom, ha, h2, h3, hv, hr]
    · split
      · rename_i h1 h2
        subst h2
        split
        · exact Memory.wfFrom_mono (by omega) hr
        · rename_i h3
          simp [Memory.wfFrom, ha, h3, hr]
      · rename_i h1 h2
        have := ih (lo := key + 1) (by omega) hr
        simp [Memory.wfFrom, hk, hv, this]

/-- A write keeps the canonical form. -/
theorem Memory.wf_write {m : Memory} (a : Nat) (b : Byte) (h : m.wf = true) : (m.write a b).wf = true :=
  Memory.wfFrom_write b (Nat.zero_le a) h

theorem Memory.read_of_lt {m : Memory} {lo a : Nat} (h : Memory.wfFrom lo m = true) (ha : a < lo) :
    m.read a = Memory.unlisted := by
  induction m generalizing lo with
  | nil => rfl
  | cons c rest ih =>
    obtain ⟨key, val⟩ := c
    simp only [Memory.wfFrom, Bool.and_eq_true, decide_eq_true_eq, bne_iff_ne] at h
    have hne : key ≠ a := by omega
    simp [Memory.read, hne]
    exact ih h.2 (by omega)

theorem Memory.read_write_of_wfFrom {m : Memory} {lo : Nat} (a c : Nat) (b : Byte) (h : Memory.wfFrom lo m = true) :
    (m.write a b).read c = if c = a then b else m.read c := by
  induction m generalizing lo with
  | nil =>
    by_cases hb : b = Memory.unlisted
    · simp [Memory.write, hb, Memory.read]
    · simp [Memory.write, hb, Memory.read, eq_comm]
  | cons e rest ih =>
    obtain ⟨key, val⟩ := e
    simp only [Memory.wfFrom, Bool.and_eq_true, decide_eq_true_eq, bne_iff_ne] at h
    obtain ⟨⟨hk, hv⟩, hr⟩ := h
    unfold Memory.write
    split
    · rename_i h1
      split
      · rename_i h2
        by_cases hc : c = a
        · subst hc
          have hne : key ≠ c := by omega
          simp [Memory.read, hne, h2, Memory.read_of_lt hr (show c < key + 1 by omega)]
        · simp [hc]
      · simp [Memory.read, eq_comm]
    · split
      · rename_i h1 h2
        subst h2
        split
        · rename_i h3
          by_cases hc : c = a
          · subst hc
            simp [h3, Memory.read_of_lt hr (show c < c + 1 by omega)]
          · have : a ≠ c := fun h => hc h.symm
            simp [Memory.read, hc, this]
        · by_cases hc : a = c
          · subst hc; simp [Memory.read]
          · have : c ≠ a := fun h => hc h.symm
            simp [Memory.read, hc, this]
      · rename_i h1 h2
        by_cases hc : key = c
        · subst hc
          have : key ≠ a := fun h => h2 h.symm
          simp [Memory.read, this]
        · simp [Memory.read, hc, ih hr]

/-- Read after write: the byte written at its own address, every other byte as before. -/
theorem Memory.read_write {m : Memory} (a c : Nat) (b : Byte) (h : m.wf = true) :
    (m.write a b).read c = if c = a then b else m.read c :=
  Memory.read_write_of_wfFrom a c b h

theorem Memory.all_write {m : Memory} {n : Nat} (a : Nat) (b : Byte) (h : m.all (fun c => decide (c.1 < n)) = true) :
    (m.write a b).all (fun c => decide (c.1 < max n (a + 1))) = true := by
  induction m with
  | nil =>
    by_cases hb : b = Memory.unlisted
    · simp [Memory.write, hb]
    · simp [Memory.write, hb] <;> omega
  | cons e rest ih =>
    obtain ⟨key, val⟩ := e
    simp only [List.all_cons, Bool.and_eq_true, decide_eq_true_eq] at h
    obtain ⟨hk, hr⟩ := h
    have hr' : rest.all (fun c => decide (c.1 < max n (a + 1))) = true := by
      rw [List.all_eq_true] at hr ⊢
      intro c hc
      have := hr c hc
      simp only [decide_eq_true_eq] at this ⊢
      omega
    have hk' : key < max n (a + 1) := by omega
    have ha' : a < max n (a + 1) := by omega
    unfold Memory.write
    split
    · split <;> simp only [List.all_cons, hr', Bool.and_true, Bool.and_eq_true, decide_eq_true_eq] <;> omega
    · split
      · split
        · exact hr'
        · simp only [List.all_cons, hr', Bool.and_true, decide_eq_true_eq]; omega
      · simp only [List.all_cons, ih hr, Bool.and_true, decide_eq_true_eq]; omega

/-- What the host places keeps the canonical form. -/
theorem Stream.wf_poke {st : Stream} (a : Nat) (b : Byte) (h : st.wf = true) : (st.poke a b).wf = true := by
  simp only [Stream.wf, Bool.and_eq_true] at h ⊢
  exact ⟨Memory.wf_write a b h.1, Memory.all_write a b h.2⟩

theorem Stream.wf_load {st : Stream} (a : Nat) (bs : List Byte) (h : st.wf = true) : (st.load a bs).wf = true := by
  induction bs generalizing st a with
  | nil => exact h
  | cons b rest ih => exact ih (a + 1) (Stream.wf_poke a b h)

theorem Stream.wf_empty : Stream.empty.wf = true := rfl

theorem Stream.wf_ofBytes (bs : List Byte) : (Stream.ofBytes bs).wf = true := Stream.wf_load 0 bs Stream.wf_empty

theorem Stream.len_load {st : Stream} (a : Nat) (bs : List Byte) (ha : a ≤ st.len) :
    (st.load a bs).len = max st.len (a + bs.length) := by
  induction bs generalizing st a with
  | nil => simp [Stream.load]; omega
  | cons b rest ih =>
    have h : a + 1 ≤ (st.poke a b).len := Nat.le_max_right _ _
    simp only [Stream.load, ih (a + 1) h, List.length_cons]
    simp only [Stream.poke]
    omega

@[simp] theorem Stream.len_ofBytes (bs : List Byte) : (Stream.ofBytes bs).len = bs.length := by
  simp [Stream.ofBytes, Stream.len_load, Stream.empty]

theorem Stream.read_load {st : Stream} (a c : Nat) (bs : List Byte) (h : st.cells.wf = true) :
    (st.load a bs).cells.read c =
      if a ≤ c then (bs[c - a]?).getD (st.cells.read c) else st.cells.read c := by
  induction bs generalizing st a with
  | nil => simp [Stream.load]
  | cons b rest ih =>
    have hw : (st.poke a b).cells.wf = true := Memory.wf_write a b h
    rw [Stream.load, ih (a + 1) hw]
    simp only [Stream.poke, Memory.read_write a c b h]
    by_cases h1 : c = a
    · subst h1
      have : ¬ c + 1 ≤ c := by omega
      simp [this]
    · by_cases h2 : a ≤ c
      · have h3 : a + 1 ≤ c := by omega
        have h4 : c - a = (c - (a + 1)) + 1 := by omega
        simp [h2, h3, h1, h4]
      · have h3 : ¬ a + 1 ≤ c := by omega
        simp [h2, h3, h1]

/-- The stream made of `bs` reads as `bs`, and nothing beyond. -/
theorem Stream.memRead1_ofBytes (bs : List Byte) (a : Nat) : (Stream.ofBytes bs).memRead1 a = bs[a]? := by
  unfold Stream.memRead1
  rw [Stream.len_ofBytes]
  unfold Stream.ofBytes
  rw [Stream.read_load 0 a bs rfl]
  by_cases h : a < bs.length
  · simp [Nat.succ_le_of_lt h, List.getElem?_eq_getElem h]
  · have h' : ¬ a + 1 ≤ bs.length := by omega
    simp [h', List.getElem?_eq_none (Nat.le_of_not_lt h)]

/-- A two-byte read is two one-byte reads, the lower offset in bits 7:0 (R52, R54). -/
theorem Stream.memRead2_eq (st : Stream) (a : Nat) :
    st.memRead2 a = (st.memRead1 a).bind fun lo => (st.memRead1 (a + 1)).map fun hi => littleEndian lo hi := by
  unfold Stream.memRead2 Stream.memRead1
  by_cases h : a + 2 ≤ st.len
  · have h1 : a + 1 ≤ st.len := by omega
    simp [h, h1]
  · by_cases h1 : a + 1 ≤ st.len <;> simp [h, h1]

theorem Stream.memRead1_isSome (st : Stream) (a : Nat) : (st.memRead1 a).isSome = decide (a < st.len) := by
  unfold Stream.memRead1
  by_cases h : a + 1 ≤ st.len
  · simp [h]; omega
  · simp [h]; omega

theorem Stream.memRead1_of_lt {st : Stream} {a : Nat} (h : a < st.len) : ∃ b, st.memRead1 a = some b :=
  Option.isSome_iff_exists.mp (by rw [Stream.memRead1_isSome]; exact decide_eq_true h)

theorem Stream.memRead2_of_lt {st : Stream} {a : Nat} (h : a + 1 < st.len) : ∃ v, st.memRead2 a = some v :=
  ⟨_, if_pos (by omega)⟩

end Sys2Proof.Machine
end

