-- ==== Sys2Proof/Laws/Decode.lean ====
section
/-! SUPPORT. What each part of the decoder yields when its reads are in bounds (30_encoding R86 to R92). -/

namespace Sys2Proof

open Sys2Proof.Machine

/-- A sign-extended byte is a well-formed `d8` displacement. -/
theorem setWidth_sext16 (b : Byte) : ((sext16 b).setWidth 8).signExtend 16 = sext16 b := by
  revert b; decide

theorem Base.ofRm_ne_bp {rm : BitVec 3} (h : rm ≠ 0b110#3) : Base.ofRm rm ≠ .bp := by revert rm; decide

/-- Two bits have four values. -/
theorem mod_cases (m : BitVec 2) : m = 0b00#2 ∨ m = 0b01#2 ∨ m = 0b10#2 ∨ m = 0b11#2 := by revert m; decide

/-- A register/memory operand whose displacement bytes lie in the stream decodes, to a well-formed operand of that
displacement size. -/
theorem decodeRm_of_le {ρ : Type} (regOf : BitVec 3 → ρ) {st : Stream} {pc : Nat} {mod : BitVec 2} {rm : BitVec 3}
    (h : pc + 2 + dispSize mod rm ≤ st.len) :
    ∃ x, decodeRm regOf st pc mod rm = some x ∧ x.dispSize = dispSize mod rm ∧ x.wellFormed = true := by
  obtain rfl | rfl | rfl | rfl := mod_cases mod
  · by_cases hr : rm = 0b110#3
    · subst hr
      obtain ⟨v, hv⟩ := Stream.memRead2_of_lt (st := st) (a := pc + 2) (by simp [dispSize] at h; omega)
      exact ⟨.direct v, by simp [decodeRm, hv], by simp [dispSize, RegMem.dispSize], rfl⟩
    · refine ⟨.mem (Base.ofRm rm) .none 0, by simp [decodeRm, hr], by simp [dispSize, RegMem.dispSize, hr], ?_⟩
      simp [RegMem.wellFormed, Base.ofRm_ne_bp hr]
  · obtain ⟨v, hv⟩ := Stream.memRead1_of_lt (st := st) (a := pc + 2) (by simp [dispSize] at h; omega)
    exact ⟨.mem (Base.ofRm rm) .d8 (sext16 v), by simp [decodeRm, hv], by simp [dispSize, RegMem.dispSize],
      by simp [RegMem.wellFormed, setWidth_sext16]⟩
  · obtain ⟨v, hv⟩ := Stream.memRead2_of_lt (st := st) (a := pc + 2) (by simp [dispSize] at h; omega)
    exact ⟨.mem (Base.ofRm rm) .d16 v, by simp [decodeRm, hv], by simp [dispSize, RegMem.dispSize], rfl⟩
  · exact ⟨.reg (regOf rm), by simp [decodeRm], by simp [dispSize, RegMem.dispSize], rfl⟩

/-- Every classified first byte has a family whose instruction has 2 to 6 bytes. -/
theorem insnLength_bounds (f : Family) (b0 b1 : Byte) : 2 ≤ insnLength f b0 b1 ∧ insnLength f b0 b1 ≤ 6 := by
  have hd : dispSize (fieldMod b1) (fieldRm b1) ≤ 2 := by
    unfold dispSize; split <;> (try split) <;> (try split) <;> omega
  have hi : ∀ w, 1 ≤ immSize w ∧ immSize w ≤ 2 := by decide
  have h0 := hi (fieldW b0)
  have h3 := hi (fieldWIr b0)
  cases f <;> simp only [insnLength] <;> omega

/-- What `decodeAt` does when the two bytes at `pc` exist: the three outcomes of R92, before the operands are read. -/
theorem decodeAt_eq {ext : Bool} {st : Stream} {pc : Nat} {b0 b1 : Byte} (h0 : st.memRead1 pc = some b0)
    (h1 : st.memRead1 (pc + 1) = some b1) :
    decodeAt ext st pc =
      match classify ext b0 b1 with
      | none => .unknown
      | some f =>
        if pc + insnLength f b0 b1 > st.len then .truncated (insnLength f b0 b1)
        else
          match decodeOperands f st pc b0 b1 with
          | some i => .ok i
          | none => .outOfBounds := by
  simp only [decodeAt, h0, h1] <;> rfl

/-- A classified instruction whose bytes all lie in the stream decodes, to a well-formed stream form of the computed
length. -/
theorem decodeOperands_of_le {f : Family} {st : Stream} {pc : Nat} {b0 b1 : Byte}
    (h : pc + insnLength f b0 b1 ≤ st.len) :
    ∃ i, decodeOperands f st pc b0 b1 = some i ∧ i.length = insnLength f b0 b1 ∧ i.wellFormed = true ∧
      i.onRecordPort = false := by
  cases f with
  | movRmR =>
    simp only [insnLength] at h
    obtain ⟨x, hx, hl, hw⟩ := decodeRm_of_le Reg8.ofIndex (st := st) (pc := pc)
      (mod := fieldMod b1) (rm := fieldRm b1) (by omega)
    obtain ⟨y, hy, hl', hw'⟩ := decodeRm_of_le Reg16.ofIndex (st := st) (pc := pc)
      (mod := fieldMod b1) (rm := fieldRm b1) (by omega)
    cases hb : fieldW b0 <;> cases hd : fieldD b0 <;>
      simp [decodeOperands, decodeRmR, hb, hd, hx, hy, Instr.length, insnLength, hl, hl', Instr.wellFormed, hw, hw',
        Instr.onRecordPort]
  | addRmR =>
    simp only [insnLength] at h
    obtain ⟨x, hx, hl, hw⟩ := decodeRm_of_le Reg8.ofIndex (st := st) (pc := pc)
      (mod := fieldMod b1) (rm := fieldRm b1) (by omega)
    obtain ⟨y, hy, hl', hw'⟩ := decodeRm_of_le Reg16.ofIndex (st := st) (pc := pc)
      (mod := fieldMod b1) (rm := fieldRm b1) (by omega)
    cases hb : fieldW b0 <;> cases hd : fieldD b0 <;>
      simp [decodeOperands, decodeRmR, hb, hd, hx, hy, Instr.length, insnLength, hl, hl', Instr.wellFormed, hw, hw',
        Instr.onRecordPort]
  | movRI =>
    cases hb : fieldWIr b0 with
    | false =>
      obtain ⟨v, hv⟩ := Stream.memRead1_of_lt (st := st) (a := pc + 1) (by simp [insnLength, immSize, hb] at h; omega)
      simp [decodeOperands, decodeMovRI, hb, hv, Instr.length, insnLength, immSize, Instr.wellFormed, Instr.onRecordPort]
    | true =>
      obtain ⟨v, hv⟩ := Stream.memRead2_of_lt (st := st) (a := pc + 1) (by simp [insnLength, immSize, hb] at h; omega)
      simp [decodeOperands, decodeMovRI, hb, hv, Instr.length, insnLength, immSize, Instr.wellFormed, Instr.onRecordPort]
  | addRmI =>
    simp only [insnLength] at h
    obtain ⟨x, hx, hl, hw⟩ := decodeRm_of_le Reg8.ofIndex (st := st) (pc := pc)
      (mod := fieldMod b1) (rm := fieldRm b1) (by omega)
    obtain ⟨y, hy, hl', hw'⟩ := decodeRm_of_le Reg16.ofIndex (st := st) (pc := pc)
      (mod := fieldMod b1) (rm := fieldRm b1) (by omega)
    cases hb : fieldW b0 with
    | false =>
      obtain ⟨v, hv⟩ := Stream.memRead1_of_lt (st := st) (a := pc + 2 + dispSize (fieldMod b1) (fieldRm b1))
        (by simp [immSize, hb] at h; omega)
      simp [decodeOperands, decodeAddRmI, hb, hx, hv, Instr.length, insnLength, immSize, hl, Instr.wellFormed, hw,
        Instr.onRecordPort]
      omega
    | true =>
      obtain ⟨v, hv⟩ := Stream.memRead2_of_lt (st := st) (a := pc + 2 + dispSize (fieldMod b1) (fieldRm b1))
        (by simp [immSize, hb] at h; omega)
      simp [decodeOperands, decodeAddRmI, hb, hy, hv, Instr.length, insnLength, immSize, hl', Instr.wellFormed, hw',
        Instr.onRecordPort]
      omega
  | addAI =>
    cases hb : fieldW b0 with
    | false =>
      obtain ⟨v, hv⟩ := Stream.memRead1_of_lt (st := st) (a := pc + 1) (by simp [insnLength, immSize, hb] at h; omega)
      simp [decodeOperands, decodeAddAI, hb, hv, Instr.length, insnLength, immSize, Instr.wellFormed, Instr.onRecordPort]
    | true =>
      obtain ⟨v, hv⟩ := Stream.memRead2_of_lt (st := st) (a := pc + 1) (by simp [insnLength, immSize, hb] at h; omega)
      simp [decodeOperands, decodeAddAI, hb, hv, Instr.length, insnLength, immSize, Instr.wellFormed, Instr.onRecordPort]

/-! ### Bit fields and byte order -/

@[simp] theorem fieldMod_append (m : BitVec 2) (r e : BitVec 3) : fieldMod (m ++ r ++ e) = m := by revert m r e; decide

@[simp] theorem fieldReg_append (m : BitVec 2) (r e : BitVec 3) : fieldReg (m ++ r ++ e) = r := by revert m r e; decide

@[simp] theorem fieldRm_append (m : BitVec 2) (r e : BitVec 3) : fieldRm (m ++ r ++ e) = e := by revert m r e; decide

/-- A byte is its three fields (30_encoding R78). -/
theorem append_fields (b : Byte) : fieldMod b ++ fieldReg b ++ fieldRm b = b := by revert b; decide

@[simp] theorem lowByte_sext16 (b : Byte) : lowByte (sext16 b) = b := by revert b; decide

theorem toNat_littleEndian (lo hi : Byte) : (littleEndian lo hi).toNat = lo.toNat + 256 * hi.toNat := by
  have := lo.isLt
  rw [littleEndian, BitVec.toNat_append, Nat.shiftLeft_eq, Nat.mul_comm, ← Nat.two_pow_add_eq_or_of_lt (by omega)]
  omega

@[simp] theorem lowByte_littleEndian (lo hi : Byte) : lowByte (littleEndian lo hi) = lo := by
  apply BitVec.eq_of_toNat_eq
  have := lo.isLt
  rw [lowByte, BitVec.extractLsb'_toNat, toNat_littleEndian, Nat.shiftRight_eq_div_pow]
  omega

@[simp] theorem highByte_littleEndian (lo hi : Byte) : highByte (littleEndian lo hi) = hi := by
  apply BitVec.eq_of_toNat_eq
  have := lo.isLt
  have := hi.isLt
  rw [highByte, BitVec.extractLsb'_toNat, toNat_littleEndian, Nat.shiftRight_eq_div_pow]
  omega

@[simp] theorem littleEndian_bytes (v : Word) : littleEndian (lowByte v) (highByte v) = v := by
  apply BitVec.eq_of_toNat_eq
  have := v.isLt
  rw [toNat_littleEndian, lowByte, highByte, BitVec.extractLsb'_toNat, BitVec.extractLsb'_toNat]
  simp only [Nat.shiftRight_eq_div_pow]
  omega

/-! ### Decoding what the encoder wrote -/

/-- The low byte of a well-formed `d8` displacement extends to the displacement. -/
theorem sext16_lowByte {v : Word} (h : ((v.setWidth 8).signExtend 16 == v) = true) : sext16 (lowByte v) = v := by
  unfold sext16 lowByte
  rw [← BitVec.setWidth_eq_extractLsb' (by omega)]
  exact beq_iff_eq.mp h

theorem Base.rm_ne_of_ne_bp {b : Base} (h : b ≠ .bp) : b.rm ≠ 0b110#3 := by
  cases b <;> first | decide | exact absurd rfl h

/-- Everything the decoder finds in an encoded register/memory operand: an addressing-mode byte with the register
field it was given, as many displacement bytes as the operand has, and the operand itself. -/
theorem decodeRm_encodeRm {ρ : Type} (regOf : BitVec 3 → ρ) (indexOf : ρ → BitVec 3) (hr : ∀ r, regOf (indexOf r) = r)
    (reg : BitVec 3) (x : RegMem ρ) (hw : x.wellFormed = true) :
    ∃ hd tl, encodeRm indexOf reg x = hd :: tl ∧ fieldReg hd = reg ∧ tl.length = x.dispSize ∧
      dispSize (fieldMod hd) (fieldRm hd) = x.dispSize ∧
      ∀ (st : Stream) (pc : Nat), (∀ k, k < tl.length → st.memRead1 (pc + 2 + k) = tl[k]?) →
        decodeRm regOf st pc (fieldMod hd) (fieldRm hd) = some x := by
  match x with
  | .reg r =>
    exact ⟨_, _, rfl, fieldReg_append _ _ _, rfl, by simp [dispSize, RegMem.dispSize],
      fun st pc _ => by simp [decodeRm, hr]⟩
  | .mem b .none d =>
    simp [RegMem.wellFormed] at hw
    have hb := Base.rm_ne_of_ne_bp hw.1
    exact ⟨_, _, rfl, fieldReg_append _ _ _, rfl, by simp [dispSize, RegMem.dispSize, hb],
      fun st pc _ => by simp [decodeRm, hb, hw.2]⟩
  | .mem b .d8 d =>
    refine ⟨_, _, rfl, fieldReg_append _ _ _, rfl, by simp [dispSize, RegMem.dispSize], fun st pc h => ?_⟩
    have h0 := h 0 (by simp)
    simp at h0
    simp [decodeRm, h0, sext16_lowByte hw]
  | .mem b .d16 d =>
    refine ⟨_, _, rfl, fieldReg_append _ _ _, rfl, by simp [dispSize, RegMem.dispSize], fun st pc h => ?_⟩
    have h0 := h 0 (by simp [wordBytes])
    have h1 := h 1 (by simp [wordBytes])
    simp [wordBytes] at h0 h1
    simp [decodeRm, Stream.memRead2_eq, h0, h1]
  | .direct d =>
    refine ⟨_, _, rfl, fieldReg_append _ _ _, rfl, by simp [dispSize, RegMem.dispSize], fun st pc h => ?_⟩
    have h0 := h 0 (by simp [wordBytes])
    have h1 := h 1 (by simp [wordBytes])
    simp [wordBytes] at h0 h1
    simp [decodeRm, Stream.memRead2_eq, h0, h1]

/-- An `XREC` word with an immediate source, as a number (30_encoding R95). -/
theorem toNat_encodeXrecImm (op : BitVec 2) (d : Reg16) (v : Word) :
    (encodeXrecImm op d v).toNat = op.toNat * 2 ^ 22 + 2 ^ 21 + d.index.toNat * 2 ^ 16 + v.toNat := by
  have h1 := v.isLt
  have h2 : (op ++ 0b1#1 ++ 0b00#2 ++ d.index).toNat = op.toNat * 64 + 32 + d.index.toNat := by
    revert op; cases d <;> decide
  rw [encodeXrecImm, BitVec.toNat_append, h2, Nat.shiftLeft_eq, Nat.mul_comm,
    ← Nat.two_pow_add_eq_or_of_lt (by omega)]
  omega

/-- The unpacking of a packed word with an immediate source, for each operation. -/
theorem decodeXrec_encodeXrecImm (op : BitVec 2) (d : Reg16) (v : Word) :
    decodeXrec (encodeXrecImm op d v) = some (xrecImm op d v) := by
  have hn := toNat_encodeXrecImm op d v
  have h1 := v.isLt
  have h2 := op.isLt
  have h3 := d.index.isLt
  have e19 : (encodeXrecImm op d v).extractLsb' 19 2 = 0b00#2 := by
    apply BitVec.eq_of_toNat_eq
    rw [BitVec.extractLsb'_toNat, hn, Nat.shiftRight_eq_div_pow, BitVec.toNat_ofNat]
    omega
  have e21 : (encodeXrecImm op d v).getLsbD 21 = true := by
    rw [BitVec.getLsbD, hn, Nat.testBit_eq_decide_div_mod_eq, decide_eq_true_eq]
    omega
  have e22 : (encodeXrecImm op d v).extractLsb' 22 2 = op := by
    apply BitVec.eq_of_toNat_eq
    rw [BitVec.extractLsb'_toNat, hn, Nat.shiftRight_eq_div_pow]
    omega
  have e16 : (encodeXrecImm op d v).extractLsb' 16 3 = d.index := by
    apply BitVec.eq_of_toNat_eq
    rw [BitVec.extractLsb'_toNat, hn, Nat.shiftRight_eq_div_pow]
    omega
  have e0 : (encodeXrecImm op d v).extractLsb' 0 16 = v := by
    apply BitVec.eq_of_toNat_eq
    rw [BitVec.extractLsb'_toNat, hn, Nat.shiftRight_eq_div_pow]
    omega
  unfold decodeXrec
  rw [e19, e21, e22, e16, e0]
  simp

/-- The unpacking of a packed word with a register source, for each operation. -/
theorem decodeXrec_encodeXrecReg (op : BitVec 2) (d r : Reg16) :
    decodeXrec (encodeXrecReg op d r) = some (xrecReg op d r) := by
  revert op; cases d <;> cases r <;> decide

end Sys2Proof
end

