-- ==== Sys2Proof/Laws/Engine.lean ====
section
/-! SUPPORT. Which operands resolve (40_execute_engine R141) and everything the execution engine can do with a record
(R140, R147). -/

namespace Sys2Proof.Machine

@[simp] theorem destIndex_operand (r : Reg16) : destIndex r.operand = some r := by
  simp [destIndex, Reg16.operand]

@[simp] theorem destIndex_operand8 (r : Reg8) : destIndex r.operand = none := rfl

@[simp] theorem srcValue_operand (rf : RegFile) (r : Reg16) : srcValue rf r.operand = some (rf.get r) := by
  simp [srcValue, Reg16.operand]

@[simp] theorem srcValue_operand8 (rf : RegFile) (r : Reg8) : srcValue rf r.operand = none := rfl

@[simp] theorem srcValue_imm16 (rf : RegFile) (v : Word) : srcValue rf (imm16Operand v) = some v := rfl

@[simp] theorem srcValue_imm8 (rf : RegFile) (v : Byte) : srcValue rf (imm8Operand v) = some (sext16 v) := rfl

theorem destIndex_rm16 (x : RegMem Reg16) :
    destIndex (x.operand Reg16.operand) = match x with | .reg r => some r | .mem _ _ _ => none | .direct _ => none := by
  cases x <;> first | rfl | simp only [RegMem.operand, destIndex_operand]

@[simp] theorem destIndex_rm8 (x : RegMem Reg8) : destIndex (x.operand Reg8.operand) = none := by
  cases x <;> rfl

theorem srcValue_rm16 (rf : RegFile) (x : RegMem Reg16) :
    srcValue rf (x.operand Reg16.operand) =
      match x with | .reg r => some (rf.get r) | .mem _ _ _ => none | .direct _ => none := by
  cases x <;> first | rfl | simp only [RegMem.operand, srcValue_operand]

@[simp] theorem srcValue_rm8 (rf : RegFile) (x : RegMem Reg8) : srcValue rf (x.operand Reg8.operand) = none := by
  cases x <;> rfl

/-- Whether a source operand resolves does not depend on what the registers hold. -/
theorem srcValue_isSome (rf rf' : RegFile) (op : Operand) : (srcValue rf op).isSome = (srcValue rf' op).isSome := by
  match op with
  | .register .word _ => simp [srcValue]
  | .register .byte _ => rfl
  | .memory _ _ _ => rfl
  | .direct _ => rfl
  | .immediate _ _ => rfl

/-- Everything the engine does with a record whose operands resolve to the register `i` and the value `b`. -/
theorem execute_of_resolved {rec : Record} {rf : RegFile} (fl : Flags) {i : Reg16} {b : Word}
    (hd : destIndex rec.dest = some i) (hs : srcValue rf rec.src = some b) :
    execute rec rf fl = some (match rec.mnemonic with
      | .MOV => (rf.set i b, fl)
      | .ADD => (rf.set i (aluAdd (rf.get i) b), flagsOf (aluAdd (rf.get i) b))
      | .SUB => (rf.set i (aluSub (rf.get i) b), flagsOf (aluSub (rf.get i) b))
      | .CMP => (rf, flagsOf (aluSub (rf.get i) b))) := by
  unfold execute
  split <;> simp [*, engineMov, engineAdd, engineSub, engineCmp]

/-- The engine fails on a record exactly when one of the operands does not resolve. -/
theorem execute_eq_none_iff (rec : Record) (rf : RegFile) (fl : Flags) :
    execute rec rf fl = none ↔ destIndex rec.dest = none ∨ srcValue rf rec.src = none := by
  cases hd : destIndex rec.dest with
  | none => unfold execute; split <;> simp [engineMov, engineAdd, engineSub, engineCmp, hd]
  | some i =>
    cases hs : srcValue rf rec.src with
    | none => unfold execute; split <;> simp [engineMov, engineAdd, engineSub, engineCmp, hd, hs]
    | some b => simp [execute_of_resolved fl hd hs]

/-- Whether a record executes does not depend on the registers and the flags. -/
theorem execute_isSome (rec : Record) (rf rf' : RegFile) (fl fl' : Flags) :
    (execute rec rf fl).isSome = (execute rec rf' fl').isSome := by
  have hs : srcValue rf rec.src = none ↔ srcValue rf' rec.src = none := by
    rw [← Option.not_isSome_iff_eq_none, ← Option.not_isSome_iff_eq_none, srcValue_isSome rf rf']
  have h : execute rec rf fl = none ↔ execute rec rf' fl' = none := by
    rw [execute_eq_none_iff, execute_eq_none_iff, hs]
  cases hx : execute rec rf fl with
  | none => rw [h.mp hx]
  | some x =>
    cases hy : execute rec rf' fl' with
    | none => rw [h.mpr hy] at hx; cases hx
    | some y => rfl

/-- What the engine returns leaves every register but the destination as it was. -/
theorem execute_get_of_ne {rec : Record} {rf : RegFile} {fl : Flags} {x : RegFile × Flags} {r : Reg16}
    (h : execute rec rf fl = some x) (hr : destIndex rec.dest ≠ some r) : x.1.get r = rf.get r := by
  cases hd : destIndex rec.dest with
  | none => rw [(execute_eq_none_iff rec rf fl).mpr (Or.inl hd)] at h; cases h
  | some i =>
    cases hs : srcValue rf rec.src with
    | none => rw [(execute_eq_none_iff rec rf fl).mpr (Or.inr hs)] at h; cases h
    | some b =>
      rw [execute_of_resolved fl hd hs] at h
      cases h
      have hne : r ≠ i := fun e => hr (by rw [hd, e])
      split <;> simp [RegFile.get_set_of_ne _ _ hne]

end Sys2Proof.Machine
end

