-- ==== Sys2Proof/Laws/State.lean ====
section
/-! SUPPORT. For each named update of the state, each field after it: so that no later proof unfolds a record update. -/

namespace Sys2Proof.Machine

variable (s : State)

@[simp] theorem raise_regs (c : Condition) (p : Nat) : (s.raise c p).regs = s.regs := rfl
@[simp] theorem raise_flags (c : Condition) (p : Nat) : (s.raise c p).flags = s.flags := rfl
@[simp] theorem raise_pc (c : Condition) (p : Nat) : (s.raise c p).pc = s.pc := rfl
@[simp] theorem raise_rpc (c : Condition) (p : Nat) : (s.raise c p).rpc = s.rpc := rfl
@[simp] theorem raise_status (c : Condition) (p : Nat) : (s.raise c p).status = c.status := rfl
@[simp] theorem raise_faultInfo (c : Condition) (p : Nat) : (s.raise c p).faultInfo = some p := rfl
@[simp] theorem raise_execRejected (c : Condition) (p : Nat) : (s.raise c p).execRejected = s.execRejected := rfl
@[simp] theorem raise_out (c : Condition) (p : Nat) : (s.raise c p).out = s.out := rfl
@[simp] theorem raise_inputs (c : Condition) (p : Nat) : (s.raise c p).inputs = s.inputs := rfl

@[simp] theorem finish_regs : (s.finish).regs = s.regs := rfl
@[simp] theorem finish_flags : (s.finish).flags = s.flags := rfl
@[simp] theorem finish_pc : (s.finish).pc = s.pc := rfl
@[simp] theorem finish_rpc : (s.finish).rpc = s.rpc := rfl
@[simp] theorem finish_status : (s.finish).status = .done := rfl
@[simp] theorem finish_faultInfo : (s.finish).faultInfo = s.faultInfo := rfl
@[simp] theorem finish_execRejected : (s.finish).execRejected = s.execRejected := rfl
@[simp] theorem finish_out : (s.finish).out = s.out := rfl
@[simp] theorem finish_inputs : (s.finish).inputs = s.inputs := rfl

@[simp] theorem emit_regs (rec : Record) : (s.emit rec).regs = s.regs := rfl
@[simp] theorem emit_flags (rec : Record) : (s.emit rec).flags = s.flags := rfl
@[simp] theorem emit_pc (rec : Record) : (s.emit rec).pc = s.pc := rfl
@[simp] theorem emit_rpc (rec : Record) : (s.emit rec).rpc = s.rpc := rfl
@[simp] theorem emit_status (rec : Record) : (s.emit rec).status = s.status := rfl
@[simp] theorem emit_faultInfo (rec : Record) : (s.emit rec).faultInfo = s.faultInfo := rfl
@[simp] theorem emit_execRejected (rec : Record) : (s.emit rec).execRejected = s.execRejected := rfl
@[simp] theorem emit_out (rec : Record) : (s.emit rec).out = s.out ++ [(s.pc, rec)] := rfl
@[simp] theorem emit_inputs (rec : Record) : (s.emit rec).inputs = s.inputs := rfl

@[simp] theorem commit_regs (x : RegFile × Flags) : (s.commit x).regs = x.1 := rfl
@[simp] theorem commit_flags (x : RegFile × Flags) : (s.commit x).flags = x.2 := rfl
@[simp] theorem commit_pc (x : RegFile × Flags) : (s.commit x).pc = s.pc := rfl
@[simp] theorem commit_rpc (x : RegFile × Flags) : (s.commit x).rpc = s.rpc := rfl
@[simp] theorem commit_status (x : RegFile × Flags) : (s.commit x).status = s.status := rfl
@[simp] theorem commit_faultInfo (x : RegFile × Flags) : (s.commit x).faultInfo = s.faultInfo := rfl
@[simp] theorem commit_execRejected (x : RegFile × Flags) : (s.commit x).execRejected = s.execRejected := rfl
@[simp] theorem commit_out (x : RegFile × Flags) : (s.commit x).out = s.out := rfl
@[simp] theorem commit_inputs (x : RegFile × Flags) : (s.commit x).inputs = s.inputs := rfl

@[simp] theorem reject_regs (p : Nat) : (s.reject p).regs = s.regs := rfl
@[simp] theorem reject_flags (p : Nat) : (s.reject p).flags = s.flags := rfl
@[simp] theorem reject_pc (p : Nat) : (s.reject p).pc = s.pc := rfl
@[simp] theorem reject_rpc (p : Nat) : (s.reject p).rpc = s.rpc := rfl
@[simp] theorem reject_status (p : Nat) : (s.reject p).status = s.status := rfl
@[simp] theorem reject_faultInfo (p : Nat) : (s.reject p).faultInfo = if s.execRejected then s.faultInfo else some p := rfl
@[simp] theorem reject_execRejected (p : Nat) : (s.reject p).execRejected = true := rfl
@[simp] theorem reject_out (p : Nat) : (s.reject p).out = s.out := rfl
@[simp] theorem reject_inputs (p : Nat) : (s.reject p).inputs = s.inputs := rfl

@[simp] theorem advance_regs (n : Nat) : (s.advance n).regs = s.regs := rfl
@[simp] theorem advance_flags (n : Nat) : (s.advance n).flags = s.flags := rfl
@[simp] theorem advance_pc (n : Nat) : (s.advance n).pc = s.pc + n := rfl
@[simp] theorem advance_rpc (n : Nat) : (s.advance n).rpc = s.rpc := rfl
@[simp] theorem advance_status (n : Nat) : (s.advance n).status = s.status := rfl
@[simp] theorem advance_faultInfo (n : Nat) : (s.advance n).faultInfo = s.faultInfo := rfl
@[simp] theorem advance_execRejected (n : Nat) : (s.advance n).execRejected = s.execRejected := rfl
@[simp] theorem advance_out (n : Nat) : (s.advance n).out = s.out := rfl
@[simp] theorem advance_inputs (n : Nat) : (s.advance n).inputs = s.inputs := rfl

@[simp] theorem nextRecord_regs : (s.nextRecord).regs = s.regs := rfl
@[simp] theorem nextRecord_flags : (s.nextRecord).flags = s.flags := rfl
@[simp] theorem nextRecord_pc : (s.nextRecord).pc = s.pc := rfl
@[simp] theorem nextRecord_rpc : (s.nextRecord).rpc = s.rpc + 1 := rfl
@[simp] theorem nextRecord_status : (s.nextRecord).status = s.status := rfl
@[simp] theorem nextRecord_faultInfo : (s.nextRecord).faultInfo = s.faultInfo := rfl
@[simp] theorem nextRecord_execRejected : (s.nextRecord).execRejected = s.execRejected := rfl
@[simp] theorem nextRecord_out : (s.nextRecord).out = s.out := rfl
@[simp] theorem nextRecord_inputs : (s.nextRecord).inputs = s.inputs := rfl

@[simp] theorem placeBytes_regs (bs : List Byte) : (s.placeBytes bs).regs = s.regs := rfl
@[simp] theorem placeBytes_flags (bs : List Byte) : (s.placeBytes bs).flags = s.flags := rfl
@[simp] theorem placeBytes_pc (bs : List Byte) : (s.placeBytes bs).pc = s.pc := rfl
@[simp] theorem placeBytes_rpc (bs : List Byte) : (s.placeBytes bs).rpc = s.rpc := rfl
@[simp] theorem placeBytes_faultInfo (bs : List Byte) : (s.placeBytes bs).faultInfo = s.faultInfo := rfl
@[simp] theorem placeBytes_execRejected (bs : List Byte) : (s.placeBytes bs).execRejected = s.execRejected := rfl
@[simp] theorem placeBytes_out (bs : List Byte) : (s.placeBytes bs).out = s.out := rfl
@[simp] theorem placeBytes_status (bs : List Byte) : (s.placeBytes bs).status = .run := rfl

@[simp] theorem placeXrec_regs (x : BitVec 24) : (s.placeXrec x).regs = s.regs := rfl
@[simp] theorem placeXrec_flags (x : BitVec 24) : (s.placeXrec x).flags = s.flags := rfl
@[simp] theorem placeXrec_pc (x : BitVec 24) : (s.placeXrec x).pc = s.pc := rfl
@[simp] theorem placeXrec_rpc (x : BitVec 24) : (s.placeXrec x).rpc = s.rpc := rfl
@[simp] theorem placeXrec_faultInfo (x : BitVec 24) : (s.placeXrec x).faultInfo = s.faultInfo := rfl
@[simp] theorem placeXrec_execRejected (x : BitVec 24) : (s.placeXrec x).execRejected = s.execRejected := rfl
@[simp] theorem placeXrec_out (x : BitVec 24) : (s.placeXrec x).out = s.out := rfl
@[simp] theorem placeXrec_status (x : BitVec 24) : (s.placeXrec x).status = .run := rfl

@[simp] theorem resetWith_regs (fr : Bool × Bool) (inp : Inputs) : (State.resetWith fr inp).regs = RegFile.zero := rfl
@[simp] theorem resetWith_flags (fr : Bool × Bool) (inp : Inputs) : (State.resetWith fr inp).flags = ⟨fr.1, fr.2⟩ := rfl
@[simp] theorem resetWith_pc (fr : Bool × Bool) (inp : Inputs) : (State.resetWith fr inp).pc = 0 := rfl
@[simp] theorem resetWith_rpc (fr : Bool × Bool) (inp : Inputs) : (State.resetWith fr inp).rpc = 0 := rfl
@[simp] theorem resetWith_status (fr : Bool × Bool) (inp : Inputs) : (State.resetWith fr inp).status = .run := rfl
@[simp] theorem resetWith_faultInfo (fr : Bool × Bool) (inp : Inputs) : (State.resetWith fr inp).faultInfo = none := rfl
@[simp] theorem resetWith_execRejected (fr : Bool × Bool) (inp : Inputs) : (State.resetWith fr inp).execRejected = false := rfl
@[simp] theorem resetWith_out (fr : Bool × Bool) (inp : Inputs) : (State.resetWith fr inp).out = [] := rfl
@[simp] theorem resetWith_inputs (fr : Bool × Bool) (inp : Inputs) : (State.resetWith fr inp).inputs = inp := rfl

end Sys2Proof.Machine
end

