-- ==== Sys2Proof/Laws/Ops.lean ====
section
/-! SUPPORT. Everything the shared operations can do, one lemma each; and every meaning as one of the two ways an
instruction is carried out. -/

namespace Sys2Proof.Machine

/-- Execution and advance in `DECODE_EXEC` (44_controller R217, R218): done, halted or rejected. -/
theorem executeAndAdvance_cases (s : State) (rec : Record) :
    (∃ x, execute rec s.regs s.flags = some x ∧ s.executeAndAdvance rec = (s.commit x).advance rec.length) ∨
    (execute rec s.regs s.flags = none ∧ s.inputs.execFaultPolicy = .halt ∧
      s.executeAndAdvance rec = s.raise .execLookup s.pc) ∨
    (execute rec s.regs s.flags = none ∧ s.inputs.execFaultPolicy = .rejectAndContinue ∧
      s.executeAndAdvance rec = (s.reject s.pc).advance rec.length) := by
  unfold State.executeAndAdvance
  cases hx : execute rec s.regs s.flags with
  | some x => exact .inl ⟨x, rfl, rfl⟩
  | none => cases hp : s.inputs.execFaultPolicy <;> simp

/-- One record of the record port (R219): done, halted or rejected. -/
theorem executeRecord_cases (s : State) (rec : Record) :
    (∃ x, execute rec s.regs s.flags = some x ∧ s.executeRecord rec = (s.commit x).nextRecord) ∨
    (execute rec s.regs s.flags = none ∧ s.inputs.execFaultPolicy = .halt ∧
      s.executeRecord rec = s.raise .execLookup s.rpc) ∨
    (execute rec s.regs s.flags = none ∧ s.inputs.execFaultPolicy = .rejectAndContinue ∧
      s.executeRecord rec = (s.reject s.rpc).nextRecord) := by
  unfold State.executeRecord
  cases hx : execute rec s.regs s.flags with
  | some x => exact .inl ⟨x, rfl, rfl⟩
  | none => cases hp : s.inputs.execFaultPolicy <;> simp

/-- The two ways a stream instruction comes to a next state (R213). -/
theorem takeFromStream_next {rec : Record} {s t : State} (h : takeFromStream rec s = .next t) :
    s.status = .run ∧
      ((s.inputs.mode = .disasm ∧ t = (s.emit rec).advance rec.length) ∨
       (s.inputs.mode = .decodeExec ∧ t = (s.emit rec).executeAndAdvance rec)) := by
  unfold takeFromStream at h
  split at h
  · cases h
  · rename_i hs
    split at h
    · cases h
    · rename_i hm; cases h; exact ⟨Decidable.not_not.mp hs, .inl ⟨hm, rfl⟩⟩
    · rename_i hm; cases h; exact ⟨Decidable.not_not.mp hs, .inr ⟨hm, rfl⟩⟩

theorem takeFromStream_disasm {s : State} (rec : Record) (hs : s.status = .run) (hm : s.inputs.mode = .disasm) :
    takeFromStream rec s = .next ((s.emit rec).advance rec.length) := by
  simp [takeFromStream, hs, hm]

theorem takeFromStream_decodeExec {s : State} (rec : Record) (hs : s.status = .run)
    (hm : s.inputs.mode = .decodeExec) :
    takeFromStream rec s = .next ((s.emit rec).executeAndAdvance rec) := by
  simp [takeFromStream, hs, hm]

/-- The one way a record-port instruction comes to a next state (R219). -/
theorem takeFromPort_next {rec : Record} {s t : State} (h : takeFromPort rec s = .next t) :
    s.status = .run ∧ s.inputs.mode = .recordExec ∧ t = s.executeRecord rec := by
  unfold takeFromPort at h
  split at h
  · cases h
  · rename_i hs
    split at h
    · rename_i hm; cases h; exact ⟨Decidable.not_not.mp hs, hm, rfl⟩
    · cases h
    · cases h

theorem takeFromPort_recordExec {s : State} (rec : Record) (hs : s.status = .run)
    (hm : s.inputs.mode = .recordExec) : takeFromPort rec s = .next (s.executeRecord rec) := by
  simp [takeFromPort, hs, hm]

/-- Every stream form is carried out from its own record. -/
theorem exec_of_stream {i : Instr} (s : State) (h : i.onRecordPort = false) : exec i s = takeFromStream i.record s := by
  cases i <;> first | rfl | cases h

/-- Every record-port form is carried out from its own record. -/
theorem exec_of_port {i : Instr} (s : State) (h : i.onRecordPort = true) : exec i s = takeFromPort i.record s := by
  cases i <;> first | rfl | cases h

@[simp] theorem length_record (i : Instr) : i.record.length = i.length := by cases i <;> rfl

end Sys2Proof.Machine
end

