-- ==== Sys2Proof/Laws/PerInstr.lean ====
section
/-! SUPPORT. Statements about the instructions as syntax, one lemma for each constructor: the encoding of an
instruction has as many bytes as its length says (30_encoding R90, R91), and no instruction's record names a register index
out of range (R79). -/

namespace Sys2Proof.Laws

open Sys2Proof.Machine

/-- An addressing-mode byte and its displacement bytes. -/
theorem length_encodeRm {ρ : Type} (indexOf : ρ → BitVec 3) (reg : BitVec 3) (x : RegMem ρ) :
    (encodeRm indexOf reg x).length = 1 + x.dispSize := by
  match x with
  | .reg _ | .mem _ .none _ | .mem _ .d8 _ | .mem _ .d16 _ | .direct _ => rfl

/-- A register operand of the naming tables is in range. -/
theorem operandInRange_reg16 (r : Reg16) : operandInRange r.operand = true := by cases r <;> rfl

theorem operandInRange_reg8 (r : Reg8) : operandInRange r.operand = true := by cases r <;> rfl

theorem operandInRange_imm16 (v : Word) : operandInRange (imm16Operand v) = true := rfl

theorem operandInRange_imm8 (v : Byte) : operandInRange (imm8Operand v) = true := rfl

theorem operandInRange_rm16 (x : RegMem Reg16) : operandInRange (x.operand Reg16.operand) = true := by
  cases x with
  | reg r => exact operandInRange_reg16 r
  | mem _ _ _ => rfl
  | direct _ => rfl

theorem operandInRange_rm8 (x : RegMem Reg8) : operandInRange (x.operand Reg8.operand) = true := by
  cases x with
  | reg r => exact operandInRange_reg8 r
  | mem _ _ _ => rfl
  | direct _ => rfl

end Sys2Proof.Laws

namespace Sys2Proof.Laws.EncodedLength

/-- The encoding of an instruction has `length` bytes. -/
def Statement (i : Instr) : Prop := (encodeBytes i).length = i.length

theorem movRm8R8 (dst : RegMem Reg8) (src : Reg8) : Statement (.movRm8R8 dst src) := by
  simp [Statement, encodeBytes, encode, Instr.length, length_encodeRm]
  omega

theorem movRm16R16 (dst : RegMem Reg16) (src : Reg16) : Statement (.movRm16R16 dst src) := by
  simp [Statement, encodeBytes, encode, Instr.length, length_encodeRm]
  omega

theorem movR8Rm8 (dst : Reg8) (src : RegMem Reg8) : Statement (.movR8Rm8 dst src) := by
  simp [Statement, encodeBytes, encode, Instr.length, length_encodeRm]
  omega

theorem movR16Rm16 (dst : Reg16) (src : RegMem Reg16) : Statement (.movR16Rm16 dst src) := by
  simp [Statement, encodeBytes, encode, Instr.length, length_encodeRm]
  omega

theorem movR8Imm8 (dst : Reg8) (imm : Byte) : Statement (.movR8Imm8 dst imm) := by
  rfl

theorem movR16Imm16 (dst : Reg16) (imm : Word) : Statement (.movR16Imm16 dst imm) := by
  rfl

theorem addRm8R8 (dst : RegMem Reg8) (src : Reg8) : Statement (.addRm8R8 dst src) := by
  simp [Statement, encodeBytes, encode, Instr.length, length_encodeRm]
  omega

theorem addRm16R16 (dst : RegMem Reg16) (src : Reg16) : Statement (.addRm16R16 dst src) := by
  simp [Statement, encodeBytes, encode, Instr.length, length_encodeRm]
  omega

theorem addR8Rm8 (dst : Reg8) (src : RegMem Reg8) : Statement (.addR8Rm8 dst src) := by
  simp [Statement, encodeBytes, encode, Instr.length, length_encodeRm]
  omega

theorem addR16Rm16 (dst : Reg16) (src : RegMem Reg16) : Statement (.addR16Rm16 dst src) := by
  simp [Statement, encodeBytes, encode, Instr.length, length_encodeRm]
  omega

theorem addRm8Imm8 (dst : RegMem Reg8) (imm : Byte) : Statement (.addRm8Imm8 dst imm) := by
  simp [Statement, encodeBytes, encode, Instr.length, length_encodeRm]
  omega

theorem addRm16Imm16 (dst : RegMem Reg16) (imm : Word) : Statement (.addRm16Imm16 dst imm) := by
  simp [Statement, encodeBytes, encode, Instr.length, length_encodeRm, wordBytes]
  omega

theorem addAlImm8 (imm : Byte) : Statement (.addAlImm8 imm) := by
  rfl

theorem addAxImm16 (imm : Word) : Statement (.addAxImm16 imm) := by
  rfl

theorem recMovReg (dst src : Reg16) : Statement (.recMovReg dst src) := by
  rfl

theorem recMovImm (dst : Reg16) (imm : Word) : Statement (.recMovImm dst imm) := by
  rfl

theorem recAddReg (dst src : Reg16) : Statement (.recAddReg dst src) := by
  rfl

theorem recAddImm (dst : Reg16) (imm : Word) : Statement (.recAddImm dst imm) := by
  rfl

theorem recSubReg (dst src : Reg16) : Statement (.recSubReg dst src) := by
  rfl

theorem recSubImm (dst : Reg16) (imm : Word) : Statement (.recSubImm dst imm) := by
  rfl

theorem recCmpReg (dst src : Reg16) : Statement (.recCmpReg dst src) := by
  rfl

theorem recCmpImm (dst : Reg16) (imm : Word) : Statement (.recCmpImm dst imm) := by
  rfl

end Sys2Proof.Laws.EncodedLength

namespace Sys2Proof.Laws.RecordInRange

open Sys2Proof.Machine

/-- The record of an instruction names no register index outside 0 to 7. -/
def Statement (i : Instr) : Prop := recordInRange i.record = true

theorem movRm8R8 (dst : RegMem Reg8) (src : Reg8) : Statement (.movRm8R8 dst src) := by
  simp [Statement, recordInRange, Instr.record, operandInRange_rm8, operandInRange_reg8]

theorem movRm16R16 (dst : RegMem Reg16) (src : Reg16) : Statement (.movRm16R16 dst src) := by
  simp [Statement, recordInRange, Instr.record, operandInRange_rm16, operandInRange_reg16]

theorem movR8Rm8 (dst : Reg8) (src : RegMem Reg8) : Statement (.movR8Rm8 dst src) := by
  simp [Statement, recordInRange, Instr.record, operandInRange_rm8, operandInRange_reg8]

theorem movR16Rm16 (dst : Reg16) (src : RegMem Reg16) : Statement (.movR16Rm16 dst src) := by
  simp [Statement, recordInRange, Instr.record, operandInRange_rm16, operandInRange_reg16]

theorem movR8Imm8 (dst : Reg8) (imm : Byte) : Statement (.movR8Imm8 dst imm) := by
  simp [Statement, recordInRange, Instr.record, operandInRange_reg8, operandInRange_imm8]

theorem movR16Imm16 (dst : Reg16) (imm : Word) : Statement (.movR16Imm16 dst imm) := by
  simp [Statement, recordInRange, Instr.record, operandInRange_reg16, operandInRange_imm16]

theorem addRm8R8 (dst : RegMem Reg8) (src : Reg8) : Statement (.addRm8R8 dst src) := by
  simp [Statement, recordInRange, Instr.record, operandInRange_rm8, operandInRange_reg8]

theorem addRm16R16 (dst : RegMem Reg16) (src : Reg16) : Statement (.addRm16R16 dst src) := by
  simp [Statement, recordInRange, Instr.record, operandInRange_rm16, operandInRange_reg16]

theorem addR8Rm8 (dst : Reg8) (src : RegMem Reg8) : Statement (.addR8Rm8 dst src) := by
  simp [Statement, recordInRange, Instr.record, operandInRange_rm8, operandInRange_reg8]

theorem addR16Rm16 (dst : Reg16) (src : RegMem Reg16) : Statement (.addR16Rm16 dst src) := by
  simp [Statement, recordInRange, Instr.record, operandInRange_rm16, operandInRange_reg16]

theorem addRm8Imm8 (dst : RegMem Reg8) (imm : Byte) : Statement (.addRm8Imm8 dst imm) := by
  simp [Statement, recordInRange, Instr.record, operandInRange_rm8, operandInRange_imm8]

theorem addRm16Imm16 (dst : RegMem Reg16) (imm : Word) : Statement (.addRm16Imm16 dst imm) := by
  simp [Statement, recordInRange, Instr.record, operandInRange_rm16, operandInRange_imm16]

theorem addAlImm8 (imm : Byte) : Statement (.addAlImm8 imm) := by
  simp [Statement, recordInRange, Instr.record, operandInRange_reg8, operandInRange_imm8]

theorem addAxImm16 (imm : Word) : Statement (.addAxImm16 imm) := by
  simp [Statement, recordInRange, Instr.record, operandInRange_reg16, operandInRange_imm16]

theorem recMovReg (dst src : Reg16) : Statement (.recMovReg dst src) := by
  simp [Statement, recordInRange, Instr.record, operandInRange_reg16]

theorem recMovImm (dst : Reg16) (imm : Word) : Statement (.recMovImm dst imm) := by
  simp [Statement, recordInRange, Instr.record, operandInRange_reg16, operandInRange_imm16]

theorem recAddReg (dst src : Reg16) : Statement (.recAddReg dst src) := by
  simp [Statement, recordInRange, Instr.record, operandInRange_reg16]

theorem recAddImm (dst : Reg16) (imm : Word) : Statement (.recAddImm dst imm) := by
  simp [Statement, recordInRange, Instr.record, operandInRange_reg16, operandInRange_imm16]

theorem recSubReg (dst src : Reg16) : Statement (.recSubReg dst src) := by
  simp [Statement, recordInRange, Instr.record, operandInRange_reg16]

theorem recSubImm (dst : Reg16) (imm : Word) : Statement (.recSubImm dst imm) := by
  simp [Statement, recordInRange, Instr.record, operandInRange_reg16, operandInRange_imm16]

theorem recCmpReg (dst src : Reg16) : Statement (.recCmpReg dst src) := by
  simp [Statement, recordInRange, Instr.record, operandInRange_reg16]

theorem recCmpImm (dst : Reg16) (imm : Word) : Statement (.recCmpImm dst imm) := by
  simp [Statement, recordInRange, Instr.record, operandInRange_reg16, operandInRange_imm16]

end Sys2Proof.Laws.RecordInRange
end

