-- ==== Sys2Proof/Laws/Step.lean ====
section
/-! SUPPORT. Everything one step can do, said once (44_controller R210 to R219): the later proofs take the cases from
here and do not unfold `step`. -/

namespace Sys2Proof.Machine

/-- With two bytes left, `decodeAt` never reads out of bounds (20_memory R62). -/
theorem decodeAt_inBounds {ext : Bool} {st : Stream} {pc : Nat} (h : pc + 2 ≤ st.len) :
    decodeAt ext st pc ≠ .outOfBounds := by
  obtain ⟨b0, h0⟩ := Stream.memRead1_of_lt (st := st) (a := pc) (by omega)
  obtain ⟨b1, h1⟩ := Stream.memRead1_of_lt (st := st) (a := pc + 1) (by omega)
  rw [decodeAt_eq h0 h1]
  split
  · simp
  · split
    · simp
    · obtain ⟨i, hi, -⟩ := decodeOperands_of_le (st := st) (pc := pc) (Nat.le_of_not_gt (by assumption))
      simp [hi]

/-- What a successful decode says: the family, the length check passed, and the operands read. -/
theorem decodeAt_ok {ext : Bool} {st : Stream} {pc : Nat} {i : Instr} (h : decodeAt ext st pc = .ok i) :
    ∃ b0 b1 f, st.memRead1 pc = some b0 ∧ st.memRead1 (pc + 1) = some b1 ∧ classify ext b0 b1 = some f ∧
      pc + insnLength f b0 b1 ≤ st.len ∧ decodeOperands f st pc b0 b1 = some i ∧ i.length = insnLength f b0 b1 ∧
      i.wellFormed = true ∧ i.onRecordPort = false := by
  cases h0 : st.memRead1 pc with
  | none => simp [decodeAt, h0] at h
  | some b0 =>
    cases h1 : st.memRead1 (pc + 1) with
    | none => simp [decodeAt, h0, h1] at h
    | some b1 =>
      rw [decodeAt_eq h0 h1] at h
      cases hc : classify ext b0 b1 with
      | none => simp [hc] at h
      | some f =>
        simp only [hc] at h
        split at h
        · cases h
        · rename_i hl
          obtain ⟨j, hj, hlen, hw, hp⟩ := decodeOperands_of_le (st := st) (pc := pc) (Nat.le_of_not_gt hl)
          rw [hj] at h
          cases h
          exact ⟨b0, b1, f, rfl, rfl, hc, Nat.le_of_not_gt hl, hj, hlen, hw, hp⟩

/-- The instruction of a well-formed record is a record-port form (10_state R31). -/
theorem Record.instr_onRecordPort {r : Record} {i : Instr} (h : r.instr = some i) : i.onRecordPort = true := by
  obtain ⟨m, d, s, l⟩ := r
  unfold Record.instr at h
  split at h
  · split at h
    · cases m <;> cases h <;> rfl
    · cases h
  · split at h
    · cases m <;> cases h <;> rfl
    · cases h
  · cases h

theorem decodeXrec_onRecordPort {x : BitVec 24} {i : Instr} (h : decodeXrec x = some i) : i.onRecordPort = true := by
  unfold decodeXrec at h
  split at h
  · cases h
  · split at h
    · cases h; unfold xrecImm; split <;> rfl
    · split at h
      · cases h
      · cases h; unfold xrecReg; split <;> rfl

/-- Every way a step goes (R213, R219, R220). -/
theorem step_cases (s : State) :
    (s.status ≠ .run ∧ step s = .next s) ∨
    (s.status = .run ∧ s.inputs.mode ≠ .recordExec ∧
      ((s.inputs.stream.len - s.pc < 2 ∧ step s = .next s.finish) ∨
       (s.pc + 2 ≤ s.inputs.stream.len ∧
        ((decodeAt s.inputs.extCheck s.inputs.stream s.pc = .unknown ∧ step s = .next s.onUnknown) ∨
         (∃ n, decodeAt s.inputs.extCheck s.inputs.stream s.pc = .truncated n ∧
           step s = .next (s.raise .truncated s.pc)) ∨
         (∃ i, decodeAt s.inputs.extCheck s.inputs.stream s.pc = .ok i ∧ i.onRecordPort = false ∧ step s = exec i s ∧
           ((s.inputs.mode = .disasm ∧ step s = .next ((s.emit i.record).advance i.length)) ∨
            (s.inputs.mode = .decodeExec ∧ step s = .next ((s.emit i.record).executeAndAdvance i.record))))))))  ∨
    (s.status = .run ∧ s.inputs.mode = .recordExec ∧
      ((s.inputs.records[s.rpc]? = none ∧ step s = .next s.finish) ∨
       (∃ item, s.inputs.records[s.rpc]? = some item ∧
        (step s = .next (s.raise .invariantViolation s.rpc) ∨ ∃ rec, step s = .next (s.executeRecord rec))))) := by
  by_cases hs : s.status = .run
  · right
    have hf : fetch s = match s.inputs.mode with
        | .disasm => fetchStream s
        | .decodeExec => fetchStream s
        | .recordExec => fetchRecord s := by
      simp only [fetch, hs, ne_eq, not_true_eq_false, if_false] <;> rfl
    by_cases hm : s.inputs.mode = .recordExec
    · right
      refine ⟨hs, hm, ?_⟩
      simp only [hm] at hf
      unfold fetchRecord at hf
      cases hr : s.inputs.records[s.rpc]? with
      | none => left; simp only [hr] at hf; simp [step, hf]
      | some item =>
        right
        simp only [hr] at hf
        refine ⟨item, rfl, ?_⟩
        cases item with
        | packed x =>
          cases hx : decodeXrec x with
          | none => left; simp only [fetchItem, hx] at hf; simp [step, hf]
          | some i =>
            right
            simp only [fetchItem, hx] at hf
            exact ⟨i.record, by
              simp only [step, hf, exec_of_port s (decodeXrec_onRecordPort hx), takeFromPort_recordExec _ hs hm]⟩
        | abstract rec =>
          by_cases hrange : recordInRange rec = true
          · right
            cases hi : rec.instr with
            | none => simp only [fetchItem, hrange, hi, if_true] at hf; exact ⟨rec, by simp only [step, hf]⟩
            | some i =>
              simp only [fetchItem, hrange, hi, if_true] at hf
              exact ⟨i.record, by
                simp only [step, hf, exec_of_port s (Record.instr_onRecordPort hi), takeFromPort_recordExec _ hs hm]⟩
          · left
            simp only [fetchItem, hrange] at hf
            simp [step, hf]
    · left
      refine ⟨hs, hm, ?_⟩
      have hf' : fetch s = fetchStream s := by
        rw [hf]
        cases hmode : s.inputs.mode with
        | disasm => rfl
        | decodeExec => rfl
        | recordExec => exact absurd hmode hm
      unfold fetchStream at hf'
      by_cases hl : s.inputs.stream.len - s.pc < 2
      · left
        simp only [Config.minLen, hl, if_true] at hf'
        exact ⟨hl, by simp only [step, hf']⟩
      · right
        simp only [Config.minLen, hl, if_false] at hf'
        refine ⟨by omega, ?_⟩
        cases hd : decodeAt s.inputs.extCheck s.inputs.stream s.pc with
        | unknown => left; exact ⟨rfl, by simp only [step, hf', hd]⟩
        | truncated n => right; left; exact ⟨n, rfl, by simp only [step, hf', hd]⟩
        | outOfBounds => exact absurd hd (decodeAt_inBounds (by omega))
        | ok i =>
          right; right
          obtain ⟨-, -, -, -, -, -, -, -, -, -, hp⟩ := decodeAt_ok hd
          have hstep : step s = exec i s := by simp only [step, hf', hd]
          refine ⟨i, rfl, hp, hstep, ?_⟩
          cases hmode : s.inputs.mode with
          | disasm =>
            exact .inl ⟨rfl, by rw [hstep, exec_of_stream s hp, takeFromStream_disasm _ hs hmode, length_record]⟩
          | decodeExec =>
            exact .inr ⟨rfl, by rw [hstep, exec_of_stream s hp, takeFromStream_decodeExec _ hs hmode]⟩
          | recordExec => exact absurd hmode hm
  · left
    exact ⟨hs, by simp [step, fetch, hs]⟩

/-! ### The same, as one inductive relation with everything known on each way -/

theorem fetch_of_stream {s : State} (hs : s.status = .run) (hm : s.inputs.mode ≠ .recordExec) :
    fetch s = fetchStream s := by
  unfold fetch
  cases h : s.inputs.mode <;> simp_all

theorem fetch_of_item {s : State} {item : PortItem} (hs : s.status = .run) (hm : s.inputs.mode = .recordExec)
    (hi : s.inputs.records[s.rpc]? = some item) : fetch s = fetchItem s item := by
  simp [fetch, hs, hm, fetchRecord, hi]

/-- What is decoded lies wholly inside the stream and has 2 to 6 bytes. -/
theorem length_of_decodeAt_ok {ext : Bool} {st : Stream} {pc : Nat} {i : Instr} (h : decodeAt ext st pc = .ok i) :
    pc + i.length ≤ st.len ∧ 2 ≤ i.length ∧ i.length ≤ 6 := by
  obtain ⟨b0, b1, f, -, -, -, hl, -, hlen, -, -⟩ := decodeAt_ok h
  have := insnLength_bounds f b0 b1
  omega

/-- A record that stands for no instruction does not execute (40_execute_engine R142). -/
theorem execute_of_instr_none {rec : Record} (rf : RegFile) (fl : Flags) (h : rec.instr = none) :
    execute rec rf fl = none := by
  obtain ⟨m, d, s, l⟩ := rec
  rw [execute_eq_none_iff]
  match d, s with
  | .register .word i, .register .word j =>
    simp only [Record.instr] at h
    simp only [destIndex, srcValue]
    cases hi : Reg16.ofRecordIndex i with
    | none => exact .inl rfl
    | some a =>
      cases hj : Reg16.ofRecordIndex j with
      | none => exact .inr rfl
      | some b => rw [hi, hj] at h; cases m <;> cases h
  | .register .word i, .immediate v w =>
    simp only [Record.instr] at h
    simp only [destIndex]
    cases hi : Reg16.ofRecordIndex i with
    | none => exact .inl rfl
    | some a => rw [hi] at h; cases m <;> cases h
  | .register .word _, .register .byte _ => exact .inr rfl
  | .register .word _, .memory _ _ _ => exact .inr rfl
  | .register .word _, .direct _ => exact .inr rfl
  | .register .byte _, _ => exact .inl rfl
  | .memory _ _ _, _ => exact .inl rfl
  | .direct _, _ => exact .inl rfl
  | .immediate _ _, _ => exact .inl rfl

/-- `StepTo s t`: the ways from `s` to the next state `t`. -/
inductive StepTo (s : State) : State → Prop
  | stopped (hs : s.status ≠ .run) : StepTo s s
  | streamEnds (hs : s.status = .run) (hm : s.inputs.mode ≠ .recordExec) (hl : s.inputs.stream.len - s.pc < 2) :
      StepTo s s.finish
  | unknownStrict (hs : s.status = .run) (hm : s.inputs.mode ≠ .recordExec) (hl : s.pc + 2 ≤ s.inputs.stream.len)
      (hd : decodeAt s.inputs.extCheck s.inputs.stream s.pc = .unknown)
      (hp : s.inputs.unknownOpcodePolicy = .strict) : StepTo s (s.raise .unknownOpcode s.pc)
  | unknownSkipped (hs : s.status = .run) (hm : s.inputs.mode ≠ .recordExec) (hl : s.pc + 2 ≤ s.inputs.stream.len)
      (hd : decodeAt s.inputs.extCheck s.inputs.stream s.pc = .unknown)
      (hp : s.inputs.unknownOpcodePolicy = .permissive) : StepTo s (s.advance 1)
  | truncated (n : Nat) (hs : s.status = .run) (hm : s.inputs.mode ≠ .recordExec)
      (hl : s.pc + 2 ≤ s.inputs.stream.len)
      (hd : decodeAt s.inputs.extCheck s.inputs.stream s.pc = .truncated n) : StepTo s (s.raise .truncated s.pc)
  | disassembled (i : Instr) (hs : s.status = .run) (hm : s.inputs.mode = .disasm)
      (hd : decodeAt s.inputs.extCheck s.inputs.stream s.pc = .ok i) : StepTo s ((s.emit i.record).advance i.length)
  | executed (i : Instr) (x : RegFile × Flags) (hs : s.status = .run) (hm : s.inputs.mode = .decodeExec)
      (hd : decodeAt s.inputs.extCheck s.inputs.stream s.pc = .ok i)
      (hx : execute i.record s.regs s.flags = some x) : StepTo s (((s.emit i.record).commit x).advance i.length)
  | executionHalted (i : Instr) (hs : s.status = .run) (hm : s.inputs.mode = .decodeExec)
      (hd : decodeAt s.inputs.extCheck s.inputs.stream s.pc = .ok i) (hx : execute i.record s.regs s.flags = none)
      (hp : s.inputs.execFaultPolicy = .halt) : StepTo s ((s.emit i.record).raise .execLookup s.pc)
  | executionRejected (i : Instr) (hs : s.status = .run) (hm : s.inputs.mode = .decodeExec)
      (hd : decodeAt s.inputs.extCheck s.inputs.stream s.pc = .ok i) (hx : execute i.record s.regs s.flags = none)
      (hp : s.inputs.execFaultPolicy = .rejectAndContinue) :
      StepTo s (((s.emit i.record).reject s.pc).advance i.length)
  | recordsEnd (hs : s.status = .run) (hm : s.inputs.mode = .recordExec) (hr : s.inputs.records[s.rpc]? = none) :
      StepTo s s.finish
  | recordIllFormed (item : PortItem) (hs : s.status = .run) (hm : s.inputs.mode = .recordExec)
      (hr : s.inputs.records[s.rpc]? = some item) (hf : fetch s = .settled (s.raise .invariantViolation s.rpc)) :
      StepTo s (s.raise .invariantViolation s.rpc)
  | recordExecuted (item : PortItem) (i : Instr) (x : RegFile × Flags) (hs : s.status = .run)
      (hm : s.inputs.mode = .recordExec) (hr : s.inputs.records[s.rpc]? = some item) (hf : fetch s = .take i)
      (hx : execute i.record s.regs s.flags = some x) : StepTo s ((s.commit x).nextRecord)
  | recordHalted (item : PortItem) (hs : s.status = .run) (hm : s.inputs.mode = .recordExec)
      (hr : s.inputs.records[s.rpc]? = some item) (hp : s.inputs.execFaultPolicy = .halt) :
      StepTo s (s.raise .execLookup s.rpc)
  | recordRejected (item : PortItem) (hs : s.status = .run) (hm : s.inputs.mode = .recordExec)
      (hr : s.inputs.records[s.rpc]? = some item) (hp : s.inputs.execFaultPolicy = .rejectAndContinue) :
      StepTo s ((s.reject s.rpc).nextRecord)

theorem stepTo_executeRecord {s : State} {item : PortItem} {rec : Record} (hs : s.status = .run)
    (hm : s.inputs.mode = .recordExec) (hr : s.inputs.records[s.rpc]? = some item)
    (hx : ∀ x, execute rec s.regs s.flags = some x → ∃ i : Instr, fetch s = .take i ∧ i.record = rec) :
    StepTo s (s.executeRecord rec) := by
  rcases executeRecord_cases s rec with ⟨x, h, e⟩ | ⟨-, hp, e⟩ | ⟨-, hp, e⟩ <;> rw [e]
  · obtain ⟨i, hf, rfl⟩ := hx x h
    exact .recordExecuted item i x hs hm hr hf h
  · exact .recordHalted item hs hm hr hp
  · exact .recordRejected item hs hm hr hp

/-- Every step goes one of these ways. -/
theorem stepTo_of_step {s t : State} (h : step s = .next t) : StepTo s t := by
  by_cases hs : s.status = .run
  rotate_left
  · have ht : t = s := by simp [step, fetch, hs] at h; exact h.symm
    subst ht
    exact .stopped hs
  by_cases hm : s.inputs.mode = .recordExec
  · cases hi : s.inputs.records[s.rpc]? with
    | none =>
      have ht : t = s.finish := by simp [step, fetch, hs, hm, fetchRecord, hi] at h; exact h.symm
      subst ht
      exact .recordsEnd hs hm hi
    | some item =>
      have hf := fetch_of_item hs hm hi
      cases item with
      | packed x =>
        cases hx : decodeXrec x with
        | none =>
          simp [step, hf, fetchItem, hx] at h
          subst h
          exact .recordIllFormed _ hs hm hi (by simp [hf, fetchItem, hx])
        | some i =>
          simp [step, hf, fetchItem, hx, exec_of_port s (decodeXrec_onRecordPort hx),
            takeFromPort_recordExec _ hs hm] at h
          subst h
          exact stepTo_executeRecord hs hm hi (fun x _ => ⟨i, by simp [hf, fetchItem, hx], rfl⟩)
      | abstract rec =>
        cases hr : recordInRange rec with
        | false =>
          simp [step, hf, fetchItem, hr] at h
          subst h
          exact .recordIllFormed _ hs hm hi (by simp [hf, fetchItem, hr])
        | true =>
          cases hri : rec.instr with
          | none =>
            simp [step, hf, fetchItem, hr, hri] at h
            subst h
            refine stepTo_executeRecord hs hm hi (fun x hx => ?_)
            rw [execute_of_instr_none _ _ hri] at hx
            cases hx
          | some i =>
            simp [step, hf, fetchItem, hr, hri, exec_of_port s (Record.instr_onRecordPort hri),
              takeFromPort_recordExec _ hs hm] at h
            subst h
            refine stepTo_executeRecord hs hm hi (fun x _ => ⟨i, by simp [hf, fetchItem, hr, hri], rfl⟩)
  · rcases step_cases s with ⟨h', -⟩ | ⟨-, -, h'⟩ | ⟨-, h', -⟩
    · exact absurd hs h'
    · rcases h' with ⟨hl, h'⟩ | ⟨hl, ⟨hd, h'⟩ | ⟨n, hd, h'⟩ | ⟨i, hd, -, -, ⟨hmode, h'⟩ | ⟨hmode, h'⟩⟩⟩
      all_goals rw [h'] at h; cases h
      · exact .streamEnds hs hm hl
      · cases hp : s.inputs.unknownOpcodePolicy with
        | strict => simp only [State.onUnknown, hp]; exact .unknownStrict hs hm hl hd hp
        | permissive => simp only [State.onUnknown, hp]; exact .unknownSkipped hs hm hl hd hp
      · exact .truncated n hs hm hl hd
      · exact .disassembled i hs hmode hd
      · rcases executeAndAdvance_cases (s.emit i.record) i.record with ⟨x, hx, e⟩ | ⟨hn, hp, e⟩ | ⟨hn, hp, e⟩ <;>
          rw [e]
        · rw [length_record]; exact .executed i x hs hmode hd hx
        · exact .executionHalted i hs hmode hd hn hp
        · rw [length_record]; exact .executionRejected i hs hmode hd hn hp
    · exact absurd h' hm

end Sys2Proof.Machine
end

