-- ==== Sys2Proof/Tests/Slice0.lean ====
section
/-! SUPPORT. Our own tests: ill-formed terms that each check refuses; every constructor's decoding from bytes written out bit
by bit from the spec's encoding; single steps whose expected results are the spec's own vectors (95_test_vectors, cited by
their ids) or hand calculation from its rules; and, for every obligation with hypotheses, states and operands that meet
them. -/

namespace Sys2Proof.Tests

open Sys2Proof.Machine

/-! ### Small states -/

/-- Reset with these inputs changed: a stream in `DECODE_EXEC`, the defaults of 00_scope R5. -/
def onBytes (bs : List Byte) : State := State.resetWith (false, false) { Inputs.default with stream := Stream.ofBytes bs }

/-- Reset with these records, in `RECORD_EXEC`. -/
def onItems (items : List PortItem) : State :=
  State.resetWith (false, false) { Inputs.default with records := items, mode := .recordExec }

/-- The same state in another mode. -/
def inMode (m : Mode) (s : State) : State := { s with inputs := { s.inputs with mode := m } }

/-- The same state under `reject_and_continue`. -/
def rejecting (s : State) : State := { s with inputs := { s.inputs with execFaultPolicy := .rejectAndContinue } }

/-- The same state under the permissive policy. -/
def permissive (s : State) : State := { s with inputs := { s.inputs with unknownOpcodePolicy := .permissive } }

/-- The same state with one register set. -/
def withReg (r : Reg16) (v : Word) (s : State) : State := { s with regs := s.regs.set r v }

/-- The same state with these flags. -/
def withFlags (zf sf : Bool) (s : State) : State := { s with flags := ⟨zf, sf⟩ }

/-- The next state, if the outcome is one. -/
def nextState : Host.Outcome State Fault Refusal → Option State
  | .next t => some t
  | .fault _ => none
  | .refused _ => none

/-- The fault, if the outcome is one. -/
def faultOf : Host.Outcome State Fault Refusal → Option Fault
  | .next _ => none
  | .fault f => some f
  | .refused _ => none

/-- A next state with a property that `decide` can find. -/
theorem exists_next {o : Host.Outcome State Fault Refusal} {p : State → Bool} (h : (nextState o).any p = true) :
    ∃ t, o = .next t ∧ p t = true := by
  cases o with
  | next t => exact ⟨t, rfl, by simpa [nextState] using h⟩
  | fault _ => cases h
  | refused _ => cases h

/-- One register, the flags and `pc` of the next state. -/
def seen (r : Reg16) (o : Host.Outcome State Fault Refusal) : Option (Word × Flags × Nat) :=
  (nextState o).map fun t => (t.regs.get r, t.flags, t.pc)

/-- One register, the flags and `rpc` of the next state. -/
def seenRpc (r : Reg16) (o : Host.Outcome State Fault Refusal) : Option (Word × Flags × Nat) :=
  (nextState o).map fun t => (t.regs.get r, t.flags, t.rpc)

/-- Status, fault record, sticky bit, `pc` and how many entries the trace has. -/
def ended (o : Host.Outcome State Fault Refusal) : Option (Status × Option Nat × Bool × Nat × Nat) :=
  (nextState o).map fun t => (t.status, t.faultInfo, t.execRejected, t.pc, t.out.length)

/-! ### WellFormed refuses -/

theorem test_illformed_bp_without_displacement : (Instr.movRm16R16 (.mem .bp .none 0) .ax).wellFormed = false := by decide
theorem test_illformed_displacement_without_bytes : (Instr.movRm8R8 (.mem .si .none 1) .al).wellFormed = false := by decide
theorem test_illformed_d8_above : (Instr.movR16Rm16 .ax (.mem .bx .d8 128)).wellFormed = false := by decide
theorem test_illformed_d8_below : (Instr.movR8Rm8 .al (.mem .bx .d8 (-129))).wellFormed = false := by decide
theorem test_illformed_in_every_memory_form :
    (Instr.addRm8R8 (.mem .bp .none 0) .al).wellFormed = false ∧
    (Instr.addRm16R16 (.mem .bx .d8 128) .ax).wellFormed = false ∧
    (Instr.addR8Rm8 .al (.mem .bp .none 0)).wellFormed = false ∧
    (Instr.addR16Rm16 .ax (.mem .di .none 2)).wellFormed = false ∧
    (Instr.addRm8Imm8 (.mem .bp .none 0) 5).wellFormed = false ∧
    (Instr.addRm16Imm16 (.mem .bx .d8 (-200)) 5).wellFormed = false := by decide
theorem test_wellformed_boundaries :
    (Instr.movR16Rm16 .di (.mem .bx .d8 127)).wellFormed = true ∧
    (Instr.movR16Rm16 .di (.mem .bp .d8 (-128))).wellFormed = true ∧
    (Instr.movR16Rm16 .bx (.mem .bxSi .d16 0x8000)).wellFormed = true ∧
    (Instr.movR16Rm16 .si (.direct 65535)).wellFormed = true ∧ (Instr.movRm16R16 (.mem .bx .none 0) .ax).wellFormed = true := by
  decide
theorem test_illformed_record_byte_destination :
    (⟨.ADD, .register .byte 0, .immediate 5 .word, 0⟩ : Record).wellFormed = false := by decide
theorem test_illformed_record_memory_source :
    (⟨.MOV, .register .word 0, .memory .bx .none 0, 0⟩ : Record).wellFormed = false := by decide
theorem test_illformed_record_immediate_destination :
    (⟨.MOV, .immediate 1 .word, .register .word 0, 0⟩ : Record).wellFormed = false := by decide
theorem test_illformed_record_index :
    (⟨.MOV, .register .word 8, .register .word 0, 0⟩ : Record).wellFormed = false ∧
    (⟨.MOV, .register .word 7, .register .word 8, 0⟩ : Record).wellFormed = false ∧
    (⟨.MOV, .register .word 7, .register .word 7, 0⟩ : Record).wellFormed = true := by decide

/-! ### Decoding: each constructor from its bits (30_encoding R70 to R74, R78, R95) -/

/-- Decoding at offset 0 with the extension check on. -/
def dec (bs : List Byte) : Decoded := decodeAt true (Stream.ofBytes bs) 0

-- F-RM, R71: 6 opcode bits, d, w; then mod, reg, rm
theorem test_decode_movRm8R8 : dec [0b100010_0_0#8, 0b11_011_001#8] = .ok (.movRm8R8 (.reg .cl) .bl) := by decide
theorem test_decode_movRm16R16 : dec [0b100010_0_1#8, 0b01_000_110#8, 0b00111100#8] =
    .ok (.movRm16R16 (.mem .bp .d8 60) .ax) := by decide
theorem test_decode_movR8Rm8 : dec [0b100010_1_0#8, 0b00_000_000#8] = .ok (.movR8Rm8 .al (.mem .bxSi .none 0)) := by decide
theorem test_decode_movR16Rm16 : dec [0b100010_1_1#8, 0b10_011_100#8, 0b11001100#8, 0b11101101#8] =
    .ok (.movR16Rm16 .bx (.mem .si .d16 (-4660))) := by decide
theorem test_decode_addRm8R8 : dec [0b000000_0_0#8, 0b11_011_000#8] = .ok (.addRm8R8 (.reg .al) .bl) := by decide
theorem test_decode_addRm16R16 : dec [0b000000_0_1#8, 0b01_011_110#8, 0b11111110#8] =
    .ok (.addRm16R16 (.mem .bp .d8 (-2)) .bx) := by decide
theorem test_decode_addR8Rm8 : dec [0b000000_1_0#8, 0b11_011_000#8] = .ok (.addR8Rm8 .bl (.reg .al)) := by decide
theorem test_decode_addR16Rm16 : dec [0b000000_1_1#8, 0b00_000_111#8] = .ok (.addR16Rm16 .ax (.mem .bx .none 0)) := by decide
-- F-IR, R72: 1011, w, reg
theorem test_decode_movR8Imm8 : dec [0b1011_0_111#8, 0b00000101#8] = .ok (.movR8Imm8 .bh 5) := by decide
theorem test_decode_movR16Imm16 : dec [0b1011_1_001#8, 0b00001100#8, 0b00000000#8] = .ok (.movR16Imm16 .cx 12) := by decide
-- F-IRM, R73: 1000000, w; mod, 000, rm; displacement; immediate
theorem test_decode_addRm8Imm8 : dec [0b1000000_0#8, 0b10_000_110#8, 0b11101000#8, 0b00000011#8, 0b00000101#8] =
    .ok (.addRm8Imm8 (.mem .bp .d16 1000) 5) := by decide
theorem test_decode_addRm16Imm16 : dec [0b1000000_1#8, 0b00_000_110#8, 0b00110000#8, 0b00000000#8, 0b11101000#8, 0b00000011#8] =
    .ok (.addRm16Imm16 (.direct 48) 1000) := by decide
-- F-AI, R74: 0000010, w
theorem test_decode_addAlImm8 : dec [0b0000010_0#8, 0b11111111#8] = .ok (.addAlImm8 (-1)) := by decide
theorem test_decode_addAxImm16 : dec [0b0000010_1#8, 0b00110100#8, 0b00010010#8] = .ok (.addAxImm16 0x1234) := by decide
-- XREC, R95: op, k, 00, dst, v
theorem test_decode_recMovReg : decodeXrec 0b00_0_00_011_0000000000000_000#24 = some (.recMovReg .bx .ax) := by decide
theorem test_decode_recMovImm : decodeXrec 0b00_1_00_110_1111111111111111#24 = some (.recMovImm .si (-1)) := by decide
theorem test_decode_recAddReg : decodeXrec 0b01_0_00_000_0000000000000_011#24 = some (.recAddReg .ax .bx) := by decide
theorem test_decode_recAddImm : decodeXrec 0b01_1_00_111_0000000000000011#24 = some (.recAddImm .di 3) := by decide
theorem test_decode_recSubReg : decodeXrec 0b10_0_00_001_0000000000000_010#24 = some (.recSubReg .cx .dx) := by decide
theorem test_decode_recSubImm : decodeXrec 0b10_1_00_101_0000000000000001#24 = some (.recSubImm .bp 1) := by decide
theorem test_decode_recCmpReg : decodeXrec 0b11_0_00_001_0000000000000_010#24 = some (.recCmpReg .cx .dx) := by decide
theorem test_decode_recCmpImm : decodeXrec 0b11_1_00_001_1111111110011100#24 = some (.recCmpImm .cx (-100)) := by decide

-- the base table (R81), M6 to M12, and the direct address (R83), M13
theorem test_decode_bases :
    [0x00#8, 0x01#8, 0x02#8, 0x03#8, 0x04#8, 0x05#8, 0x07#8].map (fun b1 => dec [0x89, b1]) =
    [Base.bxSi, .bxDi, .bpSi, .bpDi, .si, .di, .bx].map (fun b => .ok (.movRm16R16 (.mem b .none 0) .ax)) := by decide
theorem test_decode_direct : dec [0x8B, 0x06, 0x1E, 0x00] = .ok (.movR16Rm16 .ax (.direct 30)) := by decide

-- refused, section 2.3: F1, F3 to F14 with the check on; F1 and F3 with it off
theorem test_refused : [[0x80#8, 0xEF, 0x05], [0x81, 0x28, 0x05, 0x00], [0x83, 0xC3, 0x05], [0x90, 0x90], [0x29, 0xD8], [0x39, 0xD8],
    [0x74, 0x02], [0x2E, 0x8B, 0x07], [0x8C, 0x00], [0x06, 0x00], [0x0C, 0x05], [0xA0, 0, 0], [0xC6, 7, 5], [0xFF, 0xFF]].all
      (fun bs => dec bs == .unknown) = true := by decide
theorem test_without_extension_check :
    decodeAt false (Stream.ofBytes [0x80, 0xEF, 0x05]) 0 = .ok (.addRm8Imm8 (.reg .bh) 5) ∧
    decodeAt false (Stream.ofBytes [0x83, 0xC3, 0x05]) 0 = .unknown := by decide
theorem test_truncated : dec [0x8B, 0x06, 0x1E] = .truncated 4 ∧ dec [0xB8, 0x02] = .truncated 3 := by decide
theorem test_ill_formed_xrec : decodeXrec 0x080000 = none ∧ decodeXrec 0x100000 = none ∧ decodeXrec 0x000008 = none := by decide

-- the numbering of spec/opcode_table.json: its rows' "match" with the operand bits of their examples
theorem test_table_words :
    decodeTableWord 16 0x88D9 = some (.movRm8R8 (.reg .cl) .bl) ∧ decodeTableWord 16 0x8107 = some (.addRm16Imm16 (.mem .bx .none 0) 0) ∧
    decodeTableWord 16 0xB800 = some (.movR16Imm16 .ax 0) ∧ decodeTableWord 16 0x9090 = none ∧
    decodeTableWord 24 0x000003 = some (.recMovReg .ax .bx) ∧ decodeTableWord 24 0x080000 = none := by decide

/-! ### Text (30_encoding R96 to R100) -/

theorem test_text_elision :
    render (Instr.movR16Rm16 .ax (.mem .bp .d8 0)).record = "mov ax, [bp]" ∧
    render (Instr.movR16Rm16 .ax (.mem .bp .d16 0)).record = "mov ax, [bp + 0]" ∧
    render (Instr.movR16Rm16 .ax (.mem .bx .d8 0)).record = "mov ax, [bx + 0]" := by decide
theorem test_text_negative :
    render (Instr.movR16Rm16 .bx (.mem .bxSi .d16 0x8000)).record = "mov bx, [bx + si - 32768]" ∧
    render (Instr.movR16Rm16 .si (.direct 65535)).record = "mov si, [65535]" ∧
    render (Instr.addAlImm8 0xFF).record = "add al, -1" := by decide
theorem test_text_size_keyword :
    render (Instr.addRm8Imm8 (.mem .bp .d16 1000) 5).record = "add byte [bp + 1000], 5" ∧
    render (Instr.addRm16Imm16 (.direct 48) 1000).record = "add word [48], 1000" ∧
    render (Instr.addRm8Imm8 (.reg .bl) 5).record = "add bl, 5" := by decide

/-! ### Single steps -/

-- executable stream forms, from the bytes
theorem test_step_movRm16R16 : seen .cx (step (withReg .bx 0x1234 (onBytes [0x89, 0xD9]))) =
    some (0x1234, ⟨false, false⟩, 2) := by decide
theorem test_step_movR16Rm16 : seen .bx (step (withFlags true true (withReg .cx 0x1234 (onBytes [0x8B, 0xD9])))) =
    some (0x1234, ⟨true, true⟩, 2) := by decide
theorem test_step_movR16Imm16 : seen .ax (step (onBytes [0xB8, 0x00, 0x80])) = some (0x8000, ⟨false, false⟩, 3) := by decide
theorem test_step_addRm16R16 : seen .ax (step (withReg .ax 0x4321 (onBytes [0x01, 0xC0]))) =
    some (0x8642, ⟨false, false⟩, 2) := by decide                                           -- as X10
theorem test_step_addR16Rm16 : seen .bx (step (withReg .ax 1 (withReg .bx 0xFFFF (onBytes [0x03, 0xD8])))) =
    some (0, ⟨true, false⟩, 2) := by decide                                                 -- as X6
theorem test_step_addRm16Imm16 : seen .ax (step (withReg .ax 0x007B (onBytes [0x81, 0xC0, 0x05, 0x00]))) =
    some (0x0080, ⟨false, true⟩, 4) := by decide                                            -- P2e
theorem test_step_addAxImm16 : seen .ax (step (withReg .ax 0x8000 (onBytes [0x05, 0x00, 0x00]))) =
    some (0x8000, ⟨false, false⟩, 3) := by decide                                           -- P2b

-- the record port (2.4): X2, X3, X5, X7, X13, X18, X21, X14
theorem test_step_recMovReg : seenRpc .bx (step (withFlags true true (withReg .ax 0x1234 (withReg .bx 0xFFFF (onItems [.packed 0x030000]))))) =
    some (0x1234, ⟨true, true⟩, 1) := by decide
theorem test_step_recMovImm : seenRpc .si (step (onItems [.packed 0x26FFFF])) = some (0xFFFF, ⟨false, false⟩, 1) := by decide
theorem test_step_recAddReg : seenRpc .ax (step (withReg .ax 8 (withReg .bx 8 (onItems [.packed 0x400003])))) =
    some (0x0010, ⟨false, false⟩, 1) := by decide
theorem test_step_recAddImm : seenRpc .ax (step (withReg .ax 0x7FFF (onItems [.packed 0x600001]))) =
    some (0x8000, ⟨false, false⟩, 1) := by decide
theorem test_step_recSubReg : seenRpc .cx (step (withReg .cx 0x64 (withReg .dx 0xC8 (onItems [.packed 0x810002])))) =
    some (0xFF9C, ⟨false, true⟩, 1) := by decide
theorem test_step_recSubImm : seenRpc .bp (step (withReg .bp 0x8000 (onItems [.packed 0xA50001]))) =
    some (0x7FFF, ⟨false, true⟩, 1) := by decide
theorem test_step_recCmpReg : seenRpc .cx (step (withReg .cx 0x64 (onItems [.packed 0xC10002]))) =
    some (0x64, ⟨false, false⟩, 1) := by decide
theorem test_step_recCmpImm : seenRpc .cx (step (withFlags true false (withReg .cx 0x64 (onItems [.packed 0xE10001])))) =
    some (0x64, ⟨false, false⟩, 1) := by decide

-- forms that are emitted and refused: K13, P6 (second step from its own bytes) under both policies
theorem test_step_memory_refused : ended (step (onBytes [0x8B, 0x46, 0x00])) =
    some (.faultExecLookup, some 0, false, 0, 1) := by decide
theorem test_step_byte_rejected : ended (step (rejecting (onBytes [0xB0, 0xFF]))) = some (.run, some 0, true, 2, 1) := by decide
theorem test_step_first_rejection_kept :
    ended (step { rejecting (onBytes [0xB0, 0xFF, 0x04, 0x05]) with pc := 2, execRejected := true, faultInfo := some 0 }) =
    some (.run, some 0, true, 4, 1) := by decide
-- X22 to X26: abstract records the engine refuses
theorem test_step_records_refused :
    [Record.mk .ADD (.register .byte 0) (.immediate 5 .word) 0, ⟨.MOV, .register .word 0, .memory .bx .none 0, 0⟩,
      ⟨.MOV, .memory .bx .none 0, .register .word 0, 0⟩, ⟨.ADD, .register .word 0, .register .byte 3, 0⟩,
      ⟨.MOV, .immediate 1 .word, .register .word 0, 0⟩].all
        (fun r => ended (step (onItems [.abstract r])) == some (.faultExecLookup, some 0, false, 0, 0)) = true := by decide

-- the controller (2.5): K1, K3, K4, K5, K8 (its second step), K9 (its first step); ill-formed records
theorem test_step_empty : ended (step (onBytes [])) = some (.done, none, false, 0, 0) := by decide
theorem test_step_one_byte : ended (step (onBytes [0x90])) = some (.done, none, false, 0, 0) := by decide
theorem test_step_truncated : ended (step (inMode .disasm (onBytes [0x8B, 0x06, 0x1E]))) =
    some (.stopTruncated, some 0, false, 0, 0) := by decide
theorem test_step_exactly_to_the_end : ended (step (inMode .disasm (onBytes [0x8B, 0x06, 0x1E, 0x00]))) =
    some (.run, none, false, 4, 1) := by decide
theorem test_step_unknown_strict : ended (step { onBytes [0xB8, 0x01, 0x00, 0x90, 0x90] with pc := 3 }) =
    some (.faultUnknownOpcode, some 3, false, 3, 0) := by decide
theorem test_step_unknown_skipped : ended (step (permissive (onBytes [0xFF, 0xB8, 0x01, 0x00]))) =
    some (.run, none, false, 1, 0) := by decide
theorem test_step_records_end : ended (step (onItems [])) = some (.done, none, false, 0, 0) := by decide
theorem test_step_record_invariant :
    ended (step (rejecting (onItems [.packed 0x100000]))) = some (.faultInvariant, some 0, false, 0, 0) ∧
    ended (step (onItems [.abstract ⟨.MOV, .register .byte 8, .memory .bx .none 0, 0⟩])) =
      some (.faultInvariant, some 0, false, 0, 0) := by decide
theorem test_step_stopped : (nextState (step { onBytes [0xB8, 0x01, 0x00] with status := .stopTruncated })).map (fun t => t.pc) = some 0 := by
  decide

-- exec outside the controller's conditions
theorem test_exec_wrong_port :
    faultOf (exec (.addAxImm16 1) (onItems [])) = some .wrongPort ∧ faultOf (exec (.recCmpImm .ax 1) (onBytes [])) = some .wrongPort ∧
    faultOf (exec (.recCmpImm .ax 1) { onItems [] with status := .done }) = some .controllerStopped := by decide

-- placing a word of the table and running it, from reset
theorem test_placed_words_run :
    seen .cx (step (State.reset.withFetchWord 16 0xB900)) = some (0, ⟨false, false⟩, 3) ∧
    seen .ax (step (State.reset.withFetchWord 16 0x0500)) = some (0, ⟨true, false⟩, 3) ∧
    seenRpc .ax (step (State.reset.withFetchWord 24 0x200005)) = some (5, ⟨false, false⟩, 1) ∧
    ended (step (State.reset.withFetchWord 16 0x88D9)) = some (.faultExecLookup, some 0, false, 0, 1) := by decide

theorem test_status_codes :
    [Status.run, .done, .stopTruncated, .faultUnknownOpcode, .faultExecLookup, .faultInvariant].map (fun c => c.code) = [0, 1, 2, 3, 4, 5] := by
  decide

/-! ### Witnesses: for each obligation with hypotheses, a state and operands that meet them -/

theorem witness_EngineComputesAluAndFlags :
    destIndex (.register .word 7) = some .di ∧ srcValue RegFile.zero (.immediate 0xFFFF .byte) = some 0xFFFF ∧
    srcValue RegFile.zero (.register .word 0) = some 0 ∧
    execute ⟨.CMP, .register .byte 0, .immediate 1 .word, 0⟩ (onItems []).regs (onItems []).flags = none := by decide

theorem witness_MovStreamCompletes : Spec.executing (onBytes [0xB8, 0x01, 0x00]) := ⟨rfl, rfl⟩

theorem witness_AddStreamCompletes : Spec.executing (onBytes [0x05, 0x34, 0x12]) := ⟨rfl, rfl⟩

theorem witness_DisasmCompletes : (Instr.addAlImm8 5).onRecordPort = false ∧
    (inMode .disasm (onBytes [0x04, 0x05])).status = .run ∧ (inMode .disasm (onBytes [0x04, 0x05])).inputs.mode = .disasm := by decide

theorem witness_StreamFormsRefused : (Instr.movRm8R8 (.mem .bp .d8 0) .al).onRecordPort = false ∧
    (Instr.movRm8R8 (.mem .bp .d8 0) .al).executable = false ∧ (Instr.movRm16R16 (.direct 0) .ax).executable = false ∧
    (onBytes []).inputs.execFaultPolicy = .halt ∧ (rejecting (onBytes [])).inputs.execFaultPolicy = .rejectAndContinue ∧
    Spec.executing (onBytes []) ∧ Spec.executing (rejecting (onBytes [])) :=
  ⟨rfl, rfl, rfl, rfl, rfl, ⟨rfl, rfl⟩, ⟨rfl, rfl⟩⟩

/-- The packed word of `mov di, ax` and the abstract record of the same, each at the record counter. -/
theorem witness_MovRecordCompletes :
    Spec.atRecord (onItems [.packed (0b00#2 ++ 0b0#1 ++ 0b00#2 ++ Reg16.di.index ++ 0#13 ++ Reg16.ax.index)])
      (.packed (0b00#2 ++ 0b0#1 ++ 0b00#2 ++ Reg16.di.index ++ 0#13 ++ Reg16.ax.index)) ∧
    Spec.atRecord (onItems [.packed (0b00#2 ++ 0b1#1 ++ 0b00#2 ++ Reg16.di.index ++ 0xFFFF#16)])
      (.packed (0b00#2 ++ 0b1#1 ++ 0b00#2 ++ Reg16.di.index ++ 0xFFFF#16)) ∧
    Spec.atRecord (onItems [.abstract ⟨.MOV, Spec.reg .di, Spec.reg .ax, 0⟩]) (.abstract ⟨.MOV, Spec.reg .di, Spec.reg .ax, 0⟩) ∧
    Spec.atRecord (onItems [.abstract ⟨.MOV, Spec.reg .ax, .immediate 5 .byte, 9⟩]) (.abstract ⟨.MOV, Spec.reg .ax, .immediate 5 .byte, 9⟩) :=
  ⟨⟨rfl, rfl, rfl⟩, ⟨rfl, rfl, rfl⟩, ⟨rfl, rfl, rfl⟩, ⟨rfl, rfl, rfl⟩⟩

theorem witness_AddRecordCompletes :
    Spec.atRecord (onItems [.packed (0b01#2 ++ 0b0#1 ++ 0b00#2 ++ Reg16.ax.index ++ 0#13 ++ Reg16.ax.index)])
      (.packed (0b01#2 ++ 0b0#1 ++ 0b00#2 ++ Reg16.ax.index ++ 0#13 ++ Reg16.ax.index)) ∧
    Spec.atRecord (onItems [.packed (0b01#2 ++ 0b1#1 ++ 0b00#2 ++ Reg16.di.index ++ 0xFFFF#16)])
      (.packed (0b01#2 ++ 0b1#1 ++ 0b00#2 ++ Reg16.di.index ++ 0xFFFF#16)) ∧
    Spec.atRecord (onItems [.abstract ⟨.ADD, Spec.reg .di, Spec.reg .ax, 0⟩]) (.abstract ⟨.ADD, Spec.reg .di, Spec.reg .ax, 0⟩) ∧
    Spec.atRecord (onItems [.abstract ⟨.ADD, Spec.reg .ax, .immediate 5 .byte, 9⟩]) (.abstract ⟨.ADD, Spec.reg .ax, .immediate 5 .byte, 9⟩) :=
  ⟨⟨rfl, rfl, rfl⟩, ⟨rfl, rfl, rfl⟩, ⟨rfl, rfl, rfl⟩, ⟨rfl, rfl, rfl⟩⟩

/-- The last part: a SUB record in range that is not well formed. -/
theorem witness_SubRecordCompletes :
    Spec.atRecord (onItems [.packed (0b10#2 ++ 0b0#1 ++ 0b00#2 ++ Reg16.ax.index ++ 0#13 ++ Reg16.di.index)])
      (.packed (0b10#2 ++ 0b0#1 ++ 0b00#2 ++ Reg16.ax.index ++ 0#13 ++ Reg16.di.index)) ∧
    Spec.atRecord (onItems [.packed (0b10#2 ++ 0b1#1 ++ 0b00#2 ++ Reg16.di.index ++ 0#16)])
      (.packed (0b10#2 ++ 0b1#1 ++ 0b00#2 ++ Reg16.di.index ++ 0#16)) ∧
    Spec.atRecord (onItems [.abstract ⟨.SUB, Spec.reg .di, Spec.reg .ax, 0⟩]) (.abstract ⟨.SUB, Spec.reg .di, Spec.reg .ax, 0⟩) ∧
    Spec.atRecord (onItems [.abstract ⟨.SUB, Spec.reg .ax, .immediate 5 .byte, 9⟩]) (.abstract ⟨.SUB, Spec.reg .ax, .immediate 5 .byte, 9⟩) ∧
    recordInRange ⟨.SUB, .register .byte 7, .direct 0, 0⟩ = true ∧ Record.wellFormed ⟨.SUB, .register .byte 7, .direct 0, 0⟩ = false ∧
    Spec.atRecord (onItems [.abstract ⟨.SUB, .register .byte 7, .direct 0, 0⟩]) (.abstract ⟨.SUB, .register .byte 7, .direct 0, 0⟩) :=
  ⟨⟨rfl, rfl, rfl⟩, ⟨rfl, rfl, rfl⟩, ⟨rfl, rfl, rfl⟩, ⟨rfl, rfl, rfl⟩, rfl, rfl, ⟨rfl, rfl, rfl⟩⟩

theorem witness_CmpRecordCompletes :
    Spec.atRecord (onItems [.packed (0b11#2 ++ 0b0#1 ++ 0b00#2 ++ Reg16.ax.index ++ 0#13 ++ Reg16.di.index)])
      (.packed (0b11#2 ++ 0b0#1 ++ 0b00#2 ++ Reg16.ax.index ++ 0#13 ++ Reg16.di.index)) ∧
    Spec.atRecord (onItems [.packed (0b11#2 ++ 0b1#1 ++ 0b00#2 ++ Reg16.di.index ++ 0#16)])
      (.packed (0b11#2 ++ 0b1#1 ++ 0b00#2 ++ Reg16.di.index ++ 0#16)) ∧
    Spec.atRecord (onItems [.abstract ⟨.CMP, Spec.reg .di, Spec.reg .ax, 0⟩]) (.abstract ⟨.CMP, Spec.reg .di, Spec.reg .ax, 0⟩) ∧
    Spec.atRecord (onItems [.abstract ⟨.CMP, Spec.reg .ax, .immediate 5 .byte, 9⟩]) (.abstract ⟨.CMP, Spec.reg .ax, .immediate 5 .byte, 9⟩) ∧
    recordInRange ⟨.CMP, .immediate 1 .word, .register .word 0, 0⟩ = true ∧
    Record.wellFormed ⟨.CMP, .immediate 1 .word, .register .word 0, 0⟩ = false ∧
    Spec.atRecord (onItems [.abstract ⟨.CMP, .immediate 1 .word, .register .word 0, 0⟩]) (.abstract ⟨.CMP, .immediate 1 .word, .register .word 0, 0⟩) :=
  ⟨⟨rfl, rfl, rfl⟩, ⟨rfl, rfl, rfl⟩, ⟨rfl, rfl, rfl⟩, ⟨rfl, rfl, rfl⟩, rfl, rfl, ⟨rfl, rfl, rfl⟩⟩

/-- A next state for each clause: an executable ADD of the stream, a MOV, a form that is refused, and a CMP of the port. -/
theorem witness_InstructionFrame :
    (∃ t, exec (.addAxImm16 1) (onBytes []) = .next t ∧ (t.regs.ax == 1) = true) ∧
    (∃ t, exec (.movR16Imm16 .di 7) (withFlags true true (onBytes [])) = .next t ∧ (t.regs.di == 7) = true) ∧
    (∃ t, exec (.movR8Imm8 .al 7) (onBytes []) = .next t ∧ (t.status == .faultExecLookup) = true) ∧
    (∃ t, exec (.recCmpReg .ax .cx) (onItems []) = .next t ∧ t.flags.zf = true) :=
  ⟨exists_next (by decide), exists_next (by decide), exists_next (by decide), exists_next (by decide)⟩

theorem witness_DecodeEncodeRoundTrip :
    (Instr.movRm8R8 (.mem .bp .d8 (-128)) .bh).wellFormed = true ∧ (Instr.addRm16Imm16 (.mem .bx .none 0) 0).wellFormed = true ∧
    (Instr.addRm8Imm8 (.direct 65535) 255).wellFormed = true ∧ (Instr.recCmpImm .di 0xFFFF).wellFormed = true := by decide

theorem witness_EncodeDecodeRoundTrip : decodeAt true (Stream.ofBytes [0x90, 0x81, 0x87, 0xD0, 0x07, 0xFF, 0xFF]) 1 =
    .ok (.addRm16Imm16 (.mem .bx .d16 2000) (-1)) := by decide

/-- Words at the bounds of each clause: the largest and smallest well-formed ones of each kind. -/
theorem witness_XrecUnpacking :
    decodeXrec 0 = some (.recMovReg .ax .ax) ∧ decodeXrec 0xC70007 = some (.recCmpReg .di .di) ∧
    decodeXrec 0x200000 = some (.recMovImm .ax 0) ∧ decodeXrec 0xE7FFFF = some (.recCmpImm .di 0xFFFF) ∧
    decodeXrec 0xF80000 = none ∧ decodeXrec 0xC00008 = none := by decide

/-- Two bytes left exactly: unknown, truncated and decoded. -/
theorem witness_DecodeOutcomes :
    decodeAt true (Stream.ofBytes [0x90, 0x90]) 0 = .unknown ∧ decodeAt true (Stream.ofBytes [0xB8, 0x01]) 0 = .truncated 3 ∧
    decodeAt true (Stream.ofBytes [0x90, 0x04, 0x01]) 1 = .ok (.addAlImm8 1) ∧ 1 + 2 ≤ (Stream.ofBytes [0x90, 0x04, 0x01]).len := by decide

theorem witness_DecodeRecordIsTheSpecs : decodeAt false (Stream.ofBytes [0x80, 0xEF, 0x05]) 0 = .ok (.addRm8Imm8 (.reg .bh) 5) := by decide

theorem witness_DecodeReadsItsOwnBytes :
    decodeAt true (Stream.ofBytes [0xB0, 0x7F]) 0 = .ok (.movR8Imm8 .al 127) ∧
    ∀ k, k < 2 → (Stream.ofBytes [0x90, 0xB0, 0x7F, 0x90]).memRead1 (1 + k) = (Stream.ofBytes [0xB0, 0x7F]).memRead1 (0 + k) := by decide

theorem witness_StreamHasNoSubOrCmp :
    decodeAt true (Stream.ofBytes [0x04, 0x01]) 0 = .ok (.addAlImm8 1) ∧ (onBytes [0x04, 0x01]).inputs.mode ≠ .recordExec ∧
    fetch (onBytes [0x04, 0x01]) = .take (.addAlImm8 1) := by decide

theorem witness_ExecStopsOutsideTheController :
    ({ onBytes [] with status := .done } : State).status ≠ .run ∧ (onBytes []).status = .run ∧ (onItems []).status = .run ∧
    (Instr.recSubImm .ax 1).onRecordPort ≠ decide ((onBytes []).inputs.mode = .recordExec) ∧
    (Instr.addAxImm16 1).onRecordPort ≠ decide ((onItems []).inputs.mode = .recordExec) ∧
    (Instr.recSubImm .ax 1).onRecordPort = decide ((onItems []).inputs.mode = .recordExec) ∧
    (Instr.addAxImm16 1).onRecordPort = decide ((onBytes []).inputs.mode = .recordExec) := by decide

theorem witness_StepRunsTheInstruction :
    ((onBytes [0x04, 0x01]).status = .run ∧ (onBytes [0x04, 0x01]).inputs.mode ≠ .recordExec ∧
      decodeAt (onBytes [0x04, 0x01]).inputs.extCheck (onBytes [0x04, 0x01]).inputs.stream (onBytes [0x04, 0x01]).pc = .ok (.addAlImm8 1)) ∧
    (Spec.atRecord (onItems [.packed 0x600003]) (.packed 0x600003) ∧ decodeXrec 0x600003 = some (.recAddImm .ax 3)) ∧
    (Spec.atRecord (onItems [.abstract ⟨.SUB, .register .word 7, .register .word 0, 4⟩]) (.abstract ⟨.SUB, .register .word 7, .register .word 0, 4⟩) ∧
      Record.instr ⟨.SUB, .register .word 7, .register .word 0, 4⟩ = some (.recSubReg .di .ax)) :=
  ⟨by decide, ⟨⟨rfl, rfl, rfl⟩, by decide⟩, ⟨rfl, rfl, rfl⟩, by decide⟩

theorem witness_WellFormedRecordsAreInstructions :
    Record.instr ⟨.CMP, .register .word 7, .immediate 0xFFFF .byte, 3⟩ = some (.recCmpImm .di 0xFFFF) := by decide

/-- One byte left, two bytes left, and streams of length 0 and 1. -/
theorem witness_LoopEndsBelowTwoBytes :
    (onBytes [0xB8]).inputs.stream.len - (onBytes [0xB8]).pc < 2 ∧ 2 ≤ (onBytes [0x90, 0x90]).inputs.stream.len - (onBytes [0x90, 0x90]).pc ∧
    (onBytes [0xB8]).status = .run ∧ (onBytes [0x90, 0x90]).status = .run ∧ (onBytes [0x90]).inputs.mode ≠ .recordExec ∧
    (onBytes []).inputs.stream.len ≤ 1 ∧ (onBytes [0x90]).inputs.stream.len ≤ 1 := by decide

theorem witness_UnknownOpcodePolicies :
    (onBytes [0x90, 0x05]).status = .run ∧ (onBytes [0x90, 0x05]).inputs.mode ≠ .recordExec ∧
    2 ≤ (onBytes [0x90, 0x05]).inputs.stream.len - (onBytes [0x90, 0x05]).pc ∧
    (onBytes [0x90, 0x05]).inputs.stream.memRead1 0 = some 0x90 ∧ (onBytes [0x90, 0x05]).inputs.stream.memRead1 1 = some 0x05 ∧
    classify (onBytes [0x90, 0x05]).inputs.extCheck 0x90 0x05 = none ∧
    (onBytes [0x90, 0x05]).inputs.unknownOpcodePolicy = .strict ∧
    (permissive (onBytes [0x90, 0x05])).inputs.unknownOpcodePolicy = .permissive := by decide

theorem witness_TruncationStops :
    (onBytes [0xB8, 0x01]).inputs.stream.memRead1 0 = some 0xB8 ∧ (onBytes [0xB8, 0x01]).inputs.stream.memRead1 1 = some 0x01 ∧
    classify true 0xB8 0x01 = some .movRI ∧ (onBytes [0xB8, 0x01]).inputs.stream.len < 0 + insnLength .movRI 0xB8 0x01 := by decide

/-- Both clauses: the second immediate byte is there, and it is not. -/
theorem witness_StepMovR16Imm16 :
    Spec.executing (onBytes [0xBF, 0xFF, 0xFF]) ∧ (onBytes [0xBF, 0xFF, 0xFF]).inputs.stream.memRead1 0 = some (0b10111#5 ++ Reg16.di.index) ∧
    (onBytes [0xBF, 0xFF, 0xFF]).inputs.stream.memRead1 1 = some 0xFF ∧ (onBytes [0xBF, 0xFF, 0xFF]).inputs.stream.memRead1 2 = some 0xFF ∧
    Spec.executing (onBytes [0xB8, 0x02]) ∧ (onBytes [0xB8, 0x02]).inputs.stream.memRead1 0 = some (0b10111#5 ++ Reg16.ax.index) ∧
    (onBytes [0xB8, 0x02]).inputs.stream.memRead1 1 = some 0x02 ∧ (onBytes [0xB8, 0x02]).inputs.stream.len = 0 + 2 :=
  ⟨⟨rfl, rfl⟩, by decide, by decide, by decide, ⟨rfl, rfl⟩, by decide, by decide, by decide⟩

theorem witness_StepAddAxImm16 :
    Spec.executing (onBytes [0x05, 0x00, 0x80]) ∧ (onBytes [0x05, 0x00, 0x80]).inputs.stream.memRead1 0 = some 0x05 ∧
    (onBytes [0x05, 0x00, 0x80]).inputs.stream.memRead1 1 = some 0x00 ∧ (onBytes [0x05, 0x00, 0x80]).inputs.stream.memRead1 2 = some 0x80 ∧
    Spec.executing (onBytes [0x05, 0x01]) ∧ (onBytes [0x05, 0x01]).inputs.stream.memRead1 0 = some 0x05 ∧
    (onBytes [0x05, 0x01]).inputs.stream.memRead1 1 = some 0x01 ∧ (onBytes [0x05, 0x01]).inputs.stream.len = 0 + 2 :=
  ⟨⟨rfl, rfl⟩, by decide, by decide, by decide, ⟨rfl, rfl⟩, by decide, by decide, by decide⟩

theorem witness_RecordModeEndsAndRefuses :
    ((onItems []).status = .run ∧ (onItems []).inputs.mode = .recordExec ∧ (onItems []).inputs.records.length ≤ (onItems []).rpc) ∧
    ((onItems [.abstract ⟨.ADD, .register .word 0, .register .byte 3, 0⟩]).inputs.records[0]? = some (.abstract ⟨.ADD, .register .word 0, .register .byte 3, 0⟩) ∧
      recordInRange ⟨.ADD, .register .word 0, .register .byte 3, 0⟩ = true ∧
      Record.wellFormed ⟨.ADD, .register .word 0, .register .byte 3, 0⟩ = false) := by decide

/-- A step that decodes; a step that raises the condition, for each of its two causes. -/
theorem witness_InvariantViolationExactly :
    decodeAt true (Stream.ofBytes [0x89, 0xD9]) 0 = .ok (.movRm16R16 (.reg .cx) .bx) ∧
    (onItems [.packed 0x080000]).status = .run ∧
    (∃ t, step (onItems [.packed 0x080000]) = .next t ∧ (t.status == .faultInvariant) = true) ∧
    (∃ t, step (onItems [.abstract ⟨.CMP, .register .word 0, .register .word 8, 0⟩]) = .next t ∧ (t.status == .faultInvariant) = true) :=
  ⟨by decide, by decide, exists_next (by decide), exists_next (by decide)⟩

theorem witness_StepKeepsInputs : ∃ t, step (onBytes [0xB8, 0x01, 0x00]) = .next t ∧ (t.regs.ax == 1) = true :=
  exists_next (by decide)

/-- A terminal state; a step that advances `pc`, one that advances `rpc`, one that ends the run; a state of each kind of mode. -/
theorem witness_EveryRunEnds :
    ({ onBytes [] with status := .done } : State).status ≠ .run ∧
    (∃ t, step (onBytes [0x04, 0x01]) = .next t ∧ (t.status != .run) = true) ∧
    (∃ t, step (onBytes [0xB8, 0x01, 0x00]) = .next t ∧ (t.pc == 3) = true) ∧
    (∃ t, step (onItems [.packed 0x200005]) = .next t ∧ (t.rpc == 1) = true) ∧
    (onBytes []).inputs.mode ≠ .recordExec ∧ (onItems []).inputs.mode = .recordExec :=
  ⟨by decide, exists_next (by decide), exists_next (by decide), exists_next (by decide), by decide, by decide⟩

/-- The state P3 is in before its last step: one instruction emitted, two bytes left. -/
def midRun : State := withReg .ax 1 { onBytes [0xB8, 0x01, 0x00, 0xB8, 0x02] with pc := 3, out := [(0, (Instr.movR16Imm16 .ax 1).record)] }

theorem witness_StepKeepsInvariant : midRun.Inv ∧ ∃ t, step midRun = .next t ∧ (t.status == .stopTruncated) = true :=
  ⟨⟨⟨by decide, by decide⟩, ⟨by decide, by decide, by decide⟩,
    ⟨by decide, by decide, by decide, by decide, by decide, by decide, by decide⟩⟩, exists_next (by decide)⟩

theorem witness_StepKeepsTraceFaithful :
    midRun.TraceFaithful ∧ ∃ t, step midRun = .next t ∧ (t.status == .stopTruncated) = true := by
  refine ⟨⟨?_, by decide, by decide, by decide⟩, exists_next (by decide)⟩
  intro e he
  obtain rfl := List.mem_singleton.mp he
  exact ⟨.movR16Imm16 .ax 1, by decide, rfl⟩

theorem witness_StrictTraceHasNoGap :
    midRun.inputs.unknownOpcodePolicy = .strict ∧ (∃ t, step midRun = .next t ∧ (t.status != .faultExecLookup) = true) ∧
    midRun.status ≠ .faultExecLookup ∧ tiles 0 midRun.out midRun.pc :=
  ⟨by decide, exists_next (by decide), by decide, ⟨rfl, rfl⟩⟩

/-- Both ways: past an instruction, and past a skipped byte. -/
theorem witness_PcMovesOnlySequentially :
    (∃ t, step (onBytes [0xB8, 0x01, 0x00]) = .next t ∧ (t.pc != (onBytes [0xB8, 0x01, 0x00]).pc) = true) ∧
    (∃ t, step (permissive (onBytes [0x90, 0x90])) = .next t ∧ (t.pc != (permissive (onBytes [0x90, 0x90])).pc) = true) :=
  ⟨exists_next (by decide), exists_next (by decide)⟩

theorem witness_TraceOnlyGrows :
    (∃ t, step (inMode .disasm (onBytes [0x8B, 0x46, 0x00])) = .next t ∧ (t.out.length == 1) = true) ∧
    (∃ t, step (onBytes []) = .next t ∧ (t.out.length == 0) = true) :=
  ⟨exists_next (by decide), exists_next (by decide)⟩

/-- The bit was set before; it is set by this step; it is not set. -/
theorem witness_RejectionIsSticky :
    (∃ t, step { rejecting (onBytes [0xB0, 0xFF]) with execRejected := true, faultInfo := some 9 } = .next t ∧
      (t.faultInfo == some 9 && t.status == .run) = true) ∧
    (∃ t, step (rejecting (onBytes [0xB0, 0xFF])) = .next t ∧ (t.execRejected && t.status == .run) = true) ∧
    (∃ t, step (onBytes [0xB8, 0x01, 0x00]) = .next t ∧ (!t.execRejected && t.status == .run) = true) :=
  ⟨exists_next (by decide), exists_next (by decide), exists_next (by decide)⟩

theorem witness_ConditionsArePrecise :
    (∃ t, step (onBytes [0x90, 0x90]) = .next t ∧ (t.status != .run && t.out == []) = true) ∧
    (∃ t, step (onBytes [0x8B, 0x46, 0x00]) = .next t ∧ (t.status == .faultExecLookup && t.out.length == 1) = true) ∧
    (onBytes [0x90, 0x90]).status = .run :=
  ⟨exists_next (by decide), exists_next (by decide), by decide⟩

theorem witness_DataNeverSteersControl :
    (onBytes [0x01, 0xD8]).agreeButData (withFlags true true (withReg .bx 0x8000 (onBytes [0x01, 0xD8]))) ∧
    ∃ t, step (onBytes [0x01, 0xD8]) = .next t ∧ (t.pc == 2) = true :=
  ⟨rfl, exists_next (by decide)⟩

theorem witness_DisasmAndExecuteAgree :
    (rejecting (onBytes [0xB0, 0xFF])).inputs.mode = .decodeExec ∧
    (rejecting (onBytes [0xB0, 0xFF])).inputs.execFaultPolicy = .rejectAndContinue := by decide

theorem witness_DisasmKeepsData : (inMode .disasm (onBytes [0xB8, 0x01, 0x00])).inputs.mode = .disasm ∧
    ∃ t, step (inMode .disasm (onBytes [0xB8, 0x01, 0x00])) = .next t ∧ (t.pc == 3) = true :=
  ⟨by decide, exists_next (by decide)⟩

/-- A step that changes the flags and a register, in a stream mode and in record mode. -/
theorem witness_OnlyArithmeticTouchesFlags :
    (∃ t, step (withReg .ax 0xFFFF (onBytes [0x05, 0x01, 0x00])) = .next t ∧ (t.flags.zf && t.regs.get .ax == 0) = true) ∧
    (∃ t, step (withReg .cx 0x64 (onItems [.packed 0x810001])) = .next t ∧ (t.flags.zf && t.regs.get .cx == 0) = true) :=
  ⟨exists_next (by decide), exists_next (by decide)⟩

theorem witness_ElisionAndSizeKeyword : DispKind.d8 ≠ .none ∧ DispKind.d16 ≠ .none := by decide

theorem witness_MemReadIsLittleEndian : (Stream.ofBytes [0x34, 0x12]).memRead2 0 = some 0x1234 ∧ (Stream.ofBytes [0x34, 0x12]).memRead2 1 = none ∧
    (Stream.ofBytes [0x34, 0x12]).memRead1 1 = some 0x12 ∧ (Stream.ofBytes [0x34, 0x12]).memRead1 2 = none := by decide

theorem witness_StreamsAreCanonical : (Stream.ofBytes [0x00, 0x12]).wf = true ∧ Stream.empty.wf = true ∧ Stream.empty.len = Stream.empty.len ∧
    ∀ a, Stream.empty.memRead1 a = Stream.empty.memRead1 a :=
  ⟨by decide, by decide, rfl, fun _ => rfl⟩

theorem witness_PlacedWordIsRun : State.reset.inputs.extCheck = true ∧ State.reset.inputs.stream.wf = true ∧ 0xB8FF < 2 ^ 16 ∧
    decodeTableWord 16 0xB8FF = some (.movR16Imm16 .ax 0x00FF) ∧ 0xE7FFFF < 2 ^ 24 ∧
    decodeTableWord 24 0xE7FFFF = some (.recCmpImm .di 0xFFFF) := by decide

end Sys2Proof.Tests
end

section
/-! PROOFS. The length table of R90: the model's bit fields read as numbers (R6), and each family's length in those
numbers. -/

namespace Sys2Proof.LengthProofs

/-- A field cut out of a byte is the slice of its number between the same bounds (R6). -/
theorem toNat_extractLsb'_eq_slice (b : Byte) (lo len : Nat) :
    (b.extractLsb' lo (len + 1)).toNat = Spec.slice b.toNat (lo + len) lo := by
  rw [BitVec.extractLsb'_toNat, Nat.shiftRight_eq_div_pow, Spec.slice, Nat.add_sub_cancel_left]

theorem toNat_fieldMod (b : Byte) : (fieldMod b).toNat = Spec.slice b.toNat 7 6 :=
  toNat_extractLsb'_eq_slice b 6 1

theorem toNat_fieldRm (b : Byte) : (fieldRm b).toNat = Spec.slice b.toNat 2 0 :=
  toNat_extractLsb'_eq_slice b 0 2

/-- R86 in numbers, one case for each value of `mod`; only `mod = 00` looks at `rm`. -/
theorem dispSize_eq_spec (mod : BitVec 2) (rm : BitVec 3) :
    dispSize mod rm = Spec.dispSize mod.toNat rm.toNat := by
  obtain rfl | rfl | rfl | rfl := mod_cases mod
  · simp [dispSize, Spec.dispSize, BitVec.toNat_eq]
  · simp [dispSize, Spec.dispSize]
  · simp [dispSize, Spec.dispSize]
  · simp [dispSize, Spec.dispSize]

/-- The displacement size that the addressing-mode byte announces, from the byte's number (R78, R86). -/
theorem dispSize_fields (b1 : Byte) :
    dispSize (fieldMod b1) (fieldRm b1) = Spec.dispSize (Spec.slice b1.toNat 7 6) (Spec.slice b1.toNat 2 0) := by
  rw [dispSize_eq_spec, toNat_fieldMod, toNat_fieldRm]

/-- R87: the immediate has one byte, and the width bit's value more. -/
theorem immSize_eq (w : Bool) : immSize w = 1 + w.toNat := by
  cases w <;> rfl

theorem toNat_fieldW (b0 : Byte) : (fieldW b0).toNat = b0.toNat % 2 := by
  rw [fieldW, BitVec.getLsbD, Nat.toNat_testBit, Nat.pow_zero, Nat.div_one]

theorem toNat_fieldWIr (b0 : Byte) : (fieldWIr b0).toNat = b0.toNat / 8 % 2 :=
  Nat.toNat_testBit b0.toNat 3

/-- Settles O20, family by family: the displacement and the immediate size become numbers by the lemmas above, and the
immediate's one certain byte joins the fixed bytes. -/
theorem lengthTable : Obligations.LengthTable := by
  intro b0 b1 disp w w'
  refine ⟨?movRmR, ?addRmR, ?addRmI, ?movRI, ?addAI⟩
  case movRmR => rw [insnLength, dispSize_fields]
  case addRmR => rw [insnLength, dispSize_fields]
  case addRmI => rw [insnLength, dispSize_fields, immSize_eq, toNat_fieldW]; omega
  case movRI => rw [insnLength, immSize_eq, toNat_fieldWIr]; omega
  case addAI => rw [insnLength, immSize_eq, toNat_fieldW]; omega

end Sys2Proof.LengthProofs
end

section
/-! PROOFS. Which operands resolve (40_execute_engine R141), as one equivalence for each of the two ports. -/

namespace Sys2Proof.OperandProofs

open Sys2Proof.Machine

/-- R21: a record's index names a register exactly when it is that register's own index. -/
theorem ofRecordIndex_eq_some_iff {n : Nat} {r : Reg16} : Reg16.ofRecordIndex n = some r ↔ n = r.index.toNat where
  mp := Reg16.index_of_ofRecordIndex
  mpr h := by rw [h, Reg16.ofRecordIndex_index]

/-- R141, `dest_index`: of the five kinds of operand only a word register has an index to ask about. -/
theorem destIndex_eq_some_iff (op : Operand) (i : Reg16) :
    destIndex op = some i ↔ op = .register .word i.index.toNat := by
  match op with
  | .register .word n =>
    rw [destIndex, ofRecordIndex_eq_some_iff, Operand.register.injEq, eq_self, true_and]
  | .register .byte _ | .memory _ _ _ | .direct _ | .immediate _ _ => simp [destIndex]

/-- R141, `src_value`: a word register gives its contents, an immediate its pattern, whatever its width. -/
theorem srcValue_eq_some_iff (rf : RegFile) (op : Operand) (v : Word) :
    srcValue rf op = some v ↔
      (∃ j : Reg16, op = .register .word j.index.toNat ∧ v = rf.get j) ∨ ∃ w, op = .immediate v w := by
  match op with
  | .register .word n => simp [srcValue, ofRecordIndex_eq_some_iff, eq_comm (a := v)]
  | .immediate u w => simp [srcValue]
  | .register .byte _ | .memory _ _ _ | .direct _ => simp [srcValue]

/-- Settles O2, from the equivalence of each port. -/
theorem operandResolution : Obligations.OperandResolution :=
  fun op => ⟨destIndex_eq_some_iff op, fun rf v => srcValue_eq_some_iff rf op v⟩

end Sys2Proof.OperandProofs
end

section
/-! PROOFS. Which instruction a step takes, from what the stream or the record port holds (44_controller R213, R215,
R219), and the next state when that instruction executes. -/

namespace Sys2Proof.TakenProofs

open Sys2Proof.Machine

variable {s : State} {i : Instr}

/-! ### The record port -/

theorem lt_of_ofRecordIndex {n : Nat} {r : Reg16} (h : Reg16.ofRecordIndex n = some r) : n < 8 :=
  Reg16.index_of_ofRecordIndex h ▸ r.index.isLt

/-- A record that stands for an instruction passes the controller's index check (R31, R244): each register it names
has been found under its index. -/
theorem recordInRange_of_instr {rec : Record} (h : rec.instr = some i) : recordInRange rec = true := by
  unfold Record.instr at h
  split at h
  next hdest hsrc =>
    split at h
    next hd hs =>
      simp [recordInRange, operandInRange, hdest, hsrc, lt_of_ofRecordIndex hd, lt_of_ofRecordIndex hs]
    next => cases h
  next hdest hsrc =>
    split at h
    next hd => simp [recordInRange, operandInRange, hdest, hsrc, lt_of_ofRecordIndex hd]
    next => cases h
  next => cases h

theorem step_of_packed {x : BitVec 24} (h : Spec.atRecord s (.packed x)) (hx : decodeXrec x = some i) :
    step s = exec i s := by
  obtain ⟨hs, hm, hr⟩ := h
  simp only [step, fetch_of_item hs hm hr, fetchItem, hx]

theorem step_of_abstract {rec : Record} (h : Spec.atRecord s (.abstract rec)) (hi : rec.instr = some i) :
    step s = exec i s := by
  obtain ⟨hs, hm, hr⟩ := h
  simp only [step, fetch_of_item hs hm hr, fetchItem, recordInRange_of_instr hi, if_true, hi]

/-- R219: what the engine answers for a record-port instruction is what the step commits. -/
theorem exec_of_port_executed {x : RegFile × Flags} (hp : i.onRecordPort = true) (hs : s.status = .run)
    (hm : s.inputs.mode = .recordExec) (hx : execute i.record s.regs s.flags = some x) :
    exec i s = Spec.recordDone s x.1 x.2 := by
  rw [exec_of_port s hp, takeFromPort_recordExec _ hs hm, State.executeRecord, hx]
  rfl

/-! ### The instruction stream -/

theorem lt_of_memRead1 {st : Stream} {a : Nat} {b : Byte} (h : st.memRead1 a = some b) : a < st.len :=
  of_decide_eq_true (by rw [← Stream.memRead1_isSome, h, Option.isSome_some])

/-- R212: with two bytes left the loop condition lets the step decode. -/
theorem not_lt_minLen (hl : s.pc + 2 ≤ s.inputs.stream.len) : ¬ s.inputs.stream.len - s.pc < Config.minLen := by
  rw [Config.minLen]; omega

theorem step_of_decodeAt_ok (hs : s.status = .run) (hm : s.inputs.mode ≠ .recordExec)
    (hd : decodeAt s.inputs.extCheck s.inputs.stream s.pc = .ok i) : step s = exec i s := by
  obtain ⟨hle, hlen, -⟩ := length_of_decodeAt_ok hd
  have hmin : ¬ s.inputs.stream.len - s.pc < Config.minLen := not_lt_minLen (by omega)
  simp only [step, fetch_of_stream hs hm, fetchStream, if_neg hmin, hd]

/-- R215: the length check comes before any operand is read. -/
theorem step_of_length_gt {b0 b1 : Byte} {f : Family} (hs : s.status = .run) (hm : s.inputs.mode ≠ .recordExec)
    (h0 : s.inputs.stream.memRead1 s.pc = some b0) (h1 : s.inputs.stream.memRead1 (s.pc + 1) = some b1)
    (hc : classify s.inputs.extCheck b0 b1 = some f) (hl : s.inputs.stream.len < s.pc + insnLength f b0 b1) :
    step s = .next (s.raise .truncated s.pc) := by
  have hd : decodeAt s.inputs.extCheck s.inputs.stream s.pc = .truncated (insnLength f b0 b1) := by
    rw [decodeAt_eq h0 h1]; simp only [hc, if_pos hl]
  simp only [step, fetch_of_stream hs hm, fetchStream, if_neg (not_lt_minLen (lt_of_memRead1 h1)), hd]

/-- R213, R218: what the engine answers for an emitted instruction is committed, and `pc` moves past it. -/
theorem exec_of_stream_executed {x : RegFile × Flags} (hp : i.onRecordPort = false) (he : Spec.executing s)
    (hx : execute i.record s.regs s.flags = some x) : exec i s = Spec.streamDone s i.record x.1 x.2 := by
  obtain ⟨hs, hm⟩ := he
  rw [exec_of_stream s hp, takeFromStream_decodeExec _ hs hm, State.executeAndAdvance, emit_regs, emit_flags, hx]
  rfl

/-! ### The text of a record with a register destination -/

/-- R96, R100: a register destination takes no size keyword. -/
theorem render_of_reg (m : Mnemonic) (d : Reg16) (src : Operand) (len : Nat) :
    render ⟨m, Spec.reg d, src, len⟩ =
      renderMnemonic m ++ " " ++ wordName d.index.toNat ++ ", " ++ renderOperand src := by
  have hk : sizeKeyword (Spec.reg d) src = "" := rfl
  rw [render, hk, String.append_empty]
  rfl

end Sys2Proof.TakenProofs
end

section
/-! PROOFS. MOV on the record port (41_mov R167, R168) and `MOV r16, imm16` from its bytes (R166). -/

namespace Sys2Proof.MovProofs

open Sys2Proof.Machine
open Sys2Proof.TakenProofs

/-- R160: MOV writes the source value to the destination and passes the flags on. -/
theorem execute_mov {dest src : Operand} {len : Nat} {rf : RegFile} (fl : Flags) {i : Reg16} {b : Word}
    (hd : destIndex dest = some i) (hs : srcValue rf src = some b) :
    execute ⟨.MOV, dest, src, len⟩ rf fl = some (rf.set i b, fl) :=
  execute_of_resolved fl hd hs

/-! ### The record port -/

theorem exec_recMovReg {s : State} (d r : Reg16) (hs : s.status = .run) (hm : s.inputs.mode = .recordExec) :
    exec (.recMovReg d r) s = Spec.recordDone s (s.regs.set d (s.regs.get r)) s.flags :=
  exec_of_port_executed (i := .recMovReg d r) rfl hs hm
    (execute_mov s.flags (destIndex_operand d) (srcValue_operand s.regs r))

theorem exec_recMovImm {s : State} (d : Reg16) (v : Word) (hs : s.status = .run) (hm : s.inputs.mode = .recordExec) :
    exec (.recMovImm d v) s = Spec.recordDone s (s.regs.set d v) s.flags :=
  exec_of_port_executed (i := .recMovImm d v) rfl hs hm
    (execute_mov s.flags (destIndex_operand d) (srcValue_imm16 s.regs v))

theorem instr_movReg (d r : Reg16) (len : Nat) :
    Record.instr ⟨.MOV, Spec.reg d, Spec.reg r, len⟩ = some (.recMovReg d r) := by
  simp [Record.instr, Spec.reg]

theorem instr_movImm (d : Reg16) (v : Word) (w : Width) (len : Nat) :
    Record.instr ⟨.MOV, Spec.reg d, .immediate v w, len⟩ = some (.recMovImm d v) := by
  simp [Record.instr, Spec.reg]

/-- Settles O10: the packed word and the abstract record each make the step take the record-port form of MOV, and
`exec` of that form is the one next state of both. -/
theorem movRecordCompletes : Obligations.MovRecordCompletes := by
  intro s
  refine ⟨fun d r => ⟨exec_recMovReg d r, fun h => ?packedReg, fun len => ⟨fun h => ?abstractReg, ?textReg⟩⟩,
    fun d v => ⟨exec_recMovImm d v, fun h => ?packedImm, fun len w => ⟨fun h => ?abstractImm, ?textImm⟩⟩⟩
  case packedReg =>
    have ⟨hs, hm, _⟩ := h
    exact (step_of_packed h (decodeXrec_encodeXrecReg 0b00 d r)).trans (exec_recMovReg d r hs hm)
  case abstractReg =>
    have ⟨hs, hm, _⟩ := h
    exact (step_of_abstract h (instr_movReg d r len)).trans (exec_recMovReg d r hs hm)
  case textReg => exact render_of_reg .MOV d (Spec.reg r) len
  case packedImm =>
    have ⟨hs, hm, _⟩ := h
    exact (step_of_packed h (decodeXrec_encodeXrecImm 0b00 d v)).trans (exec_recMovImm d v hs hm)
  case abstractImm =>
    have ⟨hs, hm, _⟩ := h
    exact (step_of_abstract h (instr_movImm d v w len)).trans (exec_recMovImm d v hs hm)
  case textImm => exact render_of_reg .MOV d (.immediate v w) len

/-! ### From the bytes -/

/-- R72, R75, R77: `B8+reg` is the immediate-to-register MOV with `w = 1`, whatever byte follows. -/
theorem classify_movR16 (ext : Bool) (r : Reg16) (b1 : Byte) :
    classify ext (0b10111#5 ++ r.index) b1 = some .movRI := by
  have h : classify1 (0b10111#5 ++ r.index) = some .movRI := by cases r <;> decide
  simp only [classify, h]

theorem fieldWIr_movR16 (r : Reg16) : fieldWIr (0b10111#5 ++ r.index) = true := by cases r <;> decide

theorem fieldRm_movR16 (r : Reg16) : fieldRm (0b10111#5 ++ r.index) = r.index := by cases r <;> decide

theorem insnLength_movR16 (r : Reg16) (b1 : Byte) : insnLength .movRI (0b10111#5 ++ r.index) b1 = 3 := by
  rw [insnLength, fieldWIr_movR16, immSize, if_pos rfl]

/-- R87: the two bytes of an immediate as a number, the lower offset first. -/
theorem littleEndian_eq_ofNat (lo hi : Byte) : littleEndian lo hi = BitVec.ofNat 16 (lo.toNat + 256 * hi.toNat) := by
  rw [← toNat_littleEndian, BitVec.ofNat_toNat, BitVec.setWidth_eq]

theorem decodeAt_movR16Imm16 (ext : Bool) {st : Stream} {pc : Nat} {r : Reg16} {lo hi : Byte}
    (h0 : st.memRead1 pc = some (0b10111#5 ++ r.index)) (h1 : st.memRead1 (pc + 1) = some lo)
    (h2 : st.memRead1 (pc + 2) = some hi) :
    decodeAt ext st pc = .ok (.movR16Imm16 r (BitVec.ofNat 16 (lo.toNat + 256 * hi.toNat))) := by
  have hl : ¬ pc + 3 > st.len := Nat.not_lt.mpr (lt_of_memRead1 h2)
  have himm : st.memRead2 (pc + 1) = some (littleEndian lo hi) := by rw [Stream.memRead2_eq, h1, h2]; rfl
  have hops : decodeOperands .movRI st pc (0b10111#5 ++ r.index) lo = some (.movR16Imm16 r (littleEndian lo hi)) := by
    simp only [decodeOperands, decodeMovRI, fieldWIr_movR16, fieldRm_movR16, himm, Reg16.ofIndex_index,
      Option.map_some]
  rw [decodeAt_eq h0 h1]
  simp only [classify_movR16, insnLength_movR16, if_neg hl, hops, littleEndian_eq_ofNat]

theorem exec_movR16Imm16 {s : State} (r : Reg16) (v : Word) (he : Spec.executing s) :
    exec (.movR16Imm16 r v) s =
      Spec.streamDone s ⟨.MOV, Spec.reg r, .immediate v .word, 3⟩ (s.regs.set r v) s.flags :=
  exec_of_stream_executed (i := .movR16Imm16 r v) rfl he
    (execute_mov s.flags (destIndex_operand r) (srcValue_imm16 s.regs v))

/-- Settles O32: with a third byte the instruction decodes and executes; without one its length of 3 passes the end. -/
theorem stepMovR16Imm16 : Obligations.StepMovR16Imm16 := by
  intro s r lo he h0 h1
  have ⟨hs, hmode⟩ := he
  have hm : s.inputs.mode ≠ .recordExec := by rw [hmode]; decide
  refine ⟨fun hi h2 => ?complete, fun hlen => ?truncated⟩
  case complete =>
    exact (step_of_decodeAt_ok hs hm (decodeAt_movR16Imm16 _ h0 h1 h2)).trans (exec_movR16Imm16 r _ he)
  case truncated =>
    exact step_of_length_gt hs hm h0 h1 (classify_movR16 _ r lo) (by rw [insnLength_movR16]; omega)

end Sys2Proof.MovProofs
end

section
/-! PROOFS. The ALU adder and the flag logic in the spec's numbers (40_execute_engine R143, R144). -/

namespace Sys2Proof.AluProofs

open Sys2Proof.Machine

/-- R143: the adder's word is the sum of the two numbers, reduced modulo 2^16. -/
theorem aluAdd_eq_spec (a b : Word) : aluAdd a b = Spec.add a b := by
  apply BitVec.eq_of_toNat_eq
  rw [aluAdd, Spec.add, BitVec.toNat_add, BitVec.toNat_ofNat, Nat.mod_mod]

/-- R144: Zero asks for the number 0, Sign for bit 7 of the number. -/
theorem flagsOf_eq_spec (r : Word) : flagsOf r = Spec.flags r := by
  have hz : (r == 0x0000#16) = decide (r.toNat = 0) := by
    rw [Bool.eq_iff_iff, beq_iff_eq, decide_eq_true_iff]
    exact BitVec.toNat_inj.symm
  have hn : r.getLsbD 7 = decide (r.toNat / 2 ^ 7 % 2 = 1) := Nat.testBit_eq_decide_div_mod_eq
  rw [flagsOf, Spec.flags, hz, hn]

end Sys2Proof.AluProofs
end

section
/-! PROOFS. The next state of a record-port form, by either kind of item (44_controller R219), and the record-port form
of each mnemonic (10_state R31, 30_encoding R95). -/

namespace Sys2Proof.TakenProofs

open Sys2Proof.Machine

variable {s : State} {i : Instr} {regs : RegFile} {flags : Flags}

/-- An `XREC` word completes as the instruction it unpacks to does. -/
theorem recordDone_of_packed {x : BitVec 24} (hx : decodeXrec x = some i)
    (hexec : s.status = .run → s.inputs.mode = .recordExec → exec i s = Spec.recordDone s regs flags)
    (h : Spec.atRecord s (.packed x)) : step s = Spec.recordDone s regs flags := by
  have ⟨hs, hm, _⟩ := h
  exact (step_of_packed h hx).trans (hexec hs hm)

/-- An abstract record completes as the instruction it stands for does. -/
theorem recordDone_of_abstract {rec : Record} (hi : rec.instr = some i)
    (hexec : s.status = .run → s.inputs.mode = .recordExec → exec i s = Spec.recordDone s regs flags)
    (h : Spec.atRecord s (.abstract rec)) : step s = Spec.recordDone s regs flags := by
  have ⟨hs, hm, _⟩ := h
  exact (step_of_abstract h hi).trans (hexec hs hm)

/-- The abstract record with two word registers stands for what the `XREC` word of the same operation unpacks to. -/
theorem instr_reg (op : BitVec 2) (d r : Reg16) (len : Nat) :
    Record.instr ⟨Spec.xrecMnemonic op.toNat, Spec.reg d, Spec.reg r, len⟩ = some (xrecReg op d r) := by
  obtain rfl | rfl | rfl | rfl := mod_cases op
  all_goals simp [Record.instr, Spec.reg, Spec.xrecMnemonic, xrecReg]

/-- The same for an immediate source, whatever its intended width. -/
theorem instr_imm (op : BitVec 2) (d : Reg16) (v : Word) (w : Width) (len : Nat) :
    Record.instr ⟨Spec.xrecMnemonic op.toNat, Spec.reg d, .immediate v w, len⟩ = some (xrecImm op d v) := by
  obtain rfl | rfl | rfl | rfl := mod_cases op
  all_goals simp [Record.instr, Spec.reg, Spec.xrecMnemonic, xrecImm]

end Sys2Proof.TakenProofs
end

section
/-! PROOFS. ADD on the record port (42_add R189, R190) and `ADD ax, imm16` from its bytes (R188). -/

namespace Sys2Proof.AddProofs

open Sys2Proof.Machine
open Sys2Proof.AluProofs
open Sys2Proof.TakenProofs

/-- R180: ADD writes the sum of the old destination and the source value, and the flags of that sum. -/
theorem execute_add {dest src : Operand} {len : Nat} {rf : RegFile} (fl : Flags) {i : Reg16} {b : Word}
    (hd : destIndex dest = some i) (hs : srcValue rf src = some b) :
    execute ⟨.ADD, dest, src, len⟩ rf fl =
      some (rf.set i (Spec.add (rf.get i) b), Spec.flags (Spec.add (rf.get i) b)) := by
  rw [execute_of_resolved fl hd hs, aluAdd_eq_spec, flagsOf_eq_spec]

/-! ### The record port -/

theorem exec_recAddReg {s : State} (d r : Reg16) (hs : s.status = .run) (hm : s.inputs.mode = .recordExec) :
    exec (.recAddReg d r) s =
      Spec.recordDone s (s.regs.set d (Spec.add (s.regs.get d) (s.regs.get r)))
        (Spec.flags (Spec.add (s.regs.get d) (s.regs.get r))) :=
  exec_of_port_executed (i := .recAddReg d r) rfl hs hm
    (execute_add s.flags (destIndex_operand d) (srcValue_operand s.regs r))

theorem exec_recAddImm {s : State} (d : Reg16) (v : Word) (hs : s.status = .run) (hm : s.inputs.mode = .recordExec) :
    exec (.recAddImm d v) s =
      Spec.recordDone s (s.regs.set d (Spec.add (s.regs.get d) v)) (Spec.flags (Spec.add (s.regs.get d) v)) :=
  exec_of_port_executed (i := .recAddImm d v) rfl hs hm
    (execute_add s.flags (destIndex_operand d) (srcValue_imm16 s.regs v))

/-- Settles O11: the packed word and the abstract record each make the step take the record-port form of ADD, and
`exec` of that form is the one next state of both. -/
theorem addRecordCompletes : Obligations.AddRecordCompletes := by
  intro s
  refine ⟨fun d r => ⟨exec_recAddReg d r, ?packedReg, fun len => ⟨?abstractReg, ?textReg⟩⟩,
    fun d v => ⟨exec_recAddImm d v, ?packedImm, fun len w => ⟨?abstractImm, ?textImm⟩⟩⟩
  case packedReg => exact recordDone_of_packed (decodeXrec_encodeXrecReg 0b01 d r) (exec_recAddReg d r)
  case abstractReg => exact recordDone_of_abstract (instr_reg 0b01 d r len) (exec_recAddReg d r)
  case textReg => exact render_of_reg .ADD d (Spec.reg r) len
  case packedImm => exact recordDone_of_packed (decodeXrec_encodeXrecImm 0b01 d v) (exec_recAddImm d v)
  case abstractImm => exact recordDone_of_abstract (instr_imm 0b01 d v w len) (exec_recAddImm d v)
  case textImm => exact render_of_reg .ADD d (.immediate v w) len

/-! ### From the bytes -/

/-- R74, R75, R77: `05` is the accumulator-immediate ADD, whatever byte follows. -/
theorem classify_addAx (ext : Bool) (b1 : Byte) : classify ext 0x05 b1 = some .addAI := by
  have h : classify1 0x05 = some .addAI := by decide
  simp only [classify, h]

theorem insnLength_addAx (b1 : Byte) : insnLength .addAI 0x05 b1 = 3 := rfl

theorem decodeAt_addAxImm16 (ext : Bool) {st : Stream} {pc : Nat} {lo hi : Byte}
    (h0 : st.memRead1 pc = some 0x05) (h1 : st.memRead1 (pc + 1) = some lo) (h2 : st.memRead1 (pc + 2) = some hi) :
    decodeAt ext st pc = .ok (.addAxImm16 (BitVec.ofNat 16 (lo.toNat + 256 * hi.toNat))) := by
  have hl : ¬ pc + 3 > st.len := Nat.not_lt.mpr (lt_of_memRead1 h2)
  have hw : fieldW 0x05 = true := rfl
  have himm : st.memRead2 (pc + 1) = some (littleEndian lo hi) := by rw [Stream.memRead2_eq, h1, h2]; rfl
  have hops : decodeOperands .addAI st pc 0x05 lo = some (.addAxImm16 (littleEndian lo hi)) := by
    simp only [decodeOperands, decodeAddAI, hw, himm, Option.map_some]
  rw [decodeAt_eq h0 h1]
  simp only [classify_addAx, insnLength_addAx, if_neg hl, hops, MovProofs.littleEndian_eq_ofNat]

theorem exec_addAxImm16 {s : State} (v : Word) (he : Spec.executing s) :
    exec (.addAxImm16 v) s =
      Spec.streamDone s ⟨.ADD, Spec.reg .ax, .immediate v .word, 3⟩ (s.regs.set .ax (Spec.add (s.regs.get .ax) v))
        (Spec.flags (Spec.add (s.regs.get .ax) v)) :=
  exec_of_stream_executed (i := .addAxImm16 v) rfl he
    (execute_add s.flags (destIndex_operand .ax) (srcValue_imm16 s.regs v))

/-- Settles O33: with a third byte the instruction decodes and executes; without one its length of 3 passes the end. -/
theorem stepAddAxImm16 : Obligations.StepAddAxImm16 := by
  intro s lo he h0 h1
  have ⟨hs, hmode⟩ := he
  have hm : s.inputs.mode ≠ .recordExec := by rw [hmode]; decide
  refine ⟨fun hi h2 => ?complete, fun hlen => ?truncated⟩
  case complete =>
    exact (step_of_decodeAt_ok hs hm (decodeAt_addAxImm16 _ h0 h1 h2)).trans (exec_addAxImm16 _ he)
  case truncated =>
    exact step_of_length_gt hs hm h0 h1 (classify_addAx _ lo) (by rw [insnLength_addAx]; omega)

end Sys2Proof.AddProofs
end

section
/-! PROOFS. The subtraction of the ALU in the spec's numbers (40_execute_engine R143). -/

namespace Sys2Proof.AluProofs

open Sys2Proof.Machine

/-- R143: the word of the difference is the difference of the two signed numbers, reduced modulo 2^16. -/
theorem aluSub_eq_spec (a b : Word) : aluSub a b = Spec.sub a b := by
  apply BitVec.eq_of_toInt_eq
  rw [aluSub, Spec.sub, BitVec.toInt_sub, BitVec.toInt_ofInt]
  exact (Int.emod_bmod _ _).symm

end Sys2Proof.AluProofs
end

section
/-! PROOFS. What the record port makes of a record, for every operation at once: the completion of the two well-formed
kinds, by either kind of item and as text, and the refusal of every other record in range (44_controller R219). -/

namespace Sys2Proof.TakenProofs

open Sys2Proof.Machine

variable {s : State} {rec : Record}

/-! ### Completion -/

section
variable {d : Reg16} {x : RegFile × Flags} (op : BitVec 2)

/-- The record of a port instruction with a register source. -/
theorem record_xrecReg (d r : Reg16) :
    (xrecReg op d r).record = ⟨Spec.xrecMnemonic op.toNat, Spec.reg d, Spec.reg r, 0⟩ := by
  obtain rfl | rfl | rfl | rfl := mod_cases op
  all_goals rfl

/-- The record of a port instruction with an immediate source. -/
theorem record_xrecImm (d : Reg16) (v : Word) :
    (xrecImm op d v).record = ⟨Spec.xrecMnemonic op.toNat, Spec.reg d, imm16Operand v, 0⟩ := by
  obtain rfl | rfl | rfl | rfl := mod_cases op
  all_goals rfl

/-- With a register source: the instruction, its `XREC` word and its abstract records all come to what the engine
answers, and the text names the two registers. -/
theorem recordReg_completes {r : Reg16}
    (hx : execute ⟨Spec.xrecMnemonic op.toNat, Spec.reg d, Spec.reg r, 0⟩ s.regs s.flags = some x) :
    (s.status = .run → s.inputs.mode = .recordExec → exec (xrecReg op d r) s = Spec.recordDone s x.1 x.2) ∧
    (Spec.atRecord s (.packed (encodeXrecReg op d r)) → step s = Spec.recordDone s x.1 x.2) ∧
    ∀ len, (Spec.atRecord s (.abstract ⟨Spec.xrecMnemonic op.toNat, Spec.reg d, Spec.reg r, len⟩) →
        step s = Spec.recordDone s x.1 x.2) ∧
      render ⟨Spec.xrecMnemonic op.toNat, Spec.reg d, Spec.reg r, len⟩ =
        renderMnemonic (Spec.xrecMnemonic op.toNat) ++ " " ++ wordName d.index.toNat ++ ", " ++
          wordName r.index.toNat := by
  have hd : decodeXrec (encodeXrecReg op d r) = some (xrecReg op d r) := decodeXrec_encodeXrecReg op d r
  have hexec (hs : s.status = .run) (hm : s.inputs.mode = .recordExec) :
      exec (xrecReg op d r) s = Spec.recordDone s x.1 x.2 :=
    exec_of_port_executed (decodeXrec_onRecordPort hd) hs hm (by rw [record_xrecReg, hx])
  exact ⟨hexec, recordDone_of_packed hd hexec,
    fun len => ⟨recordDone_of_abstract (instr_reg op d r len) hexec, render_of_reg _ d (Spec.reg r) len⟩⟩

/-- The same with an immediate source, whatever its intended width; the text gives its signed decimal. -/
theorem recordImm_completes {v : Word}
    (hx : execute ⟨Spec.xrecMnemonic op.toNat, Spec.reg d, imm16Operand v, 0⟩ s.regs s.flags = some x) :
    (s.status = .run → s.inputs.mode = .recordExec → exec (xrecImm op d v) s = Spec.recordDone s x.1 x.2) ∧
    (Spec.atRecord s (.packed (encodeXrecImm op d v)) → step s = Spec.recordDone s x.1 x.2) ∧
    ∀ len w, (Spec.atRecord s (.abstract ⟨Spec.xrecMnemonic op.toNat, Spec.reg d, .immediate v w, len⟩) →
        step s = Spec.recordDone s x.1 x.2) ∧
      render ⟨Spec.xrecMnemonic op.toNat, Spec.reg d, .immediate v w, len⟩ =
        renderMnemonic (Spec.xrecMnemonic op.toNat) ++ " " ++ wordName d.index.toNat ++ ", " ++ toString v.toInt := by
  have hd : decodeXrec (encodeXrecImm op d v) = some (xrecImm op d v) := decodeXrec_encodeXrecImm op d v
  have hexec (hs : s.status = .run) (hm : s.inputs.mode = .recordExec) :
      exec (xrecImm op d v) s = Spec.recordDone s x.1 x.2 :=
    exec_of_port_executed (decodeXrec_onRecordPort hd) hs hm (by rw [record_xrecImm, hx])
  exact ⟨hexec, recordDone_of_packed hd hexec,
    fun len w => ⟨recordDone_of_abstract (instr_imm op d v w len) hexec, render_of_reg _ d (.immediate v w) len⟩⟩

end

/-! ### Refusal -/

theorem isWordReg_of_ofRecordIndex {n : Nat} {r : Reg16} (h : Reg16.ofRecordIndex n = some r) :
    Operand.isWordReg (.register .word n) = true :=
  decide_eq_true (lt_of_ofRecordIndex h)

/-- Only a well-formed record stands for an instruction (R31). -/
theorem wellFormed_of_instr {i : Instr} (h : rec.instr = some i) : rec.wellFormed = true := by
  unfold Record.instr at h
  split at h
  next hdest hsrc =>
    split at h
    next hd hs =>
      rw [Record.wellFormed, hdest, hsrc, isWordReg_of_ofRecordIndex hd, isWordReg_of_ofRecordIndex hs]; rfl
    next => cases h
  next hdest hsrc =>
    split at h
    next hd => rw [Record.wellFormed, hdest, hsrc, isWordReg_of_ofRecordIndex hd]; rfl
    next => cases h
  next => cases h

theorem instr_eq_none_of_not_wellFormed (h : rec.wellFormed = false) : rec.instr = none :=
  Option.eq_none_iff_forall_not_mem.mpr fun _ hi => by rw [wellFormed_of_instr hi] at h; cases h

/-- R142, R219: a record in range that is not well formed reaches the engine, which does not execute it; the policy
says what becomes of the run (R217). -/
theorem step_of_not_wellFormed (hr : recordInRange rec = true) (hw : rec.wellFormed = false)
    (h : Spec.atRecord s (.abstract rec)) :
    step s = match s.inputs.execFaultPolicy with
      | .halt => Spec.recordHalted s
      | .rejectAndContinue => Spec.recordRejected s := by
  obtain ⟨hs, hm, hitem⟩ := h
  have hi : rec.instr = none := instr_eq_none_of_not_wellFormed hw
  have hstep : step s = .next (s.executeRecord rec) := by
    simp only [step, fetch_of_item hs hm hitem, fetchItem, hr, if_true, hi]
  obtain ⟨x, hx, -⟩ | ⟨-, hp, e⟩ | ⟨-, hp, e⟩ := executeRecord_cases s rec
  · rw [execute_of_instr_none _ _ hi] at hx; cases hx
  · rw [hstep, e, hp]; rfl
  · rw [hstep, e, hp]; rfl

end Sys2Proof.TakenProofs
end

section
/-! PROOFS. SUB and CMP: on the record port (43_sub_cmp R201 to R206), and on no other way in (R200). -/

namespace Sys2Proof.SubCmpProofs

open Sys2Proof.Machine
open Sys2Proof.AluProofs
open Sys2Proof.TakenProofs

section
variable {dest src : Operand} {len : Nat} {rf : RegFile} (fl : Flags) {i : Reg16} {b : Word}

/-- R201: SUB writes the difference of the old destination and the source value, and the flags of that difference. -/
theorem execute_sub (hd : destIndex dest = some i) (hs : srcValue rf src = some b) :
    execute ⟨.SUB, dest, src, len⟩ rf fl =
      some (rf.set i (Spec.sub (rf.get i) b), Spec.flags (Spec.sub (rf.get i) b)) := by
  rw [← aluSub_eq_spec, ← flagsOf_eq_spec]
  exact execute_of_resolved fl hd hs

/-- R204: CMP sets the flags of the same difference and hands the register file on as it is. -/
theorem execute_cmp (hd : destIndex dest = some i) (hs : srcValue rf src = some b) :
    execute ⟨.CMP, dest, src, len⟩ rf fl = some (rf, Spec.flags (Spec.sub (rf.get i) b)) := by
  rw [← aluSub_eq_spec, ← flagsOf_eq_spec]
  exact execute_of_resolved fl hd hs

end

/-- Settles O12: what the engine answers for SUB is what every way into the record port comes to, and a record in
range that is not well formed is refused. -/
theorem subRecordCompletes : Obligations.SubRecordCompletes := by
  intro s
  refine ⟨fun d r => ?reg, fun d v => ?imm, fun dest src len => ?refused⟩
  case reg => exact recordReg_completes 0b10 (execute_sub s.flags (destIndex_operand d) (srcValue_operand s.regs r))
  case imm => exact recordImm_completes 0b10 (execute_sub s.flags (destIndex_operand d) (srcValue_imm16 s.regs v))
  case refused => exact step_of_not_wellFormed

/-- Settles O13: as for SUB, with the registers that CMP leaves alone. -/
theorem cmpRecordCompletes : Obligations.CmpRecordCompletes := by
  intro s
  refine ⟨fun d r => ?reg, fun d v => ?imm, fun dest src len => ?refused⟩
  case reg => exact recordReg_completes 0b11 (execute_cmp s.flags (destIndex_operand d) (srcValue_operand s.regs r))
  case imm => exact recordImm_completes 0b11 (execute_cmp s.flags (destIndex_operand d) (srcValue_imm16 s.regs v))
  case refused => exact step_of_not_wellFormed

/-! ### The instruction stream -/

/-- R103: the fourteen forms of the stream are six of MOV and eight of ADD. -/
theorem mnemonic_of_stream {i : Instr} (h : i.onRecordPort = false) :
    i.record.mnemonic = .MOV ∨ i.record.mnemonic = .ADD := by
  cases i with
  | movRm8R8 | movRm16R16 | movR8Rm8 | movR16Rm16 | movR8Imm8 | movR16Imm16 => exact .inl rfl
  | addRm8R8 | addRm16R16 | addR8Rm8 | addR16Rm16 | addRm8Imm8 | addRm16Imm16 | addAlImm8 | addAxImm16 =>
    exact .inr rfl
  | recMovReg | recMovImm | recAddReg | recAddImm | recSubReg | recSubImm | recCmpReg | recCmpImm => cases h

theorem mnemonic_of_decodeAt_ok {ext : Bool} {st : Stream} {pc : Nat} {i : Instr} (h : decodeAt ext st pc = .ok i) :
    i.record.mnemonic ≠ .SUB ∧ i.record.mnemonic ≠ .CMP := by
  obtain ⟨_, _, _, _, _, _, _, _, _, _, hport⟩ := decodeAt_ok h
  obtain hm | hm := mnemonic_of_stream hport
  · rw [hm]; decide
  · rw [hm]; decide

/-- R213: in a stream mode the controller takes an instruction only where the bytes at `pc` decode to it. -/
theorem decodeAt_of_fetch_take {s : State} {i : Instr} (hm : s.inputs.mode ≠ .recordExec) (h : fetch s = .take i) :
    decodeAt s.inputs.extCheck s.inputs.stream s.pc = .ok i := by
  by_cases hs : s.status = .run
  · rw [fetch_of_stream hs hm, fetchStream] at h
    split at h
    next => cases h
    next =>
      split at h
      next => cases h
      next => cases h
      next => cases h
      next hd => cases h; exact hd
  · rw [fetch, if_pos hs] at h; cases h

theorem classify_eq_none {b0 : Byte} (ext : Bool) (b1 : Byte) (h : classify1 b0 = none) : classify ext b0 b1 = none := by
  simp only [classify, h]

/-- Settles O25: every instruction the stream yields is a stream form, and those are MOV and ADD only; the 8086's
subtracts and compares match no row of the classifier's table. -/
theorem streamHasNoSubOrCmp : Obligations.StreamHasNoSubOrCmp := by
  refine ⟨fun _ _ _ _ => mnemonic_of_decodeAt_ok, fun s i hm h => ?taken, fun ext b1 => ?unclassified⟩
  case taken => exact mnemonic_of_decodeAt_ok (decodeAt_of_fetch_take hm h)
  case unclassified =>
    exact ⟨classify_eq_none ext b1 (by decide), classify_eq_none ext b1 (by decide),
      classify_eq_none ext b1 (by decide), classify_eq_none ext b1 (by decide)⟩

end Sys2Proof.SubCmpProofs
end

section
/-! PROOFS. The loop condition of the stream modes (44_controller R212): which steps end a run in `DONE`. -/

namespace Sys2Proof.ControllerProofs

open Sys2Proof.Machine

variable {s t : State}

/-- R212: the controller does not classify below two bytes. -/
theorem step_of_lt_two (hs : s.status = .run) (hm : s.inputs.mode ≠ .recordExec)
    (hl : s.inputs.stream.len - s.pc < 2) : step s = .next s.finish := by
  have hmin : s.inputs.stream.len - s.pc < Config.minLen := hl
  simp only [step, fetch_of_stream hs hm, fetchStream, if_pos hmin]

/-- In a stream mode only the loop condition ends a run in `DONE`: a condition sets a status of its own, and every other
way keeps `RUN`. -/
theorem lt_two_of_stepTo_done (hs : s.status = .run) (hm : s.inputs.mode ≠ .recordExec) (h : StepTo s t)
    (ht : t.status = .done) : s.inputs.stream.len - s.pc < 2 := by
  cases h with
  | stopped hstop => exact absurd hs hstop
  | streamEnds _ _ hl => exact hl
  | unknownStrict | truncated | executionHalted => cases ht
  | unknownSkipped | disassembled | executed | executionRejected => cases hs.symm.trans ht
  | recordsEnd _ hrec | recordIllFormed _ _ hrec | recordExecuted _ _ _ _ hrec | recordHalted _ _ hrec
  | recordRejected _ _ hrec => exact absurd hrec hm

/-- Settles O29: below two bytes the step is the normal end, from reset too; a step that answers `DONE` had less than
two bytes left. -/
theorem loopEndsBelowTwoBytes : Obligations.LoopEndsBelowTwoBytes := by
  refine ⟨fun s hs hm hl => ?ends, fun s hs hm hl hstep => ?goesOn, fun fr inp hm hl => ?fromReset⟩
  case ends => exact step_of_lt_two hs hm hl
  case goesOn =>
    have hlt := lt_two_of_stepTo_done hs hm (stepTo_of_step hstep) rfl
    omega
  case fromReset =>
    have hlt : inp.stream.len - 0 < 2 := by omega
    exact ⟨_, step_of_lt_two (s := State.resetWith fr inp) rfl hm hlt, rfl, rfl⟩

end Sys2Proof.ControllerProofs
end

section
/-! PROOFS. Every step answers a next state (44_controller R210), no step changes an input (10_state R29), and every
run ends (R220): the induction over runs that the later statements about runs use too. -/

namespace Sys2Proof.ControllerProofs

open Sys2Proof.Machine

variable {s t : State}

/-! ### One step -/

theorem exists_step_next (s : State) : ∃ t, step s = .next t := by
  obtain ⟨-, h⟩ | ⟨-, -, ⟨-, h⟩ | ⟨-, ⟨-, h⟩ | ⟨_, -, h⟩ | ⟨_, -, -, -, ⟨-, h⟩ | ⟨-, h⟩⟩⟩⟩ |
    ⟨-, -, ⟨-, h⟩ | ⟨_, -, h | ⟨_, h⟩⟩⟩ := step_cases s
  all_goals exact ⟨_, h⟩

/-- Settles O36, from the list of the ways a step goes: each of them ends in a next state. -/
theorem stepAlwaysAnswersNext : Obligations.StepAlwaysAnswersNext := exists_step_next

/-- R29: none of the updates that make up a step touches an input. -/
theorem inputs_of_stepTo (h : StepTo s t) : t.inputs = s.inputs := by
  cases h <;> rfl

/-- Settles O37: the inputs are kept, and the stream is one of them. -/
theorem stepKeepsInputs : Obligations.StepKeepsInputs := by
  intro s t h
  have hi : t.inputs = s.inputs := inputs_of_stepTo (stepTo_of_step h)
  exact ⟨hi, fun a => by rw [hi], fun a => by rw [hi]⟩

theorem step_of_stopped (hs : s.status ≠ .run) : step s = .next s := by
  simp only [step, fetch, if_pos hs]

theorem rpc_lt_of_getElem? {item : PortItem} (h : s.inputs.records[s.rpc]? = some item) :
    s.rpc < s.inputs.records.length :=
  (List.getElem?_eq_some_iff.mp h).1

/-- R220: a step that does not end the run moves the counter its mode uses forward, and not past the input's end. -/
theorem stepTo_progress (hs : s.status = .run) (h : StepTo s t) :
    t.status ≠ .run ∨
    (s.inputs.mode ≠ .recordExec ∧ s.pc < t.pc ∧ t.pc ≤ s.inputs.stream.len ∧ t.pc ≤ s.pc + 6) ∨
    (s.inputs.mode = .recordExec ∧ t.rpc = s.rpc + 1 ∧ t.rpc ≤ s.inputs.records.length) := by
  cases h with
  | stopped hstop => exact absurd hs hstop
  | streamEnds | unknownStrict | truncated | executionHalted | recordsEnd | recordIllFormed | recordHalted =>
    exact .inl nofun
  | unknownSkipped _ hm hl =>
    exact .inr (.inl ⟨hm, Nat.lt_succ_self _, show s.pc + 1 ≤ s.inputs.stream.len by omega,
      Nat.add_le_add_left (by decide) _⟩)
  | disassembled i _ hm hd | executed i _ _ hm hd | executionRejected i _ hm hd =>
    have ⟨hle, hmin, hmax⟩ := length_of_decodeAt_ok hd
    exact .inr (.inl ⟨by rw [hm]; decide, Nat.lt_add_of_pos_right (by omega), hle, Nat.add_le_add_left hmax _⟩)
  | recordExecuted _ _ _ _ hm hr | recordRejected _ _ hm hr =>
    exact .inr (.inr ⟨hm, rfl, rpc_lt_of_getElem? hr⟩)

/-! ### Runs -/

theorem run_succ (h : step s = .next t) (n : Nat) : core.run (n + 1) s = core.run n t := by
  have h' : core.step s = .next t := h
  simp only [Host.Core.run, h']

theorem run_of_stopped (hs : s.status ≠ .run) (n : Nat) : core.run n s = .next s := by
  induction n with
  | zero => rfl
  | succ n ih => rw [run_succ (step_of_stopped hs), ih]

/-- How much of its input the controller has still before it: bytes in a stream mode, records in record mode. -/
def inputLeft (s : State) : Nat :=
  if s.inputs.mode = .recordExec then s.inputs.records.length - s.rpc else s.inputs.stream.len - s.pc

theorem inputLeft_of_stream (hm : s.inputs.mode ≠ .recordExec) : inputLeft s = s.inputs.stream.len - s.pc := if_neg hm

theorem inputLeft_of_record (hm : s.inputs.mode = .recordExec) : inputLeft s = s.inputs.records.length - s.rpc :=
  if_pos hm

/-- A step that does not end the run leaves less of the input. -/
theorem inputLeft_lt (hs : s.status = .run) (h : StepTo s t) (ht : t.status = .run) : inputLeft t < inputLeft s := by
  have hi : t.inputs = s.inputs := inputs_of_stepTo h
  obtain hend | ⟨hm, hlt, hle, -⟩ | ⟨hm, heq, hle⟩ := stepTo_progress hs h
  · exact absurd ht hend
  · rw [inputLeft_of_stream hm, inputLeft_of_stream (hi ▸ hm), hi]; omega
  · rw [inputLeft_of_record hm, inputLeft_of_record (hi ▸ hm), hi]; omega

/-- R220: a run has ended after more steps than there is input left. -/
theorem run_ends {n : Nat} (hn : inputLeft s < n) : ∃ t : State, core.run n s = .next t ∧ t.status ≠ .run := by
  induction n generalizing s with
  | zero => exact absurd hn (Nat.not_lt_zero _)
  | succ n ih =>
    by_cases hs : s.status = .run
    · obtain ⟨t, hstep⟩ := exists_step_next s
      rw [run_succ hstep]
      by_cases ht : t.status = .run
      · have hlt : inputLeft t < inputLeft s := inputLeft_lt hs (stepTo_of_step hstep) ht
        exact ih (by omega)
      · exact ⟨t, run_of_stopped ht n, ht⟩
    · exact ⟨s, run_of_stopped hs _, hs⟩

/-- Settles O38: the input left bounds the steps of a run, and is at most L or NREC. -/
theorem everyRunEnds : Obligations.EveryRunEnds := by
  refine ⟨fun s hs => run_of_stopped hs, fun s t hs h => stepTo_progress hs (stepTo_of_step h), fun s hm => ?stream,
    fun s hm => ?record⟩
  case stream => exact run_ends (by rw [inputLeft_of_stream hm]; omega)
  case record => exact run_ends (by rw [inputLeft_of_record hm]; omega)

end Sys2Proof.ControllerProofs
end

section
/-! PROOFS. What the execution engine computes, which records it refuses (40_execute_engine R140 to R148), and what it
leaves unchanged (R147). -/

namespace Sys2Proof.EngineProofs

open Sys2Proof.Machine

/-! ### Results -/

/-- R142: a record that does not execute is halted at or rejected, and neither writes a flag. -/
theorem executeRecord_flags_of_none {s : State} {rec : Record} (h : execute rec s.regs s.flags = none) :
    (s.executeRecord rec).flags = s.flags := by
  obtain ⟨x, hx, -⟩ | ⟨-, -, e⟩ | ⟨-, -, e⟩ := executeRecord_cases s rec
  · rw [hx] at h; cases h
  · rw [e, raise_flags]
  · rw [e, nextRecord_flags, reject_flags]

theorem executeAndAdvance_flags_of_none {s : State} {rec : Record} (h : execute rec s.regs s.flags = none) :
    (s.executeAndAdvance rec).flags = s.flags := by
  obtain ⟨x, hx, -⟩ | ⟨-, -, e⟩ | ⟨-, -, e⟩ := executeAndAdvance_cases s rec
  · rw [hx] at h; cases h
  · rw [e, raise_flags]
  · rw [e, advance_flags, reject_flags]

/-- Settles O3: one rule for each mnemonic, in the spec's numbers. -/
theorem engineComputesAluAndFlags : Obligations.EngineComputesAluAndFlags := by
  refine ⟨fun rf fl dest src len i b hd hs => ⟨?mov, ?add, ?sub, ?cmp⟩, fun s rec h => ?refused⟩
  case mov => exact MovProofs.execute_mov fl hd hs
  case add => exact AddProofs.execute_add fl hd hs
  case sub => exact SubCmpProofs.execute_sub fl hd hs
  case cmp => exact SubCmpProofs.execute_cmp fl hd hs
  case refused => exact ⟨executeRecord_flags_of_none h, executeAndAdvance_flags_of_none h⟩

/-! ### Refusals -/

/-- R141: the destination resolves exactly when it is a word register of the file. -/
theorem destIndex_isSome (op : Operand) : (destIndex op).isSome = op.isWordReg := by
  match op with
  | .register .word n => exact Reg16.ofRecordIndex_isSome n
  | .register .byte _ | .memory _ _ _ | .direct _ | .immediate _ _ => rfl

/-- R141: the source resolves exactly when it is a word register of the file or an immediate. -/
theorem srcValue_isSome_eq (rf : RegFile) (op : Operand) :
    (srcValue rf op).isSome = (op.isWordReg || op.isImmediate) := by
  match op with
  | .register .word n => rw [srcValue, Option.isSome_map, Reg16.ofRecordIndex_isSome]; exact (Bool.or_false _).symm
  | .register .byte _ | .memory _ _ _ | .direct _ | .immediate _ _ => rfl

/-- Settles O4: the engine needs both operands resolved, and a well-formed record is one whose operands resolve. -/
theorem lookupFailureExactly : Obligations.LookupFailureExactly := by
  intro rec rf fl
  rw [execute_eq_none_iff, Record.wellFormed, ← destIndex_isSome, ← srcValue_isSome_eq rf, Bool.and_eq_false_iff,
    Option.isSome_eq_false_iff, Option.isSome_eq_false_iff, Option.isNone_iff_eq_none, Option.isNone_iff_eq_none]

theorem execute_isSome_eq_wellFormed (rec : Record) (rf : RegFile) (fl : Flags) :
    (execute rec rf fl).isSome = rec.wellFormed := by
  cases hx : execute rec rf fl with
  | none => rw [(lookupFailureExactly rec rf fl).mp hx, Option.isSome_none]
  | some x =>
    cases hw : rec.wellFormed with
    | true => rfl
    | false => rw [(lookupFailureExactly rec rf fl).mpr hw] at hx; cases hx

@[simp] theorem isWordReg_operand (r : Reg16) : r.operand.isWordReg = true := by cases r <;> rfl

@[simp] theorem isWordReg_operand8 (r : Reg8) : r.operand.isWordReg = false := rfl

@[simp] theorem isWordReg_rm8 (x : RegMem Reg8) : (x.operand Reg8.operand).isWordReg = false := by cases x <;> rfl

@[simp] theorem isImmediate_imm16 (v : Word) : (imm16Operand v).isImmediate = true := rfl

/-- R148: the well-formed records among those of the instructions are the word forms on registers and immediates. -/
theorem wellFormed_record (i : Instr) : i.record.wellFormed = i.executable := by
  cases i with
  | movRm16R16 x _ | movR16Rm16 _ x | addRm16R16 x _ | addR16Rm16 _ x | addRm16Imm16 x _ =>
    cases x with
    | reg r => simp [Instr.record, Record.wellFormed, RegMem.operand, Instr.executable]
    | mem _ _ _ | direct _ =>
      simp [Instr.record, Record.wellFormed, RegMem.operand, Instr.executable, Operand.isWordReg, Operand.isImmediate]
  | _ => simp [Instr.record, Record.wellFormed, Instr.executable]

/-- Settles O5: what executes is well formed, and which records are is read off the instruction. -/
theorem executableSubset : Obligations.ExecutableSubset :=
  fun i rf fl => (execute_isSome_eq_wellFormed i.record rf fl).trans (wellFormed_record i)

theorem executable_of_execute_some {i : Instr} {rf : RegFile} {fl : Flags} {x : RegFile × Flags}
    (h : execute i.record rf fl = some x) : i.executable = true := by
  rw [← executableSubset i rf fl, h, Option.isSome_some]

theorem not_executable_of_execute_none {i : Instr} {rf : RegFile} {fl : Flags}
    (h : execute i.record rf fl = none) : i.executable = false := by
  rw [← executableSubset i rf fl, h, Option.isSome_none]

theorem execute_none_of_not_executable {i : Instr} (rf : RegFile) (fl : Flags) (h : i.executable = false) :
    execute i.record rf fl = none := by
  rw [← Option.isNone_iff_eq_none, ← Option.isSome_eq_false_iff, executableSubset i rf fl, h]

/-! ### What an executed instruction leaves unchanged -/

/-- Whatever executes has two operands that resolve. -/
theorem resolved_of_execute_some {rec : Record} {rf : RegFile} {fl : Flags} {x : RegFile × Flags}
    (h : execute rec rf fl = some x) : ∃ i b, destIndex rec.dest = some i ∧ srcValue rf rec.src = some b := by
  have hn : ¬(destIndex rec.dest = none ∨ srcValue rf rec.src = none) := by
    rw [← execute_eq_none_iff rec rf fl, h]; exact Option.some_ne_none x
  obtain ⟨hd, hs⟩ := not_or.mp hn
  obtain ⟨i, hi⟩ := Option.ne_none_iff_exists'.mp hd
  obtain ⟨b, hb⟩ := Option.ne_none_iff_exists'.mp hs
  exact ⟨i, b, hi, hb⟩

/-- R160: MOV has no effect on the flags. -/
theorem execute_flags_of_mov {rec : Record} {rf : RegFile} {fl : Flags} {x : RegFile × Flags}
    (h : execute rec rf fl = some x) (hm : rec.mnemonic = .MOV) : x.2 = fl := by
  obtain ⟨i, b, hd, hs⟩ := resolved_of_execute_some h
  rw [execute_of_resolved fl hd hs, hm] at h
  cases h; rfl

/-- R204: CMP writes no register. -/
theorem execute_regs_of_cmp {rec : Record} {rf : RegFile} {fl : Flags} {x : RegFile × Flags}
    (h : execute rec rf fl = some x) (hm : rec.mnemonic = .CMP) : x.1 = rf := by
  obtain ⟨i, b, hd, hs⟩ := resolved_of_execute_some h
  rw [execute_of_resolved fl hd hs, hm] at h
  cases h; rfl

/-- R147: an executable instruction other than CMP writes the register its destination resolves to. -/
theorem writes_eq_destIndex {i : Instr} (he : i.executable = true) (hc : i.record.mnemonic ≠ .CMP) :
    i.writes = destIndex i.record.dest := by
  cases i with
  | movRm16R16 x _ | movR16Rm16 _ x | addRm16R16 x _ | addR16Rm16 _ x | addRm16Imm16 x _ =>
    cases x with
    | reg r => simp [Instr.writes, Instr.record, RegMem.operand]
    | mem _ _ _ | direct _ => cases he
  | movR16Imm16 | addAxImm16 | recMovReg | recMovImm | recAddReg | recAddImm | recSubReg | recSubImm =>
    simp [Instr.writes, Instr.record]
  | movRm8R8 | movR8Rm8 | movR8Imm8 | addRm8R8 | addR8Rm8 | addRm8Imm8 | addAlImm8 => cases he
  | recCmpReg | recCmpImm => exact absurd rfl hc

/-- R147: the one register that an executed instruction changes is the one it is said to write. -/
theorem execute_get_of_writes_ne {i : Instr} {rf : RegFile} {fl : Flags} {x : RegFile × Flags} {r : Reg16}
    (h : execute i.record rf fl = some x) (hw : i.writes ≠ some r) : x.1.get r = rf.get r := by
  by_cases hc : i.record.mnemonic = .CMP
  · rw [execute_regs_of_cmp h hc]
  · exact execute_get_of_ne h (writes_eq_destIndex (executable_of_execute_some h) hc ▸ hw)

end Sys2Proof.EngineProofs
end

section
/-! PROOFS. What exec of an instruction answers (44_controller R213, R217 to R219): the completions of the stream forms,
their refusal, and the frame of all 22 instructions. -/

namespace Sys2Proof.ExecProofs

open Sys2Proof.Machine
open Sys2Proof.EngineProofs
open Sys2Proof.TakenProofs

variable {i : Instr} {s t : State}

/-! ### Completion in `DECODE_EXEC` -/

/-- Settles O6: MOV of the engine, committed by the step of `DECODE_EXEC`. -/
theorem movStreamCompletes : Obligations.MovStreamCompletes := by
  intro s he
  refine ⟨fun d r => ?rm, fun d r => ?reg, fun d v => MovProofs.exec_movR16Imm16 d v he⟩
  case rm =>
    exact exec_of_stream_executed (i := .movRm16R16 (.reg d) r) rfl he
      (MovProofs.execute_mov s.flags (destIndex_operand d) (srcValue_operand s.regs r))
  case reg =>
    exact exec_of_stream_executed (i := .movR16Rm16 d (.reg r)) rfl he
      (MovProofs.execute_mov s.flags (destIndex_operand d) (srcValue_operand s.regs r))

/-- Settles O7: ADD of the engine, committed by the step of `DECODE_EXEC`. -/
theorem addStreamCompletes : Obligations.AddStreamCompletes := by
  intro s he
  refine ⟨fun d r => ?rm, fun d r => ?reg, fun d v => ?imm, fun v => AddProofs.exec_addAxImm16 v he⟩
  case rm =>
    exact exec_of_stream_executed (i := .addRm16R16 (.reg d) r) rfl he
      (AddProofs.execute_add s.flags (destIndex_operand d) (srcValue_operand s.regs r))
  case reg =>
    exact exec_of_stream_executed (i := .addR16Rm16 d (.reg r)) rfl he
      (AddProofs.execute_add s.flags (destIndex_operand d) (srcValue_operand s.regs r))
  case imm =>
    exact exec_of_stream_executed (i := .addRm16Imm16 (.reg d) v) rfl he
      (AddProofs.execute_add s.flags (destIndex_operand d) (srcValue_imm16 s.regs v))

/-! ### Emission alone, and refusal -/

/-- Settles O8: emission and the advance are all that `DISASM` does with a stream form. -/
theorem disasmCompletes : Obligations.DisasmCompletes := by
  intro i s hp hs hm
  rw [exec_of_stream s hp, takeFromStream_disasm _ hs hm, length_record]
  rfl

/-- R217: what the two policies make of an emitted instruction that the engine refuses. -/
theorem exec_of_stream_refused (hp : i.onRecordPort = false) (he : Spec.executing s)
    (hx : execute i.record s.regs s.flags = none) :
    exec i s = .next (match s.inputs.execFaultPolicy with
      | .halt => (s.emit i.record).raise .execLookup s.pc
      | .rejectAndContinue => ((s.emit i.record).reject s.pc).advance i.length) := by
  obtain ⟨hs, hm⟩ := he
  rw [exec_of_stream s hp, takeFromStream_decodeExec _ hs hm]
  obtain ⟨x, hx', -⟩ | ⟨-, hpol, e⟩ | ⟨-, hpol, e⟩ := executeAndAdvance_cases (s.emit i.record) i.record
  · exact absurd (hx.symm.trans hx') nofun
  · rw [e, show s.inputs.execFaultPolicy = .halt from hpol]; rfl
  · rw [e, show s.inputs.execFaultPolicy = .rejectAndContinue from hpol, length_record]; rfl

/-- Settles O9: the engine executes no form outside the executable subset. -/
theorem streamFormsRefused : Obligations.StreamFormsRefused := by
  intro i s hp hex he
  have h := exec_of_stream_refused hp he (execute_none_of_not_executable s.regs s.flags hex)
  exact ⟨fun hpol => by rw [h, hpol]; rfl, fun hpol => by rw [h, hpol]; rfl⟩

/-! ### The frame -/

/-- `ExecTo i s t`: the ways in which exec of `i` comes from `s` to the next state `t`. -/
inductive ExecTo (i : Instr) (s : State) : State → Prop
  | emitted (hp : i.onRecordPort = false) : ExecTo i s ((s.emit i.record).advance i.length)
  | executed (x : RegFile × Flags) (hp : i.onRecordPort = false) (hx : execute i.record s.regs s.flags = some x) :
      ExecTo i s (((s.emit i.record).commit x).advance i.length)
  | halted (hp : i.onRecordPort = false) (hx : execute i.record s.regs s.flags = none) :
      ExecTo i s ((s.emit i.record).raise .execLookup s.pc)
  | rejected (hp : i.onRecordPort = false) (hx : execute i.record s.regs s.flags = none) :
      ExecTo i s (((s.emit i.record).reject s.pc).advance i.length)
  | recordExecuted (x : RegFile × Flags) (hp : i.onRecordPort = true)
      (hx : execute i.record s.regs s.flags = some x) : ExecTo i s ((s.commit x).nextRecord)
  | recordHalted (hp : i.onRecordPort = true) (hx : execute i.record s.regs s.flags = none) :
      ExecTo i s (s.raise .execLookup s.rpc)
  | recordRejected (hp : i.onRecordPort = true) (hx : execute i.record s.regs s.flags = none) :
      ExecTo i s ((s.reject s.rpc).nextRecord)

theorem execTo_of_exec (h : exec i s = .next t) : ExecTo i s t := by
  cases hp : i.onRecordPort with
  | false =>
    rw [exec_of_stream s hp] at h
    obtain ⟨-, ⟨-, rfl⟩ | ⟨-, rfl⟩⟩ := takeFromStream_next h
    · rw [length_record]; exact .emitted hp
    · obtain ⟨x, hx, e⟩ | ⟨hx, -, e⟩ | ⟨hx, -, e⟩ := executeAndAdvance_cases (s.emit i.record) i.record
      · rw [e, length_record]; exact .executed x hp hx
      · rw [e]; exact .halted hp hx
      · rw [e, length_record]; exact .rejected hp hx
  | true =>
    rw [exec_of_port s hp] at h
    obtain ⟨-, -, rfl⟩ := takeFromPort_next h
    obtain ⟨x, hx, e⟩ | ⟨hx, -, e⟩ | ⟨hx, -, e⟩ := executeRecord_cases s i.record
    · rw [e]; exact .recordExecuted x hp hx
    · rw [e]; exact .recordHalted hp hx
    · rw [e]; exact .recordRejected hp hx

theorem inputs_of_execTo (h : ExecTo i s t) : t.inputs = s.inputs := by cases h <;> rfl

/-- R147: only a commit of the engine's result touches a register, and of those only the one written. -/
theorem regs_get_of_execTo (h : ExecTo i s t) {r : Reg16} (hw : i.writes ≠ some r) : t.regs.get r = s.regs.get r := by
  cases h with
  | executed _ _ hx | recordExecuted _ _ hx => exact execute_get_of_writes_ne hx hw
  | emitted | halted | rejected | recordHalted | recordRejected => rfl

/-- R26: only a commit of the engine's result touches a flag, and not MOV's. -/
theorem flags_of_execTo (h : ExecTo i s t) (hf : i.record.mnemonic = .MOV ∨ i.executable = false) :
    t.flags = s.flags := by
  cases h with
  | executed _ _ hx | recordExecuted _ _ hx =>
    obtain hm | he := hf
    · exact execute_flags_of_mov hx hm
    · rw [executable_of_execute_some hx] at he; cases he
  | emitted | halted | rejected | recordHalted | recordRejected => rfl

theorem pc_out_of_execTo (h : ExecTo i s t) (hp : i.onRecordPort = true) : t.pc = s.pc ∧ t.out = s.out := by
  cases h with
  | recordExecuted | recordHalted | recordRejected => exact ⟨rfl, rfl⟩
  | emitted hp' | executed _ hp' | halted hp' | rejected hp' => rw [hp] at hp'; cases hp'

theorem rpc_of_execTo (h : ExecTo i s t) (hp : i.onRecordPort = false) : t.rpc = s.rpc := by
  cases h with
  | emitted | executed | halted | rejected => rfl
  | recordExecuted _ hp' | recordHalted hp' | recordRejected hp' => rw [hp] at hp'; cases hp'

/-- R148: an executable instruction raises no condition and is not rejected. -/
theorem status_of_execTo (h : ExecTo i s t) (he : i.executable = true) :
    t.status = s.status ∧ t.faultInfo = s.faultInfo ∧ t.execRejected = s.execRejected := by
  cases h with
  | emitted | executed | recordExecuted => exact ⟨rfl, rfl, rfl⟩
  | halted _ hx | rejected _ hx | recordHalted _ hx | recordRejected _ hx =>
    rw [not_executable_of_execute_none hx] at he; cases he

/-- Settles O14, clause by clause over the ways of exec. -/
theorem instructionFrame : Obligations.InstructionFrame := by
  intro i s t hexec
  have h : ExecTo i s t := execTo_of_exec hexec
  exact ⟨inputs_of_execTo h, fun a => by rw [inputs_of_execTo h], fun _ => regs_get_of_execTo h, flags_of_execTo h,
    pc_out_of_execTo h, rpc_of_execTo h, status_of_execTo h⟩

/-! ### Outside the controller's conditions (log entry 9) -/

theorem takeFromStream_of_record (rec : Record) (hs : s.status = .run) (hm : s.inputs.mode = .recordExec) :
    takeFromStream rec s = .fault .wrongPort := by
  simp [takeFromStream, hs, hm]

theorem takeFromPort_of_stream (rec : Record) (hs : s.status = .run) (hm : s.inputs.mode ≠ .recordExec) :
    takeFromPort rec s = .fault .wrongPort := by
  cases h : s.inputs.mode with
  | recordExec => exact absurd h hm
  | disasm | decodeExec => simp [takeFromPort, hs, h]

theorem exec_of_stopped (i : Instr) (hs : s.status ≠ .run) : exec i s = .fault .controllerStopped := by
  cases hp : i.onRecordPort with
  | false => rw [exec_of_stream s hp, takeFromStream, if_pos hs]
  | true => rw [exec_of_port s hp, takeFromPort, if_pos hs]

/-- Settles O27: a stream form and a port form, each against record mode and a stream mode. -/
theorem execStopsOutsideTheController : Obligations.ExecStopsOutsideTheController := by
  intro i s
  refine ⟨exec_of_stopped i, fun hs hport => ?wrong, fun hs hport => ?right⟩
  case wrong =>
    by_cases hm : s.inputs.mode = .recordExec <;> simp only [hm, decide_true, decide_false] at hport
    · have hp : i.onRecordPort = false := Bool.eq_false_iff.mpr hport
      rw [exec_of_stream s hp, takeFromStream_of_record _ hs hm]
    · have hp : i.onRecordPort = true := by simpa using hport
      rw [exec_of_port s hp, takeFromPort_of_stream _ hs hm]
  case right =>
    cases hm : s.inputs.mode <;> simp only [hm, reduceCtorEq, decide_true, decide_false] at hport
    · exact ⟨_, by rw [exec_of_stream s hport, takeFromStream_disasm _ hs hm]⟩
    · exact ⟨_, by rw [exec_of_stream s hport, takeFromStream_decodeExec _ hs hm]⟩
    · exact ⟨_, by rw [exec_of_port s hport, takeFromPort_recordExec _ hs hm]⟩

end Sys2Proof.ExecProofs
end

section
/-! PROOFS. What every step keeps of the controller's state: the invariant (10_state R24, R25, R28, R32; 60_exceptions
R240), the sticky rejection bit (R28), and the data where a step does not execute (44_controller R211; 60_exceptions
R248). -/

namespace Sys2Proof.InvariantProofs

open Sys2Proof.Machine
open Sys2Proof.EngineProofs
open Sys2Proof.ControllerProofs

variable {s t : State}

/-- The position a condition or a rejection records (R240, R217): the record counter in record mode, `pc` otherwise. -/
def position (s : State) : Nat := if s.inputs.mode = .recordExec then s.rpc else s.pc

theorem position_of_record (hm : s.inputs.mode = .recordExec) : position s = s.rpc := if_pos hm

theorem position_of_stream (hm : s.inputs.mode ≠ .recordExec) : position s = s.pc := if_neg hm

theorem not_record_of_disasm (hm : s.inputs.mode = .disasm) : s.inputs.mode ≠ .recordExec := by rw [hm]; decide

theorem not_record_of_decodeExec (hm : s.inputs.mode = .decodeExec) : s.inputs.mode ≠ .recordExec := by rw [hm]; decide

/-! ### The controller's invariant -/

/-- R24, R25: a counter that moves stays within its input. -/
theorem inRange_of_stepTo (hI : s.InRange) (h : StepTo s t) : t.InRange := by
  obtain ⟨hpc, hrpc⟩ := hI
  cases h with
  | stopped | streamEnds | unknownStrict | truncated | executionHalted | recordsEnd | recordIllFormed | recordHalted =>
    exact ⟨hpc, hrpc⟩
  | unknownSkipped _ _ hl => exact ⟨show s.pc + 1 ≤ s.inputs.stream.len by omega, hrpc⟩
  | disassembled i _ _ hd | executed i _ _ _ hd | executionRejected i _ _ hd =>
    exact ⟨(length_of_decodeAt_ok hd).1, hrpc⟩
  | recordExecuted _ _ _ _ _ hr | recordRejected _ _ _ hr => exact ⟨hpc, rpc_lt_of_getElem? hr⟩

/-- R211: what a mode does not use, no step of the mode touches. -/
theorem fitsMode_of_stepTo (hI : s.FitsMode) (h : StepTo s t) : t.FitsMode := by
  obtain ⟨hrec, hstr, hdis⟩ := hI
  cases h with
  | stopped | streamEnds | unknownStrict | truncated | recordsEnd | recordIllFormed | recordHalted =>
    exact ⟨hrec, hstr, hdis⟩
  | unknownSkipped _ hm => exact ⟨fun h => absurd h hm, hstr, hdis⟩
  | disassembled _ _ hm => exact ⟨fun h => absurd h (not_record_of_disasm hm), hstr, hdis⟩
  | executed _ _ _ hm | executionHalted _ _ hm =>
    exact ⟨fun h => absurd h (not_record_of_decodeExec hm), hstr, hdis⟩
  | executionRejected _ _ hm =>
    exact ⟨fun h => absurd h (not_record_of_decodeExec hm), hstr, fun h => absurd (hm.symm.trans h) nofun⟩
  | recordExecuted _ _ _ _ hm => exact ⟨hrec, fun h => absurd hm h, hdis⟩
  | recordRejected _ _ hm => exact ⟨hrec, fun h => absurd hm h, fun h => absurd (hm.symm.trans h) nofun⟩

/-- While the run goes on, the status says only what was recorded without a condition (R28). -/
theorem statusHolds_of_run (ht : t.status = .run) (hn : t.execRejected = false → t.faultInfo = none)
    (hr : t.execRejected = true → t.faultInfo.isSome = true ∧ t.inputs.execFaultPolicy = .rejectAndContinue) :
    t.StatusHolds where
  position h := by rw [ht] at h; cases h
  nothing _ := hn
  rejected := hr
  truncated h := absurd (ht.symm.trans h) nofun
  unknownOpcode h := absurd (ht.symm.trans h) nofun
  execLookup h := absurd (ht.symm.trans h) nofun
  invariantViolation h := absurd (ht.symm.trans h) nofun

/-- A running state of whose status a step changed nothing. -/
theorem statusHolds_of_unchanged (hs : s.status = .run) (hI : s.StatusHolds) (hst : t.status = s.status)
    (hfi : t.faultInfo = s.faultInfo) (her : t.execRejected = s.execRejected) (hin : t.inputs = s.inputs) :
    t.StatusHolds := by
  have hn := hI.nothing (by rw [hs]; rfl)
  have hr := hI.rejected
  rw [← hfi, ← her] at hn hr
  rw [← hin] at hr
  exact statusHolds_of_run (hst.trans hs) hn hr

/-- R217: a rejection under `reject_and_continue` records a position, this one or an earlier one. -/
theorem statusHolds_of_rejected (hI : s.StatusHolds) {p : Nat} (hp : s.inputs.execFaultPolicy = .rejectAndContinue)
    (ht : t.status = .run) (hfi : t.faultInfo = if s.execRejected then s.faultInfo else some p)
    (her : t.execRejected = true) (hin : t.inputs = s.inputs) : t.StatusHolds := by
  refine statusHolds_of_run ht (fun h => absurd (her.symm.trans h) nofun) (fun _ => ⟨?_, hin ▸ hp⟩)
  rw [hfi]
  split
  next h => exact (hI.rejected h).1
  next => rfl

/-- R212, R219: the normal end records nothing. -/
theorem statusHolds_finish (hs : s.status = .run) (hI : s.StatusHolds) : s.finish.StatusHolds where
  position h := nomatch h
  nothing _ := hI.nothing (by rw [hs]; rfl)
  rejected := hI.rejected
  truncated h := nomatch h
  unknownOpcode h := nomatch h
  execLookup h := nomatch h
  invariantViolation h := nomatch h

theorem raised_of_condition (c : Condition) : c.status.raised = true := by cases c <;> rfl

/-- Where a condition may be raised (R240). -/
def Allowed (s : State) : Condition → Prop
  | .truncated => s.inputs.mode ≠ .recordExec
  | .unknownOpcode => s.inputs.mode ≠ .recordExec ∧ s.inputs.unknownOpcodePolicy = .strict
  | .execLookup => s.inputs.mode ≠ .disasm ∧ s.inputs.execFaultPolicy = .halt
  | .invariantViolation => s.inputs.mode = .recordExec

/-- R240: a condition raised where it may be, with the controller's position. -/
theorem statusHolds_raise (hI : s.StatusHolds) {c : Condition} {p : Nat} (hp : p = position s) (hc : Allowed s c) :
    (s.raise c p).StatusHolds where
  position _ := congrArg some hp
  nothing h := absurd ((raised_of_condition c).symm.trans h) nofun
  rejected h := ⟨rfl, (hI.rejected h).2⟩
  truncated h := by cases c <;> first | exact hc | cases h
  unknownOpcode h := by cases c <;> first | exact hc | cases h
  execLookup h := by cases c <;> first | exact hc | cases h
  invariantViolation h := by cases c <;> first | exact hc | cases h

theorem statusHolds_emit (hI : s.StatusHolds) (rec : Record) : (s.emit rec).StatusHolds where
  position := hI.position
  nothing := hI.nothing
  rejected := hI.rejected
  truncated := hI.truncated
  unknownOpcode := hI.unknownOpcode
  execLookup := hI.execLookup
  invariantViolation := hI.invariantViolation

/-- R28, R240: the status after a step says what the step did. -/
theorem statusHolds_of_stepTo (hI : s.StatusHolds) (h : StepTo s t) : t.StatusHolds := by
  cases h with
  | stopped => exact hI
  | streamEnds hs | recordsEnd hs => exact statusHolds_finish hs hI
  | unknownStrict _ hm _ _ hp => exact statusHolds_raise hI (position_of_stream hm).symm ⟨hm, hp⟩
  | truncated _ _ hm => exact statusHolds_raise hI (position_of_stream hm).symm hm
  | executionHalted i _ hm _ _ hp =>
    exact statusHolds_raise (statusHolds_emit hI i.record) (position_of_stream (not_record_of_decodeExec hm)).symm
      ⟨fun h => absurd (hm.symm.trans h) nofun, hp⟩
  | recordIllFormed _ _ hm => exact statusHolds_raise hI (position_of_record hm).symm hm
  | recordHalted _ _ hm _ hp =>
    exact statusHolds_raise hI (position_of_record hm).symm ⟨fun h => absurd (hm.symm.trans h) nofun, hp⟩
  | unknownSkipped hs | disassembled _ hs | executed _ _ hs | recordExecuted _ _ _ hs =>
    exact statusHolds_of_unchanged hs hI rfl rfl rfl rfl
  | executionRejected _ hs _ _ _ hp | recordRejected _ hs _ _ hp =>
    exact statusHolds_of_rejected hI hp hs rfl rfl rfl

/-- Settles O40, part by part of the invariant. -/
theorem stepKeepsInvariant : Obligations.StepKeepsInvariant := by
  intro s t ⟨hrange, hfits, hstatus⟩ hstep
  have h : StepTo s t := stepTo_of_step hstep
  exact ⟨inRange_of_stepTo hrange h, fitsMode_of_stepTo hfits h, statusHolds_of_stepTo hstatus h⟩

/-! ### The sticky bit -/

/-- R28, R217: a step leaves the rejection as it was, and while the run goes on the recorded position too; or it
rejects. -/
theorem rejection_of_stepTo (h : StepTo s t) :
    (t.execRejected = s.execRejected ∧ (t.status = .run → t.faultInfo = s.faultInfo)) ∨
    (t.execRejected = true ∧ s.inputs.execFaultPolicy = .rejectAndContinue ∧
      t.faultInfo = if s.execRejected then s.faultInfo else some (position s)) := by
  cases h with
  | stopped | streamEnds | recordsEnd | unknownSkipped | disassembled | executed | recordExecuted =>
    exact .inl ⟨rfl, fun _ => rfl⟩
  | unknownStrict | truncated | executionHalted | recordIllFormed | recordHalted => exact .inl ⟨rfl, nofun⟩
  | executionRejected _ _ hm _ _ hp =>
    exact .inr ⟨rfl, hp, by rw [position_of_stream (not_record_of_decodeExec hm)]; rfl⟩
  | recordRejected _ _ hm _ hp => exact .inr ⟨rfl, hp, by rw [position_of_record hm]; rfl⟩

/-- Settles O45, from what a step does to the bit and to the position. -/
theorem rejectionIsSticky : Obligations.RejectionIsSticky := by
  intro s t hstep
  obtain ⟨her, hfi⟩ | ⟨her, hp, hfi⟩ := rejection_of_stepTo (stepTo_of_step hstep)
  · exact ⟨fun h => her.trans h, fun h h' => absurd ((her.trans h).symm.trans h') nofun, fun ht _ => hfi ht⟩
  · refine ⟨fun _ => her, fun h _ => ⟨hp, by rw [hfi, h]; rfl⟩, fun _ h => ?_⟩
    obtain h | h := h
    · rw [hfi, if_pos h]
    · exact absurd (her.symm.trans h) nofun

/-! ### The data -/

/-- Settles O46: a normal end and a raised condition change nothing else, and every other way of a step goes on. -/
theorem conditionsArePrecise : Obligations.ConditionsArePrecise := by
  intro s t hs hstep ht
  cases stepTo_of_step hstep with
  | stopped => exact absurd hs ht
  | streamEnds | recordsEnd | unknownStrict | truncated | recordIllFormed | recordHalted =>
    exact ⟨rfl, rfl, rfl, rfl, rfl, .inl rfl⟩
  | executionHalted i _ hm hd => exact ⟨rfl, rfl, rfl, rfl, rfl, .inr ⟨rfl, hm, i, hd, rfl⟩⟩
  | unknownSkipped | disassembled | executed | executionRejected | recordExecuted | recordRejected =>
    exact absurd hs ht

/-- Settles O49: the ways that execute or reject belong to the other two modes. -/
theorem disasmKeepsData : Obligations.DisasmKeepsData := by
  intro s t hdis hstep
  cases stepTo_of_step hstep with
  | stopped | streamEnds | unknownStrict | unknownSkipped | truncated | disassembled => exact ⟨rfl, rfl, rfl⟩
  | executed _ _ _ hm | executionHalted _ _ hm | executionRejected _ _ hm | recordsEnd _ hm | recordIllFormed _ _ hm
  | recordExecuted _ _ _ _ hm | recordHalted _ _ hm | recordRejected _ _ hm =>
    exact absurd (hdis.symm.trans hm) nofun

/-- R213: with an instruction decoded at `pc`, the controller takes it. -/
theorem fetch_of_decodeAt_ok {i : Instr} (hs : s.status = .run) (hm : s.inputs.mode ≠ .recordExec)
    (hd : decodeAt s.inputs.extCheck s.inputs.stream s.pc = .ok i) : fetch s = .take i := by
  obtain ⟨hle, hlen, -⟩ := length_of_decodeAt_ok hd
  rw [fetch_of_stream hs hm, fetchStream, if_neg (TakenProofs.not_lt_minLen (by omega)), hd]

/-- R145, R147: a step leaves registers and flags alone, or commits what the engine answers for the instruction it
takes. -/
theorem data_of_stepTo (h : StepTo s t) :
    (t.regs = s.regs ∧ t.flags = s.flags) ∨
    (s.inputs.mode ≠ .disasm ∧ ∃ i x, fetch s = .take i ∧ execute i.record s.regs s.flags = some x ∧
      t.regs = x.1 ∧ t.flags = x.2) := by
  cases h with
  | executed i x hs hm hd hx =>
    exact .inr ⟨fun h => absurd (hm.symm.trans h) nofun, i, x,
      fetch_of_decodeAt_ok hs (not_record_of_decodeExec hm) hd, hx, rfl, rfl⟩
  | recordExecuted _ i x _ hm _ hf hx => exact .inr ⟨fun h => absurd (hm.symm.trans h) nofun, i, x, hf, hx, rfl, rfl⟩
  | _ => exact .inl ⟨rfl, rfl⟩

/-- Settles O50: the engine's answer for MOV keeps the flags, for CMP the registers, and for every instruction each
register that it does not write. -/
theorem onlyArithmeticTouchesFlags : Obligations.OnlyArithmeticTouchesFlags := by
  intro s t hstep
  obtain ⟨hr, hf⟩ | ⟨hm, i, x, htake, hx, hr, hf⟩ := data_of_stepTo (stepTo_of_step hstep)
  · exact ⟨fun h => absurd hf h, fun r h => absurd (by rw [hr]) h⟩
  · have he : i.executable = true := executable_of_execute_some hx
    refine ⟨fun h => ⟨i, htake, fun hmov => h ?flags, he⟩, fun r h => ⟨hm, i, htake, ?writes, he, fun hcmp => h ?regs⟩⟩
    case flags => rw [hf, execute_flags_of_mov hx hmov]
    case writes => exact Classical.byContradiction fun hw => h (by rw [hr, execute_get_of_writes_ne hx hw])
    case regs => rw [hr, execute_regs_of_cmp hx hcmp]

end Sys2Proof.InvariantProofs
end

section
/-! PROOFS. The output trace and the program counter (10_state R32; 44_controller R216, R218, R221, R223): what one step
does to the two together, and what follows for the whole trace. -/

namespace Sys2Proof.TraceProofs

open Sys2Proof.Machine
open Sys2Proof.ControllerProofs
open Sys2Proof.InvariantProofs

variable {s t : State}

/-- The step has emitted `i`, decoded at the old `pc`, and has moved past it or has been halted at it. -/
structure Emits (s t : State) (i : Instr) : Prop where
  mode : s.inputs.mode ≠ .recordExec
  decoded : decodeAt s.inputs.extCheck s.inputs.stream s.pc = .ok i
  out : t.out = s.out ++ [(s.pc, i.record)]
  passedOrHalted : t.pc = s.pc + i.length ∨ (t.pc = s.pc ∧ t.status = .faultExecLookup)

/-- R214, R216, R218: a step emits one instruction, or skips one byte, or leaves the trace and `pc` alone. -/
theorem trace_of_stepTo (h : StepTo s t) :
    (∃ i, Emits s t i) ∨
    (s.inputs.mode ≠ .recordExec ∧ decodeAt s.inputs.extCheck s.inputs.stream s.pc = .unknown ∧
      s.inputs.unknownOpcodePolicy = .permissive ∧ t = s.advance 1) ∨
    (t.out = s.out ∧ t.pc = s.pc) := by
  cases h with
  | unknownSkipped _ hm _ hd hp => exact .inr (.inl ⟨hm, hd, hp, rfl⟩)
  | disassembled i _ hm hd => exact .inl ⟨i, not_record_of_disasm hm, hd, rfl, .inl rfl⟩
  | executed i _ _ hm hd | executionRejected i _ hm hd =>
    exact .inl ⟨i, not_record_of_decodeExec hm, hd, rfl, .inl rfl⟩
  | executionHalted i _ hm hd => exact .inl ⟨i, not_record_of_decodeExec hm, hd, rfl, .inr ⟨rfl, rfl⟩⟩
  | _ => exact .inr (.inr ⟨rfl, rfl⟩)

theorem eq_of_stepTo_stopped (hs : s.status ≠ .run) (h : step s = .next t) : t = s := by
  rw [step_of_stopped hs] at h; cases h; rfl

/-! ### One step -/

/-- Settles O43: of the three things a step does to the trace and `pc`, two move `pc`. -/
theorem pcMovesOnlySequentially : Obligations.PcMovesOnlySequentially := by
  intro s t hstep hpc
  have hs : s.status = .run := Classical.byContradiction fun hs => hpc (by rw [eq_of_stepTo_stopped hs hstep])
  obtain ⟨i, hm, hd, hout, hp | ⟨hp, -⟩⟩ | ⟨hm, hd, hpol, rfl⟩ | ⟨-, hp⟩ := trace_of_stepTo (stepTo_of_step hstep)
  · exact ⟨hs, hm, .inl ⟨i, hd, hp, hout⟩⟩
  · exact absurd hp hpc
  · exact ⟨hs, hm, .inr ⟨hd, hpol, rfl⟩⟩
  · exact absurd hp hpc

/-- Settles O44: what is emitted has passed decode's length check. -/
theorem traceOnlyGrows : Obligations.TraceOnlyGrows := by
  intro s t hstep
  obtain ⟨i, hm, hd, hout, -⟩ | ⟨-, -, -, rfl⟩ | ⟨hout, -⟩ := trace_of_stepTo (stepTo_of_step hstep)
  · exact .inr ⟨hm, i, hd, (length_of_decodeAt_ok hd).1, hout⟩
  · exact .inl rfl
  · exact .inl hout

/-! ### The trace against the stream -/

/-- A trace that does not grow stays faithful while `pc` does not go back. -/
theorem traceFaithful_of_out_eq (hT : s.TraceFaithful) (hs : s.status = .run) (hin : t.inputs = s.inputs)
    (hout : t.out = s.out) (hpc : s.pc ≤ t.pc) : t.TraceFaithful := by
  obtain ⟨hdec, hins, hord, hbef⟩ := hT
  have hbef := hbef (by rw [hs]; decide)
  rw [← hout] at hdec hins hord hbef
  rw [← hin] at hdec hins
  exact ⟨hdec, hins, hord, fun _ e he => Nat.le_trans (hbef e he) hpc⟩

/-- R216: an emitted instruction is decoded at `pc`, and all earlier ones end at or before it. -/
theorem traceFaithful_of_emits (hT : s.TraceFaithful) (hs : s.status = .run) (hin : t.inputs = s.inputs) {i : Instr}
    (h : Emits s t i) : t.TraceFaithful := by
  obtain ⟨hdec, hins, hord, hbef⟩ := hT
  obtain ⟨-, hd, hout, hpc⟩ := h
  have hbef := hbef (by rw [hs]; decide)
  have hle : s.pc + i.record.length ≤ s.inputs.stream.len := by
    rw [length_record]; exact (length_of_decodeAt_ok hd).1
  rw [← length_record] at hpc
  refine ⟨?decoded, ?inside, ?ordered, fun ht => ?before⟩
  case decoded =>
    rw [hout, hin, List.forall_mem_append, List.forall_mem_singleton]
    exact ⟨hdec, i, hd, rfl⟩
  case inside =>
    rw [hout, hin, List.forall_mem_append, List.forall_mem_singleton]
    exact ⟨hins, hle⟩
  case ordered =>
    rw [hout, List.pairwise_append]
    exact ⟨hord, List.pairwise_singleton _ _, fun e he => by rw [List.forall_mem_singleton]; exact hbef e he⟩
  case before =>
    obtain hpc | ⟨-, hst⟩ := hpc
    · rw [hout, hpc, List.forall_mem_append, List.forall_mem_singleton]
      exact ⟨fun e he => Nat.le_add_right_of_le (hbef e he), Nat.le_refl _⟩
    · exact absurd hst ht

/-- Settles O41: what is emitted was decoded at `pc`, and `pc` never goes back. -/
theorem stepKeepsTraceFaithful : Obligations.StepKeepsTraceFaithful := by
  intro s t hT hstep
  by_cases hs : s.status = .run
  · have h : StepTo s t := stepTo_of_step hstep
    obtain ⟨i, he⟩ | ⟨-, -, -, rfl⟩ | ⟨hout, hpc⟩ := trace_of_stepTo h
    · exact traceFaithful_of_emits hT hs (inputs_of_stepTo h) he
    · exact traceFaithful_of_out_eq hT hs rfl rfl (Nat.le_succ _)
    · exact traceFaithful_of_out_eq hT hs (inputs_of_stepTo h) hout (Nat.le_of_eq hpc.symm)
  · rwa [eq_of_stepTo_stopped hs hstep]

/-- A gapless trace is continued by an entry that begins where it ends. -/
theorem tiles_append {a b : Nat} {out : List (Nat × Record)} (h : tiles a out b) (rec : Record) :
    tiles a (out ++ [(b, rec)]) (b + rec.length) := by
  induction out generalizing a with
  | nil => cases h; exact ⟨rfl, rfl⟩
  | cons e rest ih => exact ⟨h.1, ih h.2⟩

/-- Settles O42: under the strict policy `pc` moves only past what is emitted at it. -/
theorem strictTraceHasNoGap : Obligations.StrictTraceHasNoGap := by
  intro s t hpol hstep hT ht
  by_cases hs : s.status = .run
  · have hT := hT (by rw [hs]; decide)
    obtain ⟨i, -, -, hout, hpc | ⟨-, hst⟩⟩ | ⟨-, -, hperm, -⟩ | ⟨hout, hpc⟩ := trace_of_stepTo (stepTo_of_step hstep)
    · rw [hout, hpc, ← length_record]; exact tiles_append hT i.record
    · exact absurd hst ht
    · exact absurd (hpol.symm.trans hperm) nofun
    · rwa [hout, hpc]
  · obtain rfl := eq_of_stepTo_stopped hs hstep
    exact hT ht

/-- Settles O39: right after reset nothing has been counted, recorded or emitted. -/
theorem invariantsHoldAtReset : Obligations.InvariantsHoldAtReset := by
  intro fr inp
  have hrange : (State.resetWith fr inp).InRange := ⟨Nat.zero_le _, Nat.zero_le _⟩
  have hfits : (State.resetWith fr inp).FitsMode := ⟨fun _ => ⟨rfl, rfl⟩, fun _ => rfl, fun _ => rfl⟩
  have hstatus : (State.resetWith fr inp).StatusHolds := statusHolds_of_run rfl (fun _ => rfl) nofun
  have hfaithful : (State.resetWith fr inp).TraceFaithful :=
    ⟨List.forall_mem_nil _, List.forall_mem_nil _, .nil, fun _ => List.forall_mem_nil _⟩
  exact ⟨⟨hrange, hfits, hstatus⟩, hfaithful, rfl⟩

end Sys2Proof.TraceProofs
end

section
/-! PROOFS. The data never steer the control (10_state R26, 44_controller R221): the machine with other registers and
flags goes the same way. -/

namespace Sys2Proof.DataProofs

open Sys2Proof.Machine
open Sys2Proof.ControllerProofs

variable {s t : State}

/-- The state with other registers and flags, and the same control. -/
def withData (s : State) (rf : RegFile) (fl : Flags) : State := { s with regs := rf, flags := fl }

theorem agreeButData_withData (s : State) (rf : RegFile) (fl : Flags) : s.agreeButData (withData s rf fl) := rfl

theorem eq_withData_of_agreeButData (h : s.agreeButData t) : t = withData s t.regs t.flags := h

/-! ### What the controller sees -/

theorem onUnknown_withData (s : State) (rf : RegFile) (fl : Flags) :
    (withData s rf fl).onUnknown = withData s.onUnknown rf fl := by
  have hin : (withData s rf fl).inputs = s.inputs := rfl
  cases hp : s.inputs.unknownOpcodePolicy <;> simp only [State.onUnknown, hin, hp] <;> rfl

/-- A record that stands for no instruction is refused whatever the registers hold. -/
theorem executeRecord_withData_of_instr_none {rec : Record} (s : State) (rf : RegFile) (fl : Flags)
    (h : rec.instr = none) : (withData s rf fl).executeRecord rec = withData (s.executeRecord rec) rf fl := by
  have hin : (withData s rf fl).inputs = s.inputs := rfl
  cases hp : s.inputs.execFaultPolicy <;>
    simp only [State.executeRecord, execute_of_instr_none _ _ h, hin, hp] <;> rfl

/-- What the controller's look at its input comes to, with other data in the state it settles on. -/
def fetchedWithData (rf : RegFile) (fl : Flags) : Fetched → Fetched
  | .settled u => .settled (withData u rf fl)
  | .take i => .take i

theorem fetchStream_withData (s : State) (rf : RegFile) (fl : Flags) :
    fetchStream (withData s rf fl) = fetchedWithData rf fl (fetchStream s) := by
  have hin : (withData s rf fl).inputs = s.inputs := rfl
  have hpc : (withData s rf fl).pc = s.pc := rfl
  unfold fetchStream
  rw [hin, hpc]
  split
  · rfl
  · split
    · rw [onUnknown_withData]; rfl
    · rfl
    · rfl
    · rfl

theorem fetchItem_withData (s : State) (rf : RegFile) (fl : Flags) (item : PortItem) :
    fetchItem (withData s rf fl) item = fetchedWithData rf fl (fetchItem s item) := by
  cases item with
  | packed x =>
    simp only [fetchItem]
    split <;> rfl
  | abstract rec =>
    simp only [fetchItem]
    split
    · split
      · rfl
      next hi => rw [executeRecord_withData_of_instr_none s rf fl hi]; rfl
    · rfl

/-- R210: which way the controller goes does not depend on the registers and the flags. -/
theorem fetch_withData (s : State) (rf : RegFile) (fl : Flags) :
    fetch (withData s rf fl) = fetchedWithData rf fl (fetch s) := by
  have hin : (withData s rf fl).inputs = s.inputs := rfl
  have hst : (withData s rf fl).status = s.status := rfl
  have hrpc : (withData s rf fl).rpc = s.rpc := rfl
  unfold fetch
  rw [hin, hst]
  split
  · rfl
  · split
    · exact fetchStream_withData s rf fl
    · exact fetchStream_withData s rf fl
    · unfold fetchRecord
      rw [hin, hrpc]
      split
      · rfl
      · exact fetchItem_withData s rf fl _

/-! ### What an instruction does -/

/-- R142: with other data the engine refuses the same records. -/
theorem execute_both (rec : Record) (rf rf' : RegFile) (fl fl' : Flags) :
    (execute rec rf fl = none ∧ execute rec rf' fl' = none) ∨
    ∃ x y, execute rec rf fl = some x ∧ execute rec rf' fl' = some y := by
  have h : (execute rec rf fl).isSome = (execute rec rf' fl').isSome := execute_isSome rec rf rf' fl fl'
  cases hx : execute rec rf fl with
  | none =>
    rw [hx, Option.isSome_none] at h
    exact .inl ⟨rfl, Option.isNone_iff_eq_none.mp (Option.isSome_eq_false_iff.mp h.symm)⟩
  | some x =>
    rw [hx, Option.isSome_some] at h
    obtain ⟨y, hy⟩ := Option.isSome_iff_exists.mp h.symm
    exact .inr ⟨x, y, rfl, hy⟩

theorem executeAndAdvance_withData (s : State) (rec : Record) (rf : RegFile) (fl : Flags) :
    ∃ rf' fl', (withData s rf fl).executeAndAdvance rec = withData (s.executeAndAdvance rec) rf' fl' := by
  have hin : (withData s rf fl).inputs = s.inputs := rfl
  have hrf : (withData s rf fl).regs = rf := rfl
  have hfl : (withData s rf fl).flags = fl := rfl
  unfold State.executeAndAdvance
  rw [hin, hrf, hfl]
  obtain ⟨hx, hy⟩ | ⟨x, y, hx, hy⟩ := execute_both rec s.regs rf s.flags fl <;> rw [hx, hy]
  · exact ⟨rf, fl, by cases s.inputs.execFaultPolicy <;> rfl⟩
  · exact ⟨y.1, y.2, rfl⟩

theorem executeRecord_withData (s : State) (rec : Record) (rf : RegFile) (fl : Flags) :
    ∃ rf' fl', (withData s rf fl).executeRecord rec = withData (s.executeRecord rec) rf' fl' := by
  have hin : (withData s rf fl).inputs = s.inputs := rfl
  have hrf : (withData s rf fl).regs = rf := rfl
  have hfl : (withData s rf fl).flags = fl := rfl
  unfold State.executeRecord
  rw [hin, hrf, hfl]
  obtain ⟨hx, hy⟩ | ⟨x, y, hx, hy⟩ := execute_both rec s.regs rf s.flags fl <;> rw [hx, hy]
  · exact ⟨rf, fl, by cases s.inputs.execFaultPolicy <;> rfl⟩
  · exact ⟨y.1, y.2, rfl⟩

/-- R213, R219: an instruction leads from states that differ in data only to states that differ in data only. -/
theorem exec_withData {i : Instr} (rf : RegFile) (fl : Flags) (h : exec i s = .next t) :
    ∃ rf' fl', exec i (withData s rf fl) = .next (withData t rf' fl') := by
  cases hp : i.onRecordPort with
  | false =>
    rw [exec_of_stream s hp] at h
    rw [exec_of_stream _ hp]
    obtain ⟨hs, ⟨hm, rfl⟩ | ⟨hm, rfl⟩⟩ := takeFromStream_next h
    · exact ⟨rf, fl, takeFromStream_disasm (s := withData s rf fl) _ hs hm⟩
    · obtain ⟨rf', fl', e⟩ := executeAndAdvance_withData (s.emit i.record) i.record rf fl
      exact ⟨rf', fl', by rw [takeFromStream_decodeExec (s := withData s rf fl) _ hs hm, ← e]; rfl⟩
  | true =>
    rw [exec_of_port s hp] at h
    rw [exec_of_port _ hp]
    obtain ⟨hs, hm, rfl⟩ := takeFromPort_next h
    obtain ⟨rf', fl', e⟩ := executeRecord_withData s i.record rf fl
    exact ⟨rf', fl', by rw [takeFromPort_recordExec (s := withData s rf fl) _ hs hm, e]⟩

/-- Settles O47: the controller takes the same way, and the instruction it takes keeps the agreement. -/
theorem dataNeverSteersControl : Obligations.DataNeverSteersControl := by
  intro s t s' hst hstep
  rw [eq_withData_of_agreeButData hst]
  unfold step at hstep ⊢
  rw [fetch_withData]
  cases hf : fetch s with
  | settled u =>
    rw [hf] at hstep
    cases hstep
    exact ⟨_, rfl, agreeButData_withData s' _ _⟩
  | take i =>
    rw [hf] at hstep
    obtain ⟨rf', fl', h⟩ := exec_withData t.regs t.flags hstep
    exact ⟨_, h, agreeButData_withData s' rf' fl'⟩

end Sys2Proof.DataProofs
end

section
/-! PROOFS. A step in a stream mode, forward from what decode finds at `pc` (44_controller R213 to R215), and the
agreement of disassembling and executing with rejection (R211, R216, R217). -/

namespace Sys2Proof.ControllerProofs

open Sys2Proof.Machine

variable {s t u : State}

/-! ### The step from what decode finds -/

theorem step_of_unknown (hs : s.status = .run) (hm : s.inputs.mode ≠ .recordExec)
    (hl : s.pc + 2 ≤ s.inputs.stream.len)
    (hd : decodeAt s.inputs.extCheck s.inputs.stream s.pc = .unknown) : step s = .next s.onUnknown := by
  simp only [step, fetch_of_stream hs hm, fetchStream, if_neg (TakenProofs.not_lt_minLen hl), hd]

theorem step_of_truncated {n : Nat} (hs : s.status = .run) (hm : s.inputs.mode ≠ .recordExec)
    (hl : s.pc + 2 ≤ s.inputs.stream.len)
    (hd : decodeAt s.inputs.extCheck s.inputs.stream s.pc = .truncated n) :
    step s = .next (s.raise .truncated s.pc) := by
  simp only [step, fetch_of_stream hs hm, fetchStream, if_neg (TakenProofs.not_lt_minLen hl), hd]

theorem onUnknown_of_strict (hp : s.inputs.unknownOpcodePolicy = .strict) :
    s.onUnknown = s.raise .unknownOpcode s.pc := by
  rw [State.onUnknown, hp]

theorem onUnknown_of_permissive (hp : s.inputs.unknownOpcodePolicy = .permissive) : s.onUnknown = s.advance 1 := by
  rw [State.onUnknown, hp]

theorem step_of_disasm {i : Instr} (hs : s.status = .run) (hm : s.inputs.mode = .disasm)
    (hd : decodeAt s.inputs.extCheck s.inputs.stream s.pc = .ok i) :
    step s = .next ((s.emit i.record).advance i.length) := by
  obtain ⟨-, -, -, -, -, -, -, -, -, -, hp⟩ := decodeAt_ok hd
  rw [TakenProofs.step_of_decodeAt_ok hs (by rw [hm]; decide) hd]
  exact ExecProofs.disasmCompletes i s hp hs hm

/-! ### Disassembly and execution -/

/-- `s` executes with rejection, `u` disassembles the same stream, and both stand at the same place with the same trace
and status. -/
structure InLockstep (s u : State) : Prop where
  executes : s.inputs.mode = .decodeExec
  rejects : s.inputs.execFaultPolicy = .rejectAndContinue
  inputs : u.inputs = { s.inputs with mode := .disasm }
  pc : u.pc = s.pc
  out : u.out = s.out
  status : u.status = s.status

/-- The agreement carries over to states whose place, trace and status changed alike. -/
theorem InLockstep.of_update {s' u' : State} (h : InLockstep s u) (hs : s'.inputs = s.inputs)
    (hu : u'.inputs = u.inputs) (hpc : u'.pc = s'.pc) (hout : u'.out = s'.out) (hst : u'.status = s'.status) :
    InLockstep s' u' := by
  refine ⟨?_, ?_, ?_, hpc, hout, hst⟩ <;> rw [hs]
  · exact h.executes
  · exact h.rejects
  · rw [hu, h.inputs]

/-- R211: one step of each keeps the agreement; the instruction that one executes or rejects, the other only emits, and
both pass it. -/
theorem lockstep_step (h : InLockstep s u) (hstep : step s = .next t) : ∃ v, step u = .next v ∧ InLockstep t v := by
  have hm : u.inputs.mode = .disasm := by rw [h.inputs]
  have hrec : u.inputs.mode ≠ .recordExec := by rw [hm]; decide
  have hstr : u.inputs.stream = s.inputs.stream := by rw [h.inputs]
  have hdec : decodeAt u.inputs.extCheck u.inputs.stream u.pc = decodeAt s.inputs.extCheck s.inputs.stream s.pc := by
    rw [h.inputs, h.pc]
  have hpol : u.inputs.unknownOpcodePolicy = s.inputs.unknownOpcodePolicy := by rw [h.inputs]
  have hpass {i : Instr} : u.pc + i.length = s.pc + i.length := by rw [h.pc]
  have hemit {i : Instr} : u.out ++ [(u.pc, i.record)] = s.out ++ [(s.pc, i.record)] := by rw [h.pc, h.out]
  cases stepTo_of_step hstep with
  | stopped hs => exact ⟨u, step_of_stopped (h.status ▸ hs), h⟩
  | streamEnds hs _ hl =>
    exact ⟨_, step_of_lt_two (h.status.trans hs) hrec (by rw [hstr, h.pc]; exact hl),
      h.of_update rfl rfl h.pc h.out rfl⟩
  | unknownStrict hs _ hl hd hp =>
    rw [← hstr, ← h.pc] at hl
    exact ⟨_, step_of_unknown (h.status.trans hs) hrec hl (hdec.trans hd), by
      rw [onUnknown_of_strict (hpol.trans hp)]; exact h.of_update rfl rfl h.pc h.out rfl⟩
  | unknownSkipped hs _ hl hd hp =>
    rw [← hstr, ← h.pc] at hl
    exact ⟨_, step_of_unknown (h.status.trans hs) hrec hl (hdec.trans hd), by
      rw [onUnknown_of_permissive (hpol.trans hp)]
      exact h.of_update rfl rfl (congrArg (· + 1) h.pc) h.out h.status⟩
  | truncated n hs _ hl hd =>
    rw [← hstr, ← h.pc] at hl
    exact ⟨_, step_of_truncated (h.status.trans hs) hrec hl (hdec.trans hd), h.of_update rfl rfl h.pc h.out rfl⟩
  | executed i _ hs _ hd | executionRejected i hs _ hd =>
    exact ⟨_, step_of_disasm (h.status.trans hs) hm (hdec.trans hd), h.of_update rfl rfl hpass hemit h.status⟩
  | executionHalted _ _ _ _ _ hp => exact absurd (h.rejects.symm.trans hp) nofun
  | disassembled _ _ hdis => exact absurd (h.executes.symm.trans hdis) nofun
  | recordsEnd _ hr | recordIllFormed _ _ hr | recordExecuted _ _ _ _ hr | recordHalted _ _ hr
  | recordRejected _ _ hr => exact absurd (h.executes.symm.trans hr) nofun

theorem lockstep_run (n : Nat) (h : InLockstep s u) :
    ∃ t v : State, core.run n s = .next t ∧ core.run n u = .next v ∧ InLockstep t v := by
  induction n generalizing s u with
  | zero => exact ⟨s, u, rfl, rfl, h⟩
  | succ n ih =>
    obtain ⟨s', hs⟩ := exists_step_next s
    obtain ⟨u', hu, h'⟩ := lockstep_step h hs
    rw [run_succ hs, run_succ hu]
    exact ih h'

/-- Settles O48: the two runs start in agreement, and every step keeps it. -/
theorem disasmAndExecuteAgree : Obligations.DisasmAndExecuteAgree := by
  intro s n hm hp
  have h : InLockstep s { s with inputs := { s.inputs with mode := .disasm } } := ⟨hm, hp, rfl, rfl, rfl, rfl⟩
  obtain ⟨t, u, ht, hu, h'⟩ := lockstep_run n h
  exact ⟨t, u, ht, hu, h'.pc.symm, h'.out.symm, h'.status.symm⟩

end Sys2Proof.ControllerProofs
end

section
/-! PROOFS. Bytes that stand in the stream (20_memory R51, R52), and the decoder against the encoder (30_encoding R70 to
R94): decoding what is encoded, encoding what is decoded, and how much of the stream a decoding reads. -/

namespace Sys2Proof.CodecProofs

open Sys2Proof.Machine

variable {st st' : Stream} {pc pc' : Nat} {b0 b1 : Byte} {f : Family} {i : Instr}

/-! ### Bytes in the stream -/

/-- The stream holds the bytes `bs` from offset `a` on. -/
def Holds (st : Stream) (a : Nat) (bs : List Byte) : Prop := ∀ k, k < bs.length → st.memRead1 (a + k) = bs[k]?

@[simp] theorem holds_nil (st : Stream) (a : Nat) : Holds st a [] := nofun

@[simp] theorem holds_cons {a : Nat} {b : Byte} {bs : List Byte} :
    Holds st a (b :: bs) ↔ st.memRead1 a = some b ∧ Holds st (a + 1) bs where
  mp h := ⟨h 0 (Nat.succ_pos _), fun k hk => by
    rw [Nat.add_assoc, Nat.add_comm 1 k]; exact h (k + 1) (Nat.succ_lt_succ hk)⟩
  mpr h := fun k hk => by
    cases k with
    | zero => exact h.1
    | succ k => rw [Nat.add_comm k 1, ← Nat.add_assoc, Nat.add_comm 1 k]; exact h.2 k (Nat.lt_of_succ_lt_succ hk)

theorem holds_append {a : Nat} {xs ys : List Byte} :
    Holds st a (xs ++ ys) ↔ Holds st a xs ∧ Holds st (a + xs.length) ys := by
  induction xs generalizing a with
  | nil => simp
  | cons x xs ih =>
    rw [List.cons_append, holds_cons, holds_cons, ih, and_assoc, List.length_cons, Nat.add_assoc, Nat.add_comm 1]

/-- Bytes that the stream holds lie inside it. -/
theorem le_of_holds {a : Nat} {b : Byte} {bs : List Byte} (h : Holds st a (b :: bs)) :
    a + (b :: bs).length ≤ st.len := by
  obtain ⟨c, hc⟩ : ∃ c, (b :: bs)[bs.length]? = some c := ⟨_, List.getElem?_eq_getElem (Nat.lt_succ_self _)⟩
  exact TakenProofs.lt_of_memRead1 ((h bs.length (Nat.lt_succ_self _)).trans hc)

/-- R52: a two-byte read is a value's two bytes in stream order. -/
theorem holds_wordBytes {a : Nat} {v : Word} : Holds st a (wordBytes v) ↔ st.memRead2 a = some v := by
  rw [wordBytes, holds_cons, holds_cons, Stream.memRead2_eq]
  constructor
  · rintro ⟨hlo, hhi, -⟩
    rw [hlo, hhi, Option.bind_some, Option.map_some, littleEndian_bytes]
  · intro h
    obtain ⟨lo, hlo, h⟩ := Option.bind_eq_some_iff.mp h
    obtain ⟨hi, hhi, rfl⟩ := Option.map_eq_some_iff.mp h
    rw [lowByte_littleEndian, highByte_littleEndian]
    exact ⟨hlo, hhi, holds_nil _ _⟩

/-- The stream made of bytes holds them, wherever they stand among others. -/
theorem holds_ofBytes (before bs after : List Byte) :
    Holds (Stream.ofBytes (before ++ bs ++ after)) before.length bs := by
  intro k hk
  rw [Stream.memRead1_ofBytes, List.append_assoc, List.getElem?_append_right (Nat.le_add_right _ _),
    Nat.add_sub_cancel_left, List.getElem?_append_left hk]

/-! ### Decoding what is encoded -/

/-- R92: a classified pair of bytes, the length check passed, and the operands read. -/
theorem decodeAt_of_operands {ext : Bool} (h0 : st.memRead1 pc = some b0) (h1 : st.memRead1 (pc + 1) = some b1)
    (hc : classify ext b0 b1 = some f) (hl : pc + insnLength f b0 b1 ≤ st.len)
    (hop : decodeOperands f st pc b0 b1 = some i) : decodeAt ext st pc = .ok i := by
  rw [decodeAt_eq h0 h1]
  simp only [hc, if_neg (Nat.not_lt.mpr hl), hop]

/-- R71: a register/memory form, from its first byte and its encoded operand. The decoder's branch for the first byte
reads the operand and makes an instruction of it. -/
theorem decodeAt_of_holds_rm {ρ : Type} {regOf : BitVec 3 → ρ} {indexOf : ρ → BitVec 3}
    (hr : ∀ r, regOf (indexOf r) = r) {reg : BitVec 3} {x : RegMem ρ} (hw : x.wellFormed = true)
    (mk : RegMem ρ → Instr) (hc : ∀ ext b1, classify ext b0 b1 = some f)
    (hlen : ∀ b1, insnLength f b0 b1 = 2 + dispSize (fieldMod b1) (fieldRm b1))
    (hop : ∀ st pc b1, fieldReg b1 = reg →
      decodeOperands f st pc b0 b1 = (decodeRm regOf st pc (fieldMod b1) (fieldRm b1)).map mk)
    (ext : Bool) (h : Holds st pc (b0 :: encodeRm indexOf reg x)) : decodeAt ext st pc = .ok (mk x) := by
  obtain ⟨b1, tl, he, hreg, htl, hdisp, hdec⟩ := decodeRm_encodeRm regOf indexOf hr reg x hw
  rw [he] at h
  have hle := le_of_holds h
  obtain ⟨h0, h⟩ := holds_cons.mp h
  obtain ⟨h1, htail⟩ := holds_cons.mp h
  refine decodeAt_of_operands h0 h1 (hc ext b1) ?_ ?_
  · simp only [List.length_cons] at hle; rw [hlen, hdisp]; omega
  · rw [hop st pc b1 hreg, hdec st pc htail]; rfl

/-- R73, R88: the immediate-to-register/memory ADD; the immediate's bytes follow the displacement. -/
theorem decodeAt_of_holds_rm_imm {ρ : Type} {regOf : BitVec 3 → ρ} {indexOf : ρ → BitVec 3}
    (hr : ∀ r, regOf (indexOf r) = r) {x : RegMem ρ} (hw : x.wellFormed = true) (imm : List Byte)
    (himm : imm.length = immSize (fieldW b0)) (hc : classify1 b0 = some .addRmI)
    (hop : ∀ st pc b1, decodeRm regOf st pc (fieldMod b1) (fieldRm b1) = some x →
      Holds st (pc + 2 + dispSize (fieldMod b1) (fieldRm b1)) imm → decodeOperands .addRmI st pc b0 b1 = some i)
    (ext : Bool) (h : Holds st pc (b0 :: (encodeRm indexOf 0b000 x ++ imm))) : decodeAt ext st pc = .ok i := by
  obtain ⟨b1, tl, he, hreg, htl, hdisp, hdec⟩ := decodeRm_encodeRm regOf indexOf hr 0b000 x hw
  rw [he] at h
  have hle := le_of_holds h
  obtain ⟨h0, h⟩ := holds_cons.mp h
  obtain ⟨h1, h⟩ := holds_cons.mp h
  obtain ⟨htail, himm'⟩ := holds_append.mp h
  have hcl : classify ext b0 b1 = some .addRmI := by simp [classify, hc, hreg]
  refine decodeAt_of_operands h0 h1 hcl ?_ (hop st pc b1 (hdec st pc htail) (by rw [hdisp, ← htl]; exact himm'))
  simp only [List.length_cons, List.length_append] at hle
  rw [insnLength, hdisp, ← himm]
  omega

/-- R72, R74: an opcode followed by nothing but its immediate. -/
theorem decodeAt_of_holds_imm {b : Byte} {bs : List Byte} (hc : ∀ ext b1, classify ext b0 b1 = some f)
    (hlen : ∀ b1, insnLength f b0 b1 = (b0 :: b :: bs).length)
    (hop : ∀ st pc b1, Holds st (pc + 1) (b :: bs) → decodeOperands f st pc b0 b1 = some i)
    (ext : Bool) (h : Holds st pc (b0 :: b :: bs)) : decodeAt ext st pc = .ok i := by
  have hle := le_of_holds h
  obtain ⟨h0, himm⟩ := holds_cons.mp h
  exact decodeAt_of_operands h0 (holds_cons.mp himm).1 (hc ext b) (by rw [hlen]; exact hle) (hop st pc b himm)

/-! ### The register/memory forms, by their direction and width bits -/

/-- R71: the byte form with a register `r` and an operand `x`, of MOV or ADD and of either direction. -/
def rmByteForm (add d : Bool) (r : Reg8) (x : RegMem Reg8) : Instr :=
  match add, d with
  | false, false => .movRm8R8 x r
  | false, true => .movR8Rm8 r x
  | true, false => .addRm8R8 x r
  | true, true => .addR8Rm8 r x

/-- R71: the word form with a register `r` and an operand `x`, of MOV or ADD and of either direction. -/
def rmWordForm (add d : Bool) (r : Reg16) (x : RegMem Reg16) : Instr :=
  match add, d with
  | false, false => .movRm16R16 x r
  | false, true => .movR16Rm16 r x
  | true, false => .addRm16R16 x r
  | true, true => .addR16Rm16 r x

/-- R71, R75: the first byte of a register/memory form. -/
def rmOpcode (add d w : Bool) : Byte :=
  (if add then 0b000000#6 else 0b100010#6) ++ BitVec.ofBool d ++ BitVec.ofBool w

/-- The family of a register/memory form. -/
def rmFamily (add : Bool) : Family := if add then .addRmR else .movRmR

@[simp] theorem fieldD_rmOpcode (add d w : Bool) : fieldD (rmOpcode add d w) = d := by revert add d w; decide

@[simp] theorem fieldW_rmOpcode (add d w : Bool) : fieldW (rmOpcode add d w) = w := by revert add d w; decide

theorem classify1_rmOpcode (add d w : Bool) : classify1 (rmOpcode add d w) = some (rmFamily add) := by
  revert add d w; decide

/-- A first byte of one of these families is known by its two bits. -/
theorem eq_rmOpcode {add : Bool} (h : classify1 b0 = some (rmFamily add)) :
    b0 = rmOpcode add (fieldD b0) (fieldW b0) := by
  revert b0 add; decide

/-- R76: the extension field counts for `80` and `81` only. -/
theorem classify_of_classify1 (ext : Bool) (b1 : Byte) (h : classify1 b0 = some f) (hf : f ≠ .addRmI) :
    classify ext b0 b1 = some f := by
  simp only [classify, h]
  cases f <;> first | rfl | exact absurd rfl hf

theorem classify_rmOpcode (add d w ext : Bool) (b1 : Byte) :
    classify ext (rmOpcode add d w) b1 = some (rmFamily add) :=
  classify_of_classify1 ext b1 (classify1_rmOpcode add d w) (by cases add <;> nofun)

theorem insnLength_rmFamily (add : Bool) (b0 b1 : Byte) :
    insnLength (rmFamily add) b0 b1 = 2 + dispSize (fieldMod b1) (fieldRm b1) := by cases add <;> rfl

theorem decodeOperands_rmByte (add : Bool) (st : Stream) (pc : Nat) (b1 : Byte) (hw : fieldW b0 = false) :
    decodeOperands (rmFamily add) st pc b0 b1 =
      (decodeRm Reg8.ofIndex st pc (fieldMod b1) (fieldRm b1)).map
        (rmByteForm add (fieldD b0) (Reg8.ofIndex (fieldReg b1))) := by
  cases add <;> simp only [rmFamily, decodeOperands, decodeRmR, hw] <;> cases fieldD b0 <;> rfl

theorem decodeOperands_rmWord (add : Bool) (st : Stream) (pc : Nat) (b1 : Byte) (hw : fieldW b0 = true) :
    decodeOperands (rmFamily add) st pc b0 b1 =
      (decodeRm Reg16.ofIndex st pc (fieldMod b1) (fieldRm b1)).map
        (rmWordForm add (fieldD b0) (Reg16.ofIndex (fieldReg b1))) := by
  cases add <;> simp only [rmFamily, decodeOperands, decodeRmR, hw] <;> cases fieldD b0 <;> rfl

theorem encodeBytes_rmByteForm (add d : Bool) (r : Reg8) (x : RegMem Reg8) :
    encodeBytes (rmByteForm add d r x) = rmOpcode add d false :: encodeRm Reg8.index r.index x := by
  cases add <;> cases d <;> rfl

theorem encodeBytes_rmWordForm (add d : Bool) (r : Reg16) (x : RegMem Reg16) :
    encodeBytes (rmWordForm add d r x) = rmOpcode add d true :: encodeRm Reg16.index r.index x := by
  cases add <;> cases d <;> rfl

theorem decodeAt_rmByteForm (add d : Bool) {r : Reg8} {x : RegMem Reg8} (hw : x.wellFormed = true) (ext : Bool)
    (h : Holds st pc (encodeBytes (rmByteForm add d r x))) : decodeAt ext st pc = .ok (rmByteForm add d r x) := by
  rw [encodeBytes_rmByteForm] at h
  refine decodeAt_of_holds_rm Reg8.ofIndex_index hw (rmByteForm add d r) (classify_rmOpcode add d false)
    (insnLength_rmFamily add _) (fun st pc b1 hreg => ?_) ext h
  rw [decodeOperands_rmByte add st pc b1 (fieldW_rmOpcode add d false), hreg, fieldD_rmOpcode, Reg8.ofIndex_index]

theorem decodeAt_rmWordForm (add d : Bool) {r : Reg16} {x : RegMem Reg16} (hw : x.wellFormed = true) (ext : Bool)
    (h : Holds st pc (encodeBytes (rmWordForm add d r x))) : decodeAt ext st pc = .ok (rmWordForm add d r x) := by
  rw [encodeBytes_rmWordForm] at h
  refine decodeAt_of_holds_rm Reg16.ofIndex_index hw (rmWordForm add d r) (classify_rmOpcode add d true)
    (insnLength_rmFamily add _) (fun st pc b1 hreg => ?_) ext h
  rw [decodeOperands_rmWord add st pc b1 (fieldW_rmOpcode add d true), hreg, fieldD_rmOpcode, Reg16.ofIndex_index]

/-! ### The forms with an immediate -/

theorem memRead1_of_holds {a : Nat} {v : Byte} (h : Holds st a [v]) : st.memRead1 a = some v := (holds_cons.mp h).1

/-- R73: the first byte of an immediate-to-register/memory ADD. -/
def addRmIOpcode (w : Bool) : Byte := 0b1000000#7 ++ BitVec.ofBool w

@[simp] theorem fieldW_addRmIOpcode (w : Bool) : fieldW (addRmIOpcode w) = w := by revert w; decide

theorem classify1_addRmIOpcode (w : Bool) : classify1 (addRmIOpcode w) = some .addRmI := by revert w; decide

theorem eq_addRmIOpcode (h : classify1 b0 = some .addRmI) : b0 = addRmIOpcode (fieldW b0) := by
  revert b0; decide

theorem encodeBytes_addRm8Imm8 (x : RegMem Reg8) (v : Byte) :
    encodeBytes (.addRm8Imm8 x v) = addRmIOpcode false :: (encodeRm Reg8.index 0b000 x ++ [v]) := rfl

theorem encodeBytes_addRm16Imm16 (x : RegMem Reg16) (v : Word) :
    encodeBytes (.addRm16Imm16 x v) = addRmIOpcode true :: (encodeRm Reg16.index 0b000 x ++ wordBytes v) := rfl

theorem decodeAt_addRm8Imm8 {x : RegMem Reg8} {v : Byte} (hw : x.wellFormed = true) (ext : Bool)
    (h : Holds st pc (encodeBytes (.addRm8Imm8 x v))) : decodeAt ext st pc = .ok (.addRm8Imm8 x v) := by
  rw [encodeBytes_addRm8Imm8] at h
  refine decodeAt_of_holds_rm_imm Reg8.ofIndex_index hw [v] rfl (classify1_addRmIOpcode false)
    (fun st pc b1 hx himm => ?_) ext h
  simp [decodeOperands, decodeAddRmI, hx, memRead1_of_holds himm]

theorem decodeAt_addRm16Imm16 {x : RegMem Reg16} {v : Word} (hw : x.wellFormed = true) (ext : Bool)
    (h : Holds st pc (encodeBytes (.addRm16Imm16 x v))) : decodeAt ext st pc = .ok (.addRm16Imm16 x v) := by
  rw [encodeBytes_addRm16Imm16] at h
  refine decodeAt_of_holds_rm_imm Reg16.ofIndex_index hw (wordBytes v) rfl (classify1_addRmIOpcode true)
    (fun st pc b1 hx himm => ?_) ext h
  simp [decodeOperands, decodeAddRmI, hx, holds_wordBytes.mp himm]

/-- R72: the first byte of an immediate-to-register MOV. -/
def movRIOpcode (w : Bool) (reg : BitVec 3) : Byte := 0b1011#4 ++ BitVec.ofBool w ++ reg

@[simp] theorem fieldWIr_movRIOpcode (w : Bool) (reg : BitVec 3) : fieldWIr (movRIOpcode w reg) = w := by
  revert w reg; decide

@[simp] theorem fieldRm_movRIOpcode (w : Bool) (reg : BitVec 3) : fieldRm (movRIOpcode w reg) = reg := by
  revert w reg; decide

theorem classify1_movRIOpcode (w : Bool) (reg : BitVec 3) : classify1 (movRIOpcode w reg) = some .movRI := by
  revert w reg; decide

theorem eq_movRIOpcode (h : classify1 b0 = some .movRI) : b0 = movRIOpcode (fieldWIr b0) (fieldRm b0) := by
  revert b0; decide

theorem encodeBytes_movR8Imm8 (r : Reg8) (v : Byte) :
    encodeBytes (.movR8Imm8 r v) = [movRIOpcode false r.index, v] := by cases r <;> rfl

theorem encodeBytes_movR16Imm16 (r : Reg16) (v : Word) :
    encodeBytes (.movR16Imm16 r v) = movRIOpcode true r.index :: wordBytes v := by cases r <;> rfl

theorem classify_movRIOpcode (w : Bool) (reg : BitVec 3) (ext : Bool) (b1 : Byte) :
    classify ext (movRIOpcode w reg) b1 = some .movRI :=
  classify_of_classify1 ext b1 (classify1_movRIOpcode w reg) nofun

theorem decodeAt_movR8Imm8 {r : Reg8} {v : Byte} (ext : Bool) (h : Holds st pc (encodeBytes (.movR8Imm8 r v))) :
    decodeAt ext st pc = .ok (.movR8Imm8 r v) := by
  rw [encodeBytes_movR8Imm8] at h
  refine decodeAt_of_holds_imm (classify_movRIOpcode false r.index)
    (fun _ => by rw [insnLength, fieldWIr_movRIOpcode]; rfl) (fun st pc b1 himm => ?_) ext h
  simp [decodeOperands, decodeMovRI, memRead1_of_holds himm]

theorem decodeAt_movR16Imm16 {r : Reg16} {v : Word} (ext : Bool) (h : Holds st pc (encodeBytes (.movR16Imm16 r v))) :
    decodeAt ext st pc = .ok (.movR16Imm16 r v) := by
  rw [encodeBytes_movR16Imm16] at h
  refine decodeAt_of_holds_imm (classify_movRIOpcode true r.index)
    (fun _ => by rw [insnLength, fieldWIr_movRIOpcode]; rfl) (fun st pc b1 himm => ?_) ext h
  simp [decodeOperands, decodeMovRI, holds_wordBytes.mp himm]

/-- R74: the first byte of an accumulator-immediate ADD. -/
def addAIOpcode (w : Bool) : Byte := 0b0000010#7 ++ BitVec.ofBool w

@[simp] theorem fieldW_addAIOpcode (w : Bool) : fieldW (addAIOpcode w) = w := by revert w; decide

theorem classify_addAIOpcode (w ext : Bool) (b1 : Byte) : classify ext (addAIOpcode w) b1 = some .addAI :=
  classify_of_classify1 ext b1 (by revert w; decide) nofun

theorem eq_addAIOpcode (h : classify1 b0 = some .addAI) : b0 = addAIOpcode (fieldW b0) := by
  revert b0; decide

theorem encodeBytes_addAlImm8 (v : Byte) : encodeBytes (.addAlImm8 v) = [addAIOpcode false, v] := rfl

theorem encodeBytes_addAxImm16 (v : Word) : encodeBytes (.addAxImm16 v) = addAIOpcode true :: wordBytes v := rfl

theorem decodeAt_addAlImm8 {v : Byte} (ext : Bool) (h : Holds st pc (encodeBytes (.addAlImm8 v))) :
    decodeAt ext st pc = .ok (.addAlImm8 v) := by
  rw [encodeBytes_addAlImm8] at h
  refine decodeAt_of_holds_imm (classify_addAIOpcode false) (fun _ => rfl) (fun st pc b1 himm => ?_) ext h
  simp [decodeOperands, decodeAddAI, memRead1_of_holds himm]

theorem decodeAt_addAxImm16 {v : Word} (ext : Bool) (h : Holds st pc (encodeBytes (.addAxImm16 v))) :
    decodeAt ext st pc = .ok (.addAxImm16 v) := by
  rw [encodeBytes_addAxImm16] at h
  refine decodeAt_of_holds_imm (classify_addAIOpcode true) (fun _ => rfl) (fun st pc b1 himm => ?_) ext h
  simp [decodeOperands, decodeAddAI, holds_wordBytes.mp himm]

/-- R92, R94: where the stream holds the encoding of a well-formed stream form, decode finds the form, whatever else
the stream holds and whether or not the extension field is checked. -/
theorem decodeAt_of_holds_encode (hp : i.onRecordPort = false) (hw : i.wellFormed = true) (ext : Bool)
    (h : Holds st pc (encodeBytes i)) : decodeAt ext st pc = .ok i := by
  cases i with
  | movRm8R8 => exact decodeAt_rmByteForm false false hw ext h
  | movR8Rm8 => exact decodeAt_rmByteForm false true hw ext h
  | addRm8R8 => exact decodeAt_rmByteForm true false hw ext h
  | addR8Rm8 => exact decodeAt_rmByteForm true true hw ext h
  | movRm16R16 => exact decodeAt_rmWordForm false false hw ext h
  | movR16Rm16 => exact decodeAt_rmWordForm false true hw ext h
  | addRm16R16 => exact decodeAt_rmWordForm true false hw ext h
  | addR16Rm16 => exact decodeAt_rmWordForm true true hw ext h
  | addRm8Imm8 => exact decodeAt_addRm8Imm8 hw ext h
  | addRm16Imm16 => exact decodeAt_addRm16Imm16 hw ext h
  | movR8Imm8 => exact decodeAt_movR8Imm8 ext h
  | movR16Imm16 => exact decodeAt_movR16Imm16 ext h
  | addAlImm8 => exact decodeAt_addAlImm8 ext h
  | addAxImm16 => exact decodeAt_addAxImm16 ext h
  | recMovReg | recMovImm | recAddReg | recAddImm | recSubReg | recSubImm | recCmpReg | recCmpImm => cases hp

/-- R70, R95: a stream form is encoded as bytes, a record-port form as a word that unpacks to it. -/
theorem encode_cases (i : Instr) :
    (i.onRecordPort = false ∧ encode i = .bytes (encodeBytes i)) ∨ ∃ x, encode i = .xrec x ∧ decodeXrec x = some i := by
  cases i with
  | recMovReg d r => exact .inr ⟨_, rfl, decodeXrec_encodeXrecReg 0b00 d r⟩
  | recAddReg d r => exact .inr ⟨_, rfl, decodeXrec_encodeXrecReg 0b01 d r⟩
  | recSubReg d r => exact .inr ⟨_, rfl, decodeXrec_encodeXrecReg 0b10 d r⟩
  | recCmpReg d r => exact .inr ⟨_, rfl, decodeXrec_encodeXrecReg 0b11 d r⟩
  | recMovImm d v => exact .inr ⟨_, rfl, decodeXrec_encodeXrecImm 0b00 d v⟩
  | recAddImm d v => exact .inr ⟨_, rfl, decodeXrec_encodeXrecImm 0b01 d v⟩
  | recSubImm d v => exact .inr ⟨_, rfl, decodeXrec_encodeXrecImm 0b10 d v⟩
  | recCmpImm d v => exact .inr ⟨_, rfl, decodeXrec_encodeXrecImm 0b11 d v⟩
  | _ => exact .inl ⟨rfl, rfl⟩

/-- Settles O15: the bytes stand in the stream between the others, and decode reads them back. -/
theorem decodeEncodeRoundTrip : Obligations.DecodeEncodeRoundTrip := by
  intro i hw
  obtain ⟨hp, he⟩ | ⟨x, he, hx⟩ := encode_cases i <;> rw [he]
  · exact fun ext before after =>
      decodeAt_of_holds_encode hp hw ext (holds_ofBytes before (encodeBytes i) after)
  · exact hx

end Sys2Proof.CodecProofs
end

section
/-! PROOFS. What a successful decoding says of the bytes it read (30_encoding R70 to R94; 20_memory R62): they are the
instruction's encoding, no others count, and the record is the one that the spec's pseudocode builds from them. -/

namespace Sys2Proof.CodecProofs

open Sys2Proof.Machine

variable {st st' : Stream} {pc pc' : Nat} {b0 b1 : Byte} {f : Family} {i : Instr} {ρ : Type} {regOf : BitVec 3 → ρ}
  {mod : BitVec 2} {rm : BitVec 3} {x : RegMem ρ}

/-- Settles O21: the three outcomes of decode, the last one by what the operand decoder yields inside the stream. -/
theorem decodeOutcomes : Obligations.DecodeOutcomes := by
  intro ext st pc hl
  obtain ⟨b0, h0⟩ := Stream.memRead1_of_lt (st := st) (a := pc) (by omega)
  obtain ⟨b1, h1⟩ := Stream.memRead1_of_lt (st := st) (a := pc + 1) (by omega)
  refine ⟨b0, b1, h0, h1, ?_⟩
  cases hc : classify ext b0 b1 with
  | none => rw [decodeAt_eq h0 h1, hc]
  | some f =>
    refine ⟨fun hlt => ?truncated, fun hle => ?decoded⟩
    case truncated => rw [decodeAt_eq h0 h1]; simp only [hc, if_pos hlt]
    case decoded =>
      obtain ⟨i, hi, hlen, hw, hp⟩ := decodeOperands_of_le hle
      exact ⟨i, decodeAt_of_operands h0 h1 hc hle hi, hlen, hw, hp⟩

/-- R80 to R85: which operand the fields `mod` and `rm` select, and what is read for it. -/
theorem decodeRm_cases (h : decodeRm regOf st pc mod rm = some x) :
    (mod = 0b11#2 ∧ x = .reg (regOf rm)) ∨
    (mod = 0b00#2 ∧ rm = 0b110#3 ∧ ∃ a, st.memRead2 (pc + 2) = some a ∧ x = .direct a) ∨
    (mod = 0b00#2 ∧ rm ≠ 0b110#3 ∧ x = .mem (Base.ofRm rm) .none 0) ∨
    (mod = 0b01#2 ∧ ∃ d, st.memRead1 (pc + 2) = some d ∧ x = .mem (Base.ofRm rm) .d8 (sext16 d)) ∨
    (mod = 0b10#2 ∧ ∃ d, st.memRead2 (pc + 2) = some d ∧ x = .mem (Base.ofRm rm) .d16 d) := by
  obtain rfl | rfl | rfl | rfl := mod_cases mod
  · by_cases hr : rm = 0b110#3
    · subst hr
      obtain ⟨a, ha, e⟩ := Option.map_eq_some_iff.mp h
      exact .inr (.inl ⟨rfl, rfl, a, ha, e.symm⟩)
    · rw [decodeRm, if_neg (by decide), if_neg (fun hp => hr hp.2), if_pos rfl] at h
      exact .inr (.inr (.inl ⟨rfl, hr, (Option.some.inj h).symm⟩))
  · obtain ⟨d, hd, e⟩ := Option.map_eq_some_iff.mp h
    exact .inr (.inr (.inr (.inl ⟨rfl, d, hd, e.symm⟩)))
  · obtain ⟨d, hd, e⟩ := Option.map_eq_some_iff.mp h
    exact .inr (.inr (.inr (.inr ⟨rfl, d, hd, e.symm⟩)))
  · exact .inl ⟨rfl, (Option.some.inj h).symm⟩

theorem dispSize_of_decodeRm (h : decodeRm regOf st pc mod rm = some x) : x.dispSize = dispSize mod rm := by
  obtain ⟨rfl, rfl⟩ | ⟨rfl, rfl, a, -, rfl⟩ | ⟨rfl, hr, rfl⟩ | ⟨rfl, d, -, rfl⟩ | ⟨rfl, d, -, rfl⟩ := decodeRm_cases h
  · simp [dispSize, RegMem.dispSize]
  · simp [dispSize, RegMem.dispSize]
  · simp [dispSize, RegMem.dispSize, hr]
  · simp [dispSize, RegMem.dispSize]
  · simp [dispSize, RegMem.dispSize]

/-! ### Encoding what is decoded -/

/-- R78: the addressing-mode byte of a decoded operand, with any register table that its indices go back to. -/
theorem holds_encodeRm {indexOf : ρ → BitVec 3} (hidx : ∀ k, indexOf (regOf k) = k)
    (h1 : st.memRead1 (pc + 1) = some b1) (h : decodeRm regOf st pc (fieldMod b1) (fieldRm b1) = some x) :
    Holds st (pc + 1) (encodeRm indexOf (fieldReg b1) x) := by
  have hb {m : BitVec 2} (hm : fieldMod b1 = m) : m ++ fieldReg b1 ++ fieldRm b1 = b1 := hm ▸ append_fields b1
  obtain ⟨hm, rfl⟩ | ⟨hm, hr, a, ha, rfl⟩ | ⟨hm, -, rfl⟩ | ⟨hm, d, hd, rfl⟩ | ⟨hm, d, hd, rfl⟩ := decodeRm_cases h
  · rw [encodeRm, hidx, hb hm]; exact holds_cons.mpr ⟨h1, holds_nil _ _⟩
  · rw [encodeRm, ← hr, hb hm]; exact holds_cons.mpr ⟨h1, holds_wordBytes.mpr ha⟩
  · rw [encodeRm, Base.rm_ofRm, hb hm]; exact holds_cons.mpr ⟨h1, holds_nil _ _⟩
  · rw [encodeRm, Base.rm_ofRm, hb hm, lowByte_sext16]
    exact holds_cons.mpr ⟨h1, holds_cons.mpr ⟨hd, holds_nil _ _⟩⟩
  · rw [encodeRm, Base.rm_ofRm, hb hm]; exact holds_cons.mpr ⟨h1, holds_wordBytes.mpr hd⟩

/-- `ReadAs f st pc b0 b1 i`: the ways in which the operands of a classified instruction are read, by its family and
width (R92). -/
inductive ReadAs (f : Family) (st : Stream) (pc : Nat) (b0 b1 : Byte) : Instr → Prop
  | rmByte (add : Bool) (x : RegMem Reg8) (hf : f = rmFamily add) (hw : fieldW b0 = false)
      (hx : decodeRm Reg8.ofIndex st pc (fieldMod b1) (fieldRm b1) = some x) :
      ReadAs f st pc b0 b1 (rmByteForm add (fieldD b0) (Reg8.ofIndex (fieldReg b1)) x)
  | rmWord (add : Bool) (x : RegMem Reg16) (hf : f = rmFamily add) (hw : fieldW b0 = true)
      (hx : decodeRm Reg16.ofIndex st pc (fieldMod b1) (fieldRm b1) = some x) :
      ReadAs f st pc b0 b1 (rmWordForm add (fieldD b0) (Reg16.ofIndex (fieldReg b1)) x)
  | rmImmByte (x : RegMem Reg8) (v : Byte) (hf : f = .addRmI) (hw : fieldW b0 = false)
      (hx : decodeRm Reg8.ofIndex st pc (fieldMod b1) (fieldRm b1) = some x)
      (hv : st.memRead1 (pc + 2 + dispSize (fieldMod b1) (fieldRm b1)) = some v) :
      ReadAs f st pc b0 b1 (.addRm8Imm8 x v)
  | rmImmWord (x : RegMem Reg16) (v : Word) (hf : f = .addRmI) (hw : fieldW b0 = true)
      (hx : decodeRm Reg16.ofIndex st pc (fieldMod b1) (fieldRm b1) = some x)
      (hv : st.memRead2 (pc + 2 + dispSize (fieldMod b1) (fieldRm b1)) = some v) :
      ReadAs f st pc b0 b1 (.addRm16Imm16 x v)
  | regImmByte (v : Byte) (hf : f = .movRI) (hw : fieldWIr b0 = false) (hv : st.memRead1 (pc + 1) = some v) :
      ReadAs f st pc b0 b1 (.movR8Imm8 (Reg8.ofIndex (fieldRm b0)) v)
  | regImmWord (v : Word) (hf : f = .movRI) (hw : fieldWIr b0 = true) (hv : st.memRead2 (pc + 1) = some v) :
      ReadAs f st pc b0 b1 (.movR16Imm16 (Reg16.ofIndex (fieldRm b0)) v)
  | accImmByte (v : Byte) (hf : f = .addAI) (hw : fieldW b0 = false) (hv : st.memRead1 (pc + 1) = some v) :
      ReadAs f st pc b0 b1 (.addAlImm8 v)
  | accImmWord (v : Word) (hf : f = .addAI) (hw : fieldW b0 = true) (hv : st.memRead2 (pc + 1) = some v) :
      ReadAs f st pc b0 b1 (.addAxImm16 v)

theorem readAs_rmFamily (add : Bool) (h : decodeOperands (rmFamily add) st pc b0 b1 = some i) :
    ReadAs (rmFamily add) st pc b0 b1 i := by
  cases hw : fieldW b0 with
  | false =>
    rw [decodeOperands_rmByte add st pc b1 hw] at h
    obtain ⟨x, hx, rfl⟩ := Option.map_eq_some_iff.mp h
    exact .rmByte add x rfl hw hx
  | true =>
    rw [decodeOperands_rmWord add st pc b1 hw] at h
    obtain ⟨x, hx, rfl⟩ := Option.map_eq_some_iff.mp h
    exact .rmWord add x rfl hw hx

theorem readAs_addRmI (h : decodeOperands .addRmI st pc b0 b1 = some i) : ReadAs .addRmI st pc b0 b1 i := by
  cases hw : fieldW b0 <;> simp only [decodeOperands, decodeAddRmI, hw] at h <;>
    obtain ⟨x, hx, h⟩ := Option.bind_eq_some_iff.mp h <;> obtain ⟨v, hv, rfl⟩ := Option.map_eq_some_iff.mp h
  · exact .rmImmByte x v rfl hw hx hv
  · exact .rmImmWord x v rfl hw hx hv

theorem readAs_movRI (h : decodeOperands .movRI st pc b0 b1 = some i) : ReadAs .movRI st pc b0 b1 i := by
  cases hw : fieldWIr b0 <;> simp only [decodeOperands, decodeMovRI, hw] at h <;>
    obtain ⟨v, hv, rfl⟩ := Option.map_eq_some_iff.mp h
  · exact .regImmByte v rfl hw hv
  · exact .regImmWord v rfl hw hv

theorem readAs_addAI (h : decodeOperands .addAI st pc b0 b1 = some i) : ReadAs .addAI st pc b0 b1 i := by
  cases hw : fieldW b0 <;> simp only [decodeOperands, decodeAddAI, hw] at h <;>
    obtain ⟨v, hv, rfl⟩ := Option.map_eq_some_iff.mp h
  · exact .accImmByte v rfl hw hv
  · exact .accImmWord v rfl hw hv

theorem readAs_of_decodeOperands (h : decodeOperands f st pc b0 b1 = some i) : ReadAs f st pc b0 b1 i := by
  cases f with
  | movRmR => exact readAs_rmFamily false h
  | addRmR => exact readAs_rmFamily true h
  | addRmI => exact readAs_addRmI h
  | movRI => exact readAs_movRI h
  | addAI => exact readAs_addAI h

/-- R76: what the two-byte classifier answers, the first byte alone decides; with the check on, the extension field of
an immediate-to-register/memory ADD is 000. -/
theorem classify_eq_some {ext : Bool} (h : classify ext b0 b1 = some f) :
    classify1 b0 = some f ∧ (ext = true → f = .addRmI → fieldReg b1 = 0b000#3) := by
  unfold classify at h
  split at h
  next h1 =>
    split at h
    next => cases h
    next hext => cases h; exact ⟨h1, by simpa using hext⟩
  next hne => exact ⟨h, fun _ hf => absurd (hf ▸ h) hne⟩

/-- R88: the immediate follows the addressing-mode byte and the displacement. -/
theorem offset_after_encodeRm {indexOf : ρ → BitVec 3} {reg : BitVec 3} (h : decodeRm regOf st pc mod rm = some x) :
    pc + 1 + (encodeRm indexOf reg x).length = pc + 2 + dispSize mod rm := by
  rw [Laws.length_encodeRm, dispSize_of_decodeRm h]; omega

/-- Whatever was read stands in the stream as the encoding of what it was read as. -/
theorem holds_encode_of_readAs (hc : classify true b0 b1 = some f) (h0 : st.memRead1 pc = some b0)
    (h1 : st.memRead1 (pc + 1) = some b1) (h : ReadAs f st pc b0 b1 i) : Holds st pc (encodeBytes i) := by
  obtain ⟨hc, hext⟩ := classify_eq_some hc
  cases h with
  | rmByte add x hf hw hx =>
    have hb : b0 = rmOpcode add (fieldD b0) false := by rw [← hw]; exact eq_rmOpcode (hf ▸ hc)
    rw [encodeBytes_rmByteForm, Reg8.index_ofIndex, ← hb]
    exact holds_cons.mpr ⟨h0, holds_encodeRm Reg8.index_ofIndex h1 hx⟩
  | rmWord add x hf hw hx =>
    have hb : b0 = rmOpcode add (fieldD b0) true := by rw [← hw]; exact eq_rmOpcode (hf ▸ hc)
    rw [encodeBytes_rmWordForm, Reg16.index_ofIndex, ← hb]
    exact holds_cons.mpr ⟨h0, holds_encodeRm Reg16.index_ofIndex h1 hx⟩
  | rmImmByte x v hf hw hx hv =>
    have hb : b0 = addRmIOpcode false := by rw [← hw]; exact eq_addRmIOpcode (hf ▸ hc)
    have hrm := holds_encodeRm Reg8.index_ofIndex h1 hx
    rw [hext rfl hf] at hrm
    rw [encodeBytes_addRm8Imm8, ← hb]
    exact holds_cons.mpr ⟨h0, holds_append.mpr ⟨hrm, by
      rw [offset_after_encodeRm hx]; exact holds_cons.mpr ⟨hv, holds_nil _ _⟩⟩⟩
  | rmImmWord x v hf hw hx hv =>
    have hb : b0 = addRmIOpcode true := by rw [← hw]; exact eq_addRmIOpcode (hf ▸ hc)
    have hrm := holds_encodeRm Reg16.index_ofIndex h1 hx
    rw [hext rfl hf] at hrm
    rw [encodeBytes_addRm16Imm16, ← hb]
    exact holds_cons.mpr ⟨h0, holds_append.mpr ⟨hrm, by
      rw [offset_after_encodeRm hx]; exact holds_wordBytes.mpr hv⟩⟩
  | regImmByte v hf hw hv =>
    have hb : b0 = movRIOpcode false (fieldRm b0) := by rw [← hw]; exact eq_movRIOpcode (hf ▸ hc)
    rw [encodeBytes_movR8Imm8, Reg8.index_ofIndex, ← hb]
    exact holds_cons.mpr ⟨h0, holds_cons.mpr ⟨hv, holds_nil _ _⟩⟩
  | regImmWord v hf hw hv =>
    have hb : b0 = movRIOpcode true (fieldRm b0) := by rw [← hw]; exact eq_movRIOpcode (hf ▸ hc)
    rw [encodeBytes_movR16Imm16, Reg16.index_ofIndex, ← hb]
    exact holds_cons.mpr ⟨h0, holds_wordBytes.mpr hv⟩
  | accImmByte v hf hw hv =>
    have hb : b0 = addAIOpcode false := by rw [← hw]; exact eq_addAIOpcode (hf ▸ hc)
    rw [encodeBytes_addAlImm8, ← hb]
    exact holds_cons.mpr ⟨h0, holds_cons.mpr ⟨hv, holds_nil _ _⟩⟩
  | accImmWord v hf hw hv =>
    have hb : b0 = addAIOpcode true := by rw [← hw]; exact eq_addAIOpcode (hf ▸ hc)
    rw [encodeBytes_addAxImm16, ← hb]
    exact holds_cons.mpr ⟨h0, holds_wordBytes.mpr hv⟩

theorem length_encodeBytes (i : Instr) : (encodeBytes i).length = i.length := by
  cases i with
  | movRm8R8 dst src => exact Laws.EncodedLength.movRm8R8 dst src
  | movRm16R16 dst src => exact Laws.EncodedLength.movRm16R16 dst src
  | movR8Rm8 dst src => exact Laws.EncodedLength.movR8Rm8 dst src
  | movR16Rm16 dst src => exact Laws.EncodedLength.movR16Rm16 dst src
  | addRm8R8 dst src => exact Laws.EncodedLength.addRm8R8 dst src
  | addRm16R16 dst src => exact Laws.EncodedLength.addRm16R16 dst src
  | addR8Rm8 dst src => exact Laws.EncodedLength.addR8Rm8 dst src
  | addR16Rm16 dst src => exact Laws.EncodedLength.addR16Rm16 dst src
  | addRm8Imm8 dst imm => exact Laws.EncodedLength.addRm8Imm8 dst imm
  | addRm16Imm16 dst imm => exact Laws.EncodedLength.addRm16Imm16 dst imm
  | _ => rfl

/-- Settles O16: what decode read is held as the encoding, which has the instruction's length. -/
theorem encodeDecodeRoundTrip : Obligations.EncodeDecodeRoundTrip := by
  intro st pc i h
  obtain ⟨b0, b1, f, h0, h1, hc, -, hop, -, -, -⟩ := decodeAt_ok h
  have hholds : Holds st pc (encodeBytes i) := holds_encode_of_readAs hc h0 h1 (readAs_of_decodeOperands hop)
  exact ⟨length_encodeBytes i, fun k hk => hholds k (by rw [length_encodeBytes]; exact hk)⟩

/-! ### No other bytes count -/

/-- From `pc'` on the stream `st'` holds the `n` bytes that `st` holds from `pc` on. -/
def SameBytes (st st' : Stream) (pc pc' n : Nat) : Prop := ∀ k, k < n → st'.memRead1 (pc' + k) = st.memRead1 (pc + k)

variable {n : Nat}

theorem SameBytes.memRead1 (h : SameBytes st st' pc pc' n) (k : Nat) (hk : k + 1 ≤ n) :
    st'.memRead1 (pc' + k) = st.memRead1 (pc + k) := h k hk

theorem SameBytes.memRead2 (h : SameBytes st st' pc pc' n) (k : Nat) (hk : k + 2 ≤ n) :
    st'.memRead2 (pc' + k) = st.memRead2 (pc + k) := by
  rw [Stream.memRead2_eq, Stream.memRead2_eq, Nat.add_assoc, Nat.add_assoc, h k (by omega), h (k + 1) (by omega)]

/-- R80 to R86: an operand reads its displacement bytes only. -/
theorem decodeRm_congr (h : SameBytes st st' pc pc' n) (hn : 2 + dispSize mod rm ≤ n) :
    decodeRm regOf st' pc' mod rm = decodeRm regOf st pc mod rm := by
  unfold decodeRm
  obtain rfl | rfl | rfl | rfl := mod_cases mod
  · by_cases hr : rm = 0b110#3
    · subst hr; rw [h.memRead2 2 (by simpa [dispSize] using hn)]; rfl
    · simp [hr]
  · rw [h.memRead1 2 (by simpa [dispSize] using hn)]; rfl
  · rw [h.memRead2 2 (by simpa [dispSize] using hn)]; rfl
  · rfl

theorem decodeOperands_rmFamily_congr (add : Bool)
    (h : SameBytes st st' pc pc' (insnLength (rmFamily add) b0 b1)) :
    decodeOperands (rmFamily add) st' pc' b0 b1 = decodeOperands (rmFamily add) st pc b0 b1 := by
  have hn : 2 + dispSize (fieldMod b1) (fieldRm b1) ≤ insnLength (rmFamily add) b0 b1 :=
    Nat.le_of_eq (insnLength_rmFamily add b0 b1).symm
  cases hw : fieldW b0 with
  | false => rw [decodeOperands_rmByte add _ _ _ hw, decodeOperands_rmByte add _ _ _ hw, decodeRm_congr h hn]
  | true => rw [decodeOperands_rmWord add _ _ _ hw, decodeOperands_rmWord add _ _ _ hw, decodeRm_congr h hn]

theorem decodeAddRmI_congr (h : SameBytes st st' pc pc' (insnLength .addRmI b0 b1)) :
    decodeAddRmI st' pc' b0 b1 = decodeAddRmI st pc b0 b1 := by
  rw [insnLength] at h
  unfold decodeAddRmI
  simp only [Nat.add_assoc]
  cases hw : fieldW b0 with
  | false => rw [hw] at h; simp only [decodeRm_congr h (Nat.le_add_right _ _), h.memRead1 _ (Nat.le_refl _)]
  | true => rw [hw] at h; simp only [decodeRm_congr h (Nat.le_add_right _ _), h.memRead2 _ (Nat.le_refl _)]

theorem decodeMovRI_congr (h : SameBytes st st' pc pc' (insnLength .movRI b0 b1)) :
    decodeMovRI st' pc' b0 = decodeMovRI st pc b0 := by
  rw [insnLength] at h
  unfold decodeMovRI
  cases hw : fieldWIr b0 with
  | false => rw [hw] at h; simp only [h.memRead1 1 (Nat.le_refl _)]
  | true => rw [hw] at h; simp only [h.memRead2 1 (Nat.le_refl _)]

theorem decodeAddAI_congr (h : SameBytes st st' pc pc' (insnLength .addAI b0 b1)) :
    decodeAddAI st' pc' b0 = decodeAddAI st pc b0 := by
  rw [insnLength] at h
  unfold decodeAddAI
  cases hw : fieldW b0 with
  | false => rw [hw] at h; simp only [h.memRead1 1 (Nat.le_refl _)]
  | true => rw [hw] at h; simp only [h.memRead2 1 (Nat.le_refl _)]

/-- R90: the operands of an instruction are read inside its length. -/
theorem decodeOperands_congr (h : SameBytes st st' pc pc' (insnLength f b0 b1)) :
    decodeOperands f st' pc' b0 b1 = decodeOperands f st pc b0 b1 := by
  cases f with
  | movRmR => exact decodeOperands_rmFamily_congr false h
  | addRmR => exact decodeOperands_rmFamily_congr true h
  | addRmI => exact decodeAddRmI_congr h
  | movRI => exact decodeMovRI_congr h
  | addAI => exact decodeAddAI_congr h

/-- Bytes that were read at one place lie inside the stream at the other. -/
theorem SameBytes.le_len (h : SameBytes st st' pc pc' (n + 1)) (hl : pc + (n + 1) ≤ st.len) :
    pc' + (n + 1) ≤ st'.len := by
  obtain ⟨b, hb⟩ := Stream.memRead1_of_lt (st := st) (a := pc + n) hl
  exact TakenProofs.lt_of_memRead1 ((h n (Nat.lt_succ_self n)).trans hb)

/-- Settles O23: the two classified bytes, the length check and the operands all come to the same. -/
theorem decodeReadsItsOwnBytes : Obligations.DecodeReadsItsOwnBytes := by
  intro ext st st' pc pc' i h hsame
  obtain ⟨b0, b1, f, h0, h1, hc, hl, hop, hlen, -, -⟩ := decodeAt_ok h
  have hs : SameBytes st st' pc pc' (insnLength f b0 b1) := hlen ▸ hsame
  have hmin : 2 ≤ insnLength f b0 b1 := (insnLength_bounds f b0 b1).1
  have hl' : pc' + insnLength f b0 b1 ≤ st'.len := by
    obtain ⟨n, hn⟩ : ∃ n, insnLength f b0 b1 = n + 1 := ⟨_, (Nat.sub_add_cancel (by omega)).symm⟩
    rw [hn] at hs hl ⊢
    exact hs.le_len hl
  exact decodeAt_of_operands ((hs.memRead1 0 (by omega)).trans h0) ((hs.memRead1 1 hmin).trans h1) hc hl'
    ((decodeOperands_congr hs).trans hop)

/-! ### The record of the spec's pseudocode -/

theorem fieldW_eq_decide (b : Byte) : fieldW b = decide (b.toNat % 2 = 1) := by
  rw [fieldW, BitVec.getLsbD, Nat.testBit_eq_decide_div_mod_eq, Nat.pow_zero, Nat.div_one]

theorem fieldWIr_eq_decide (b : Byte) : fieldWIr b = decide (b.toNat / 8 % 2 = 1) :=
  Nat.testBit_eq_decide_div_mod_eq

theorem fieldD_eq_decide (b : Byte) : fieldD b = decide (b.toNat / 2 % 2 = 1) :=
  Nat.testBit_eq_decide_div_mod_eq

theorem toNat_fieldReg (b : Byte) : (fieldReg b).toNat = Spec.slice b.toNat 5 3 :=
  LengthProofs.toNat_extractLsb'_eq_slice b 3 2

theorem toNat_fieldRm_eq_mod (b : Byte) : (fieldRm b).toNat = b.toNat % 8 := by
  have h : Spec.slice b.toNat 2 0 = b.toNat / 1 % 8 := rfl
  rw [LengthProofs.toNat_fieldRm, h, Nat.div_one]

theorem operand_ofIndex8 (k : BitVec 3) : (Reg8.ofIndex k).operand = Spec.regOperand false k.toNat := by
  rw [Reg8.operand, Reg8.index_ofIndex]; rfl

theorem operand_ofIndex16 (k : BitVec 3) : (Reg16.ofIndex k).operand = Spec.regOperand true k.toNat := by
  rw [Reg16.operand, Reg16.index_ofIndex]; rfl

theorem spec_base (k : BitVec 3) : Spec.base k.toNat = Base.ofRm k := by revert k; decide

/-- R7: sign extension in numbers. -/
theorem ofInt_toInt_eq_sext16 (d : Byte) : BitVec.ofInt 16 d.toInt = sext16 d := rfl

/-- R92, `decode_rm`: in numbers, the operand's record is what the pseudocode answers. -/
theorem spec_decodeRm {regOperand : ρ → Operand} {w : Bool}
    (hreg : ∀ k, regOperand (regOf k) = Spec.regOperand w k.toNat)
    (h : decodeRm regOf st pc (fieldMod b1) (fieldRm b1) = some x) :
    Spec.decodeRm st pc w (Spec.slice b1.toNat 7 6) (Spec.slice b1.toNat 2 0) = some (x.operand regOperand) := by
  rw [← LengthProofs.toNat_fieldMod, ← LengthProofs.toNat_fieldRm]
  obtain ⟨hm, rfl⟩ | ⟨hm, hr, a, ha, rfl⟩ | ⟨hm, hr, rfl⟩ | ⟨hm, d, hd, rfl⟩ | ⟨hm, d, hd, rfl⟩ := decodeRm_cases h
  · simp [Spec.decodeRm, hm, RegMem.operand, hreg]
  · simp [Spec.decodeRm, hm, hr, ha, RegMem.operand]
  · have hr' : (fieldRm b1).toNat ≠ 6 := fun e => hr (BitVec.eq_of_toNat_eq e)
    simp [Spec.decodeRm, hm, hr', spec_base, RegMem.operand]
  · simp [Spec.decodeRm, hm, hd, spec_base, RegMem.operand, ofInt_toInt_eq_sext16]
  · simp [Spec.decodeRm, hm, hd, spec_base, RegMem.operand]

theorem spec_decodeImm_byte {a : Nat} {v : Byte} (h : st.memRead1 a = some v) :
    Spec.decodeImm st a false = some (imm8Operand v) := by
  rw [Spec.decodeImm, if_neg Bool.false_ne_true, h]; rfl

theorem spec_decodeImm_word {a : Nat} {v : Word} (h : st.memRead2 a = some v) :
    Spec.decodeImm st a true = some (imm16Operand v) := by
  rw [Spec.decodeImm, if_pos rfl, h]; rfl

/-- The mnemonic of a register/memory form. -/
def rmMnemonic (add : Bool) : Mnemonic := if add then .ADD else .MOV

theorem record_rmByteForm (add d : Bool) (r : Reg8) (x : RegMem Reg8) :
    (rmByteForm add d r x).record =
      if d then ⟨rmMnemonic add, r.operand, x.operand Reg8.operand, (rmByteForm add d r x).length⟩
      else ⟨rmMnemonic add, x.operand Reg8.operand, r.operand, (rmByteForm add d r x).length⟩ := by
  cases add <;> cases d <;> rfl

theorem record_rmWordForm (add d : Bool) (r : Reg16) (x : RegMem Reg16) :
    (rmWordForm add d r x).record =
      if d then ⟨rmMnemonic add, r.operand, x.operand Reg16.operand, (rmWordForm add d r x).length⟩
      else ⟨rmMnemonic add, x.operand Reg16.operand, r.operand, (rmWordForm add d r x).length⟩ := by
  cases add <;> cases d <;> rfl

/-- R71, R89: the pseudocode's record of a register/memory form, from the operand it decodes. -/
theorem spec_decodeRecord_rm (add : Bool) (len : Nat) {o : Operand}
    (ho : Spec.decodeRm st pc (fieldW b0) (Spec.slice b1.toNat 7 6) (Spec.slice b1.toNat 2 0) = some o) :
    Spec.decodeRecord (rmFamily add) st pc b0.toNat b1.toNat len =
      some (if fieldD b0 then ⟨rmMnemonic add, Spec.regOperand (fieldW b0) (fieldReg b1).toNat, o, len⟩
        else ⟨rmMnemonic add, o, Spec.regOperand (fieldW b0) (fieldReg b1).toNat, len⟩) := by
  rw [fieldW_eq_decide] at ho ⊢
  cases add <;>
    simp only [Spec.decodeRecord, rmFamily, rmMnemonic, ho, Option.map_some, toNat_fieldReg, fieldD_eq_decide,
      decide_eq_true_eq, if_true, Bool.false_eq_true, if_false]

/-- R92: the pseudocode's record is the record of what was read. -/
theorem spec_decodeRecord (h : ReadAs f st pc b0 b1 i) :
    Spec.decodeRecord f st pc b0.toNat b1.toNat i.length = some i.record := by
  cases h with
  | rmByte add x hf hw hx =>
    rw [hf, spec_decodeRecord_rm add _ (by rw [hw]; exact spec_decodeRm operand_ofIndex8 hx), hw,
      record_rmByteForm, operand_ofIndex8]
  | rmWord add x hf hw hx =>
    rw [hf, spec_decodeRecord_rm add _ (by rw [hw]; exact spec_decodeRm operand_ofIndex16 hx), hw,
      record_rmWordForm, operand_ofIndex16]
  | rmImmByte x v hf hw hx hv =>
    rw [fieldW_eq_decide] at hw
    rw [LengthProofs.dispSize_fields] at hv
    simp only [hf, Spec.decodeRecord, hw, spec_decodeRm operand_ofIndex8 hx, spec_decodeImm_byte hv, Option.bind_some,
      Option.map_some, Instr.record]
  | rmImmWord x v hf hw hx hv =>
    rw [fieldW_eq_decide] at hw
    rw [LengthProofs.dispSize_fields] at hv
    simp only [hf, Spec.decodeRecord, hw, spec_decodeRm operand_ofIndex16 hx, spec_decodeImm_word hv, Option.bind_some,
      Option.map_some, Instr.record]
  | regImmByte v hf hw hv =>
    rw [fieldWIr_eq_decide] at hw
    simp only [hf, Spec.decodeRecord, hw, spec_decodeImm_byte hv, Option.map_some, Instr.record, operand_ofIndex8,
      toNat_fieldRm_eq_mod]
  | regImmWord v hf hw hv =>
    rw [fieldWIr_eq_decide] at hw
    simp only [hf, Spec.decodeRecord, hw, spec_decodeImm_word hv, Option.map_some, Instr.record, operand_ofIndex16,
      toNat_fieldRm_eq_mod]
  | accImmByte v hf hw hv =>
    rw [fieldW_eq_decide] at hw
    simp only [hf, Spec.decodeRecord, hw, spec_decodeImm_byte hv, Option.map_some, Instr.record]
    rfl
  | accImmWord v hf hw hv =>
    rw [fieldW_eq_decide] at hw
    simp only [hf, Spec.decodeRecord, hw, spec_decodeImm_word hv, Option.map_some, Instr.record]
    rfl

/-- Settles O22, from the way the operands were read. -/
theorem decodeRecordIsTheSpecs : Obligations.DecodeRecordIsTheSpecs := by
  intro ext st pc i h
  obtain ⟨b0, b1, f, h0, h1, hc, -, hop, hlen, -, -⟩ := decodeAt_ok h
  exact ⟨b0, b1, f, h0, h1, hc, hlen ▸ spec_decodeRecord (readAs_of_decodeOperands hop)⟩

end Sys2Proof.CodecProofs
end

section
/-! PROOFS. The classifier as one dispatch and as a map of the first byte (30_encoding R75 to R77), and the spec's
decode vectors. -/

namespace Sys2Proof.ClassifierProofs

open Sys2Proof.Machine
open Sys2Proof.CodecProofs

/-- R75: the first of the five rows that the byte matches. -/
theorem classify1_eq_dispatch (b0 : Byte) :
    classify1 b0 =
      if b0 &&& 0xFC = 0x88 then some .movRmR
      else if b0 &&& 0xF0 = 0xB0 then some .movRI
      else if b0 &&& 0xFC = 0x00 then some .addRmR
      else if b0 &&& 0xFE = 0x80 then some .addRmI
      else if b0 &&& 0xFE = 0x04 then some .addAI
      else none := by
  revert b0; decide

/-- Settles O18: the dispatch, and for each byte the number of rows that it matches. -/
theorem classifierIsOneDispatch : Obligations.ClassifierIsOneDispatch :=
  fun b0 => ⟨classify1_eq_dispatch b0, by revert b0; decide⟩

/-- R77: the complete map of the first byte, before the extension field is looked at. -/
theorem classify1_eq_map (b0 : Byte) :
    classify1 b0 =
      if b0.toNat ≤ 0x03 then some .addRmR
      else if b0.toNat ≤ 0x05 then some .addAI
      else if b0.toNat < 0x80 then none
      else if b0.toNat ≤ 0x81 then some .addRmI
      else if b0.toNat < 0x88 then none
      else if b0.toNat ≤ 0x8B then some .movRmR
      else if b0.toNat < 0xB0 then none
      else if b0.toNat ≤ 0xBF then some .movRI
      else none := by
  revert b0; decide

/-- R76: the family of the first byte, once the extension field has been checked where it counts. -/
def extChecked (ext : Bool) (b1 : Byte) (family : Option Family) : Option Family :=
  match family with
  | some .addRmI => if ext = true ∧ Spec.slice b1.toNat 5 3 ≠ 0 then none else some .addRmI
  | other => other

/-- The model's test of the extension field, in numbers. -/
theorem extension_refused_iff (ext : Bool) (b1 : Byte) :
    (ext && fieldReg b1 != 0b000#3) = true ↔ ext = true ∧ Spec.slice b1.toNat 5 3 ≠ 0 := by
  rw [Bool.and_eq_true, bne_iff_ne, ← toNat_fieldReg, ne_eq, ← BitVec.toNat_inj]
  rfl

theorem classify_eq_extChecked (ext : Bool) (b0 b1 : Byte) :
    classify ext b0 b1 = extChecked ext b1 (classify1 b0) := by
  unfold classify extChecked
  simp only [extension_refused_iff] <;> rfl

/-- Settles O19: the check goes through the map range by range, and only the range of `80` and `81` feels it. -/
theorem firstByteMap : Obligations.FirstByteMap := by
  intro ext b0 b1 n
  rw [classify_eq_extChecked, classify1_eq_map]
  simp only [apply_ite (extChecked ext b1)]
  rfl

/-- Settles O24: seven fixed words, evaluated. -/
theorem specWordsDecode : Obligations.SpecWordsDecode := by
  unfold Obligations.SpecWordsDecode
  decide

end Sys2Proof.ClassifierProofs
end

section
/-! PROOFS. The unpacking of an `XREC` word in the numbers of its fields, and its packing again (30_encoding R95). -/

namespace Sys2Proof.XrecProofs

open Sys2Proof.Machine
open Sys2Proof.TakenProofs

variable {x : BitVec 24} {i : Instr}

theorem toNat_extractLsb'_eq_slice (x : BitVec 24) (lo len : Nat) :
    (x.extractLsb' lo (len + 1)).toNat = Spec.slice x.toNat (lo + len) lo := by
  rw [BitVec.extractLsb'_toNat, Nat.shiftRight_eq_div_pow, Spec.slice, Nat.add_sub_cancel_left]

/-- R95: bit 21, as a bit of the word and as a field of its number. -/
theorem getLsbD_21_eq (x : BitVec 24) : x.getLsbD 21 = decide (Spec.slice x.toNat 21 21 = 1) :=
  Nat.testBit_eq_decide_div_mod_eq

/-- R95: a field is zero as a bit vector exactly when it is zero as a number. -/
theorem field_eq_zero_iff (x : BitVec 24) (lo len : Nat) :
    x.extractLsb' lo (len + 1) = 0#(len + 1) ↔ Spec.slice x.toNat (lo + len) lo = 0 := by
  rw [← toNat_extractLsb'_eq_slice, ← BitVec.toNat_inj, BitVec.toNat_ofNat, Nat.zero_mod]

/-- R95: a word is ill-formed, or has an immediate source, or a register source. -/
theorem decodeXrec_cases (x : BitVec 24) :
    ((Spec.slice x.toNat 20 19 ≠ 0 ∨ (Spec.slice x.toNat 21 21 = 0 ∧ Spec.slice x.toNat 15 3 ≠ 0)) ∧
      decodeXrec x = none) ∨
    (Spec.slice x.toNat 20 19 = 0 ∧ Spec.slice x.toNat 21 21 = 1 ∧
      decodeXrec x =
        some (xrecImm (x.extractLsb' 22 2) (Reg16.ofIndex (x.extractLsb' 16 3)) (x.extractLsb' 0 16))) ∨
    (Spec.slice x.toNat 20 19 = 0 ∧ Spec.slice x.toNat 21 21 = 0 ∧ Spec.slice x.toNat 15 3 = 0 ∧
      decodeXrec x =
        some (xrecReg (x.extractLsb' 22 2) (Reg16.ofIndex (x.extractLsb' 16 3))
          (Reg16.ofIndex (x.extractLsb' 0 3)))) := by
  have hbit : Spec.slice x.toNat 21 21 < 2 := Nat.mod_lt _ (by decide)
  unfold decodeXrec
  rw [getLsbD_21_eq]
  by_cases hz : x.extractLsb' 19 2 = 0b00#2
  · rw [if_neg (fun h => h hz)]
    have hz' := (field_eq_zero_iff x 19 1).mp hz
    by_cases hk : Spec.slice x.toNat 21 21 = 1
    · exact .inr (.inl ⟨hz', hk, by rw [decide_eq_true hk]⟩)
    · rw [decide_eq_false hk]
      have hk' : Spec.slice x.toNat 21 21 = 0 := by omega
      by_cases hv : x.extractLsb' 3 13 = 0#13
      · exact .inr (.inr ⟨hz', hk', (field_eq_zero_iff x 3 12).mp hv, if_neg (fun h => h hv)⟩)
      · exact .inl ⟨.inr ⟨hk', fun h => hv ((field_eq_zero_iff x 3 12).mpr h)⟩, if_pos hv⟩
  · exact .inl ⟨.inl fun h => hz ((field_eq_zero_iff x 19 1).mpr h), if_pos hz⟩

theorem encode_xrecImm (op : BitVec 2) (d : Reg16) (v : Word) :
    encode (xrecImm op d v) = .xrec (encodeXrecImm op d v) := by
  obtain rfl | rfl | rfl | rfl := mod_cases op
  all_goals rfl

theorem encode_xrecReg (op : BitVec 2) (d r : Reg16) : encode (xrecReg op d r) = .xrec (encodeXrecReg op d r) := by
  obtain rfl | rfl | rfl | rfl := mod_cases op
  all_goals rfl

/-- An `XREC` word with a register source, as a number. -/
theorem toNat_encodeXrecReg (op : BitVec 2) (d r : Reg16) :
    (encodeXrecReg op d r).toNat = op.toNat * 2 ^ 22 + d.index.toNat * 2 ^ 16 + r.index.toNat := by
  revert op; cases d <;> cases r <;> decide

/-- A word with an immediate source is the packing of its fields. -/
theorem pack_imm (hz : Spec.slice x.toNat 20 19 = 0) (hk : Spec.slice x.toNat 21 21 = 1) :
    encodeXrecImm (x.extractLsb' 22 2) (Reg16.ofIndex (x.extractLsb' 16 3)) (x.extractLsb' 0 16) = x := by
  apply BitVec.eq_of_toNat_eq
  have hx := x.isLt
  rw [toNat_encodeXrecImm, Reg16.index_ofIndex, toNat_extractLsb'_eq_slice x 22 1, toNat_extractLsb'_eq_slice x 16 2,
    toNat_extractLsb'_eq_slice x 0 15]
  simp only [Spec.slice] at hz hk ⊢
  omega

/-- A word with a register source is the packing of its fields. -/
theorem pack_reg (hz : Spec.slice x.toNat 20 19 = 0) (hk : Spec.slice x.toNat 21 21 = 0)
    (hv : Spec.slice x.toNat 15 3 = 0) :
    encodeXrecReg (x.extractLsb' 22 2) (Reg16.ofIndex (x.extractLsb' 16 3)) (Reg16.ofIndex (x.extractLsb' 0 3)) =
      x := by
  apply BitVec.eq_of_toNat_eq
  have hx := x.isLt
  rw [toNat_encodeXrecReg, Reg16.index_ofIndex, Reg16.index_ofIndex, toNat_extractLsb'_eq_slice x 22 1,
    toNat_extractLsb'_eq_slice x 16 2, toNat_extractLsb'_eq_slice x 0 2]
  simp only [Spec.slice] at hz hk hv ⊢
  omega

/-- The two fields of the low half `v` that a register source uses are fields of the word. -/
theorem slice_low_15_3 (n : Nat) : Spec.slice (Spec.slice n 15 0) 15 3 = Spec.slice n 15 3 := by
  simp only [Spec.slice]; omega

theorem slice_low_2_0 (n : Nat) : Spec.slice (Spec.slice n 15 0) 2 0 = Spec.slice n 2 0 := by
  simp only [Spec.slice]; omega

/-- Settles O17, kind by kind: what a word unpacks to is built from its fields, and packs them again. -/
theorem xrecUnpacking : Obligations.XrecUnpacking := by
  intro x n v
  have hop : (x.extractLsb' 22 2).toNat = Spec.slice n 23 22 := toNat_extractLsb'_eq_slice x 22 1
  have hd : (x.extractLsb' 16 3).toNat = Spec.slice n 18 16 := toNat_extractLsb'_eq_slice x 16 2
  have hr : (x.extractLsb' 0 3).toNat = Spec.slice v 2 0 :=
    (toNat_extractLsb'_eq_slice x 0 2).trans (slice_low_2_0 n).symm
  have hlow : (x.extractLsb' 0 16).toNat = v := toNat_extractLsb'_eq_slice x 0 15
  have hv : x.extractLsb' 0 16 = BitVec.ofNat 16 v := by rw [← hlow, BitVec.ofNat_toNat, BitVec.setWidth_eq]
  rw [slice_low_15_3]
  obtain ⟨hbad, h⟩ | ⟨hz, hk, h⟩ | ⟨hz, hk, hv0, h⟩ := decodeXrec_cases x
  · exact ⟨iff_of_true h hbad, fun i hi => absurd (h.symm.trans hi) nofun⟩
  · refine ⟨iff_of_false (by rw [h]; nofun) (by rw [hz, hk]; simp), fun i hi => ?_⟩
    obtain rfl := Option.some.inj (h.symm.trans hi)
    refine ⟨by rw [encode_xrecImm, pack_imm hz hk], ?_⟩
    rw [record_xrecImm, hop, hv, Spec.reg, Reg16.index_ofIndex, hd, if_pos hk]
    rfl
  · refine ⟨iff_of_false (by rw [h]; nofun) (by rw [hz, hk, hv0]; simp), fun i hi => ?_⟩
    obtain rfl := Option.some.inj (h.symm.trans hi)
    have hk1 : ¬ Spec.slice n 21 21 = 1 := by rw [hk]; decide
    refine ⟨by rw [encode_xrecReg, pack_reg hz hk hv0], ?_⟩
    rw [record_xrecReg, hop, Spec.reg, Spec.reg, Reg16.index_ofIndex, Reg16.index_ofIndex, hd, hr, if_neg hk1]

end Sys2Proof.XrecProofs
end

section
/-! PROOFS. The step from what stands at the counter (44_controller R213 to R219; 60_exceptions R244) and the state
after reset (10_state R35). -/

namespace Sys2Proof.ControllerProofs

open Sys2Proof.Machine
open Sys2Proof.TakenProofs

variable {s t : State}

/-- Settles O1: the registers are the zero file, and every other field is the one R35 lists. -/
theorem resetValues : Obligations.ResetValues :=
  ⟨fun _ _ => ⟨RegFile.get_zero, rfl, rfl, rfl, rfl, rfl, rfl, rfl, rfl, rfl⟩, rfl, rfl⟩

/-- Settles O26, from the forward rule of each way in. -/
theorem stepRunsTheInstruction : Obligations.StepRunsTheInstruction :=
  fun _ _ hs => ⟨step_of_decodeAt_ok hs, fun _ => step_of_packed, fun _ => step_of_abstract⟩

/-- Settles O30: the bytes decode to Unknown, and the policy says what becomes of the run. -/
theorem unknownOpcodePolicies : Obligations.UnknownOpcodePolicies := by
  intro s b0 b1 hs hm hl h0 h1 hc
  have hd : decodeAt s.inputs.extCheck s.inputs.stream s.pc = .unknown := by rw [decodeAt_eq h0 h1, hc]
  have hle : s.pc + 2 ≤ s.inputs.stream.len := by omega
  have hstep : step s = .next s.onUnknown := step_of_unknown hs hm hle hd
  refine ⟨fun hp => ?strict, fun hp => ⟨?permissive, by omega⟩⟩
  case strict => rw [hstep, onUnknown_of_strict hp]; rfl
  case permissive => rw [hstep, onUnknown_of_permissive hp]; rfl

/-- Settles O31: the length check comes before the operands. -/
theorem truncationStops : Obligations.TruncationStops :=
  fun _ _ _ _ hs hm h0 h1 hc hl => step_of_length_gt hs hm h0 h1 hc hl

/-! ### Record mode -/

theorem step_of_no_record (hs : s.status = .run) (hm : s.inputs.mode = .recordExec)
    (hr : s.inputs.records[s.rpc]? = none) : step s = .next s.finish := by
  simp [step, fetch, hs, hm, fetchRecord, hr]

/-- Settles O34: the end of the records, and the refusal by the engine. -/
theorem recordModeEndsAndRefuses : Obligations.RecordModeEndsAndRefuses :=
  fun _ hs hm => ⟨fun hl => step_of_no_record hs hm (List.getElem?_eq_none hl),
    fun _ hitem hr hw => step_of_not_wellFormed hr hw ⟨hs, hm, hitem⟩⟩

/-- R31: a word register of the file is an operand some general register has. -/
theorem exists_reg_of_isWordReg {op : Operand} (h : op.isWordReg = true) : ∃ r : Reg16, op = Spec.reg r := by
  rw [← EngineProofs.destIndex_isSome, Option.isSome_iff_exists] at h
  obtain ⟨r, hr⟩ := h
  exact ⟨r, (OperandProofs.destIndex_eq_some_iff op r).mp hr⟩

theorem exists_imm_of_isImmediate {op : Operand} (h : op.isImmediate = true) : ∃ v w, op = .immediate v w := by
  match op with
  | .immediate v w => exact ⟨v, w, rfl⟩
  | .register _ _ | .memory _ _ _ | .direct _ => cases h

/-- R95: every mnemonic has an `op` field. -/
theorem exists_op (m : Mnemonic) : ∃ op : BitVec 2, m = Spec.xrecMnemonic op.toNat := by
  cases m with
  | MOV => exact ⟨0b00, rfl⟩
  | ADD => exact ⟨0b01, rfl⟩
  | SUB => exact ⟨0b10, rfl⟩
  | CMP => exact ⟨0b11, rfl⟩

/-- R31: a well-formed record has one of two shapes. -/
theorem wellFormed_cases {rec : Record} (h : rec.wellFormed = true) :
    ∃ (op : BitVec 2) (d : Reg16),
      (∃ r, rec = ⟨Spec.xrecMnemonic op.toNat, Spec.reg d, Spec.reg r, rec.length⟩) ∨
      ∃ v w, rec = ⟨Spec.xrecMnemonic op.toNat, Spec.reg d, .immediate v w, rec.length⟩ := by
  obtain ⟨m, dest, src, len⟩ := rec
  rw [Record.wellFormed, Bool.and_eq_true, Bool.or_eq_true] at h
  obtain ⟨hdest, hsrc⟩ := h
  obtain ⟨op, rfl⟩ := exists_op m
  obtain ⟨d, rfl⟩ := exists_reg_of_isWordReg hdest
  refine ⟨op, d, hsrc.imp (fun hr => ?_) (fun hi => ?_)⟩
  · obtain ⟨r, rfl⟩ := exists_reg_of_isWordReg hr
    exact ⟨r, rfl⟩
  · obtain ⟨v, w, rfl⟩ := exists_imm_of_isImmediate hi
    exact ⟨v, w, rfl⟩

/-- Settles O28: a well-formed record of each shape stands for the instruction of its operation and operands, and no
other record stands for one. -/
theorem wellFormedRecordsAreInstructions : Obligations.WellFormedRecordsAreInstructions := by
  intro rec
  refine ⟨⟨fun hw => ?stands, fun ⟨i, hi⟩ => wellFormed_of_instr hi⟩, fun i hi => ⟨Record.instr_onRecordPort hi, ?same⟩⟩
  case stands =>
    obtain ⟨op, d, ⟨r, h⟩ | ⟨v, w, h⟩⟩ := wellFormed_cases hw <;> rw [h]
    · exact ⟨_, instr_reg op d r _⟩
    · exact ⟨_, instr_imm op d v w _⟩
  case same =>
    obtain ⟨op, d, ⟨r, h⟩ | ⟨v, w, h⟩⟩ := wellFormed_cases (wellFormed_of_instr hi) <;> rw [h] at hi ⊢
    · obtain rfl := Option.some.inj ((instr_reg op d r _).symm.trans hi)
      rw [record_xrecReg]
      exact ⟨rfl, rfl, fun _ => rfl⟩
    · obtain rfl := Option.some.inj ((instr_imm op d v w _).symm.trans hi)
      rw [record_xrecImm]
      exact ⟨rfl, rfl, fun _ => rfl⟩

/-! ### Invariant violations -/

/-- R79, R244: the naming tables have no index out of range. -/
theorem recordInRange_record (i : Instr) : recordInRange i.record = true := by
  cases i <;>
    simp [recordInRange, Instr.record, Laws.operandInRange_reg16, Laws.operandInRange_reg8, Laws.operandInRange_rm16,
      Laws.operandInRange_rm8, Laws.operandInRange_imm16, Laws.operandInRange_imm8]

/-- R244: the items of the record port that are an invariant violation. -/
def IllFormed (item : PortItem) : Prop :=
  (∃ x, item = .packed x ∧ decodeXrec x = none) ∨ ∃ rec, item = .abstract rec ∧ recordInRange rec = false

theorem fetchItem_of_illFormed {item : PortItem} (h : IllFormed item) :
    fetchItem s item = .settled (s.raise .invariantViolation s.rpc) := by
  obtain ⟨x, rfl, hx⟩ | ⟨rec, rfl, hr⟩ := h
  · rw [fetchItem, hx]
  · rw [fetchItem, hr, if_neg Bool.false_ne_true]

/-- R219: an engine that refuses or executes a record raises no invariant violation. -/
theorem executeRecord_status (hs : s.status = .run) (rec : Record) :
    (s.executeRecord rec).status ≠ .faultInvariant := by
  obtain ⟨x, -, e⟩ | ⟨-, -, e⟩ | ⟨-, -, e⟩ := executeRecord_cases s rec <;> rw [e]
  · exact fun h => absurd (hs.symm.trans h) nofun
  · nofun
  · exact fun h => absurd (hs.symm.trans h) nofun

theorem illFormed_of_fetchItem {item : PortItem} (hs : s.status = .run)
    (h : fetchItem s item = .settled (s.raise .invariantViolation s.rpc)) : IllFormed item := by
  cases item with
  | packed x =>
    cases hx : decodeXrec x with
    | none => exact .inl ⟨x, rfl, hx⟩
    | some i => rw [fetchItem, hx] at h; cases h
  | abstract rec =>
    cases hr : recordInRange rec with
    | false => exact .inr ⟨rec, rfl, hr⟩
    | true =>
      rw [fetchItem, hr, if_pos rfl] at h
      cases hi : rec.instr with
      | some i => rw [hi] at h; cases h
      | none =>
        rw [hi] at h
        exact absurd (congrArg State.status (Fetched.settled.inj h)) (executeRecord_status hs rec)

/-- R240, R244: of the ways of a step one alone raises an invariant violation, in record mode and at `rpc`. -/
theorem illFormed_of_stepTo (hs : s.status = .run) (h : StepTo s t) (ht : t.status = .faultInvariant) :
    t = s.raise .invariantViolation s.rpc ∧ s.inputs.mode = .recordExec ∧
      ∃ item, s.inputs.records[s.rpc]? = some item ∧ IllFormed item := by
  cases h with
  | recordIllFormed item _ hm hr hf =>
    rw [fetch_of_item hs hm hr] at hf
    exact ⟨rfl, hm, item, hr, illFormed_of_fetchItem hs hf⟩
  | streamEnds | unknownStrict | truncated | executionHalted | recordsEnd | recordHalted => cases ht
  | stopped | unknownSkipped | disassembled | executed | executionRejected | recordExecuted | recordRejected =>
    exact absurd (hs.symm.trans ht) nofun

/-- Settles O35: an ill-formed item raises the violation, and nothing else does. -/
theorem invariantViolationExactly : Obligations.InvariantViolationExactly := by
  refine ⟨fun _ _ _ i _ => recordInRange_record i,
    fun s hs => ⟨fun ⟨t, hstep, ht⟩ => ?cause, fun ⟨hm, item, hr, hbad⟩ => ?raised⟩,
    fun s t hs hstep ht => (illFormed_of_stepTo hs (stepTo_of_step hstep) ht).1⟩
  case cause => exact (illFormed_of_stepTo hs (stepTo_of_step hstep) ht).2
  case raised =>
    exact ⟨_, by rw [step, fetch_of_item hs hm hr, fetchItem_of_illFormed hbad], rfl⟩

end Sys2Proof.ControllerProofs
end

section
/-! PROOFS. The stream as data: its reads (20_memory R51, R52) and its canonical form (log entry 4). -/

namespace Sys2Proof.StreamProofs

open Sys2Proof.Machine

variable {st st' : Stream} {m m' : Memory}

/-! ### Reads -/

theorem exists_memRead1_iff (st : Stream) (a : Nat) : (∃ b, st.memRead1 a = some b) ↔ a + 1 ≤ st.len :=
  ⟨fun ⟨_, h⟩ => TakenProofs.lt_of_memRead1 h, Stream.memRead1_of_lt⟩

theorem exists_memRead2_iff (st : Stream) (a : Nat) : (∃ v, st.memRead2 a = some v) ↔ a + 2 ≤ st.len := by
  refine ⟨fun ⟨v, h⟩ => ?_, Stream.memRead2_of_lt⟩
  rw [Stream.memRead2_eq] at h
  obtain ⟨lo, -, h⟩ := Option.bind_eq_some_iff.mp h
  obtain ⟨hi, hhi, -⟩ := Option.map_eq_some_iff.mp h
  exact TakenProofs.lt_of_memRead1 hhi

/-- Settles O52: a two-byte read is two one-byte reads. -/
theorem memReadIsLittleEndian : Obligations.MemReadIsLittleEndian := by
  intro st a
  refine ⟨exists_memRead1_iff st a, exists_memRead2_iff st a, fun v h => ?_⟩
  rw [Stream.memRead2_eq] at h
  obtain ⟨lo, hlo, h⟩ := Option.bind_eq_some_iff.mp h
  obtain ⟨hi, hhi, rfl⟩ := Option.map_eq_some_iff.mp h
  exact ⟨lo, hi, hlo, hhi, toNat_littleEndian lo hi⟩

/-! ### The canonical form -/

theorem wfFrom_cons {lo key : Nat} {val : Byte} {rest : Memory} (h : Memory.wfFrom lo ((key, val) :: rest) = true) :
    val ≠ Memory.unlisted ∧ Memory.wfFrom key ((key, val) :: rest) = true ∧ Memory.wfFrom (key + 1) rest = true := by
  simp only [Memory.wfFrom, Bool.and_eq_true, decide_eq_true_eq, bne_iff_ne] at h ⊢
  obtain ⟨⟨-, hval⟩, hrest⟩ := h
  exact ⟨hval, ⟨⟨Nat.le_refl key, hval⟩, hrest⟩, hrest⟩

theorem read_cons_self (key : Nat) (val : Byte) (rest : Memory) : Memory.read ((key, val) :: rest) key = val :=
  if_pos rfl

theorem read_cons_of_ne {key a : Nat} (val : Byte) (rest : Memory) (h : key ≠ a) :
    Memory.read ((key, val) :: rest) a = Memory.read rest a :=
  if_neg h

/-- The first listed address of a canonical memory is not below any address it shares its reads from. -/
theorem key_le_of_read_eq {lo lo' key key' : Nat} {val val' : Byte} {rest rest' : Memory}
    (hw : Memory.wfFrom lo ((key, val) :: rest) = true) (hw' : Memory.wfFrom lo' ((key', val') :: rest') = true)
    (h : ∀ a, Memory.read ((key, val) :: rest) a = Memory.read ((key', val') :: rest') a) : key' ≤ key := by
  obtain ⟨hval, -, -⟩ := wfFrom_cons hw
  obtain ⟨-, hself, -⟩ := wfFrom_cons hw'
  refine Nat.le_of_not_lt fun hlt => hval ?_
  have hread := h key
  rwa [read_cons_self, Memory.read_of_lt hself hlt] at hread

/-- Two canonical memories with the same reads are the same list. -/
theorem eq_of_read_eq {lo lo' : Nat} (hw : Memory.wfFrom lo m = true) (hw' : Memory.wfFrom lo' m' = true)
    (h : ∀ a, m.read a = m'.read a) : m = m' := by
  induction m generalizing lo lo' m' with
  | nil =>
    cases m' with
    | nil => rfl
    | cons e' rest' =>
      have hread := h e'.1
      rw [read_cons_self] at hread
      exact absurd hread.symm (wfFrom_cons hw').1
  | cons e rest ih =>
    cases m' with
    | nil =>
      have hread := h e.1
      rw [read_cons_self] at hread
      exact absurd hread (wfFrom_cons hw).1
    | cons e' rest' =>
      obtain ⟨key, val⟩ := e
      obtain ⟨key', val'⟩ := e'
      obtain rfl : key = key' :=
        Nat.le_antisymm (key_le_of_read_eq hw' hw fun a => (h a).symm) (key_le_of_read_eq hw hw' h)
      obtain ⟨-, -, hr⟩ := wfFrom_cons hw
      obtain ⟨-, -, hr'⟩ := wfFrom_cons hw'
      have hval : val = val' := by simpa only [read_cons_self] using h key
      have hrest : rest = rest' := ih hr hr' fun a => by
        by_cases ha : key = a
        · rw [← ha, Memory.read_of_lt hr (Nat.lt_succ_self key), Memory.read_of_lt hr' (Nat.lt_succ_self key)]
        · simpa only [read_cons_of_ne _ _ ha] using h a
      rw [hval, hrest]

/-- A canonical stream lists nothing at or beyond its length. -/
theorem read_of_len_le {n a : Nat} (h : m.all (fun c => decide (c.1 < n)) = true) (ha : n ≤ a) :
    m.read a = Memory.unlisted := by
  induction m with
  | nil => rfl
  | cons e rest ih =>
    obtain ⟨key, val⟩ := e
    rw [List.all_cons, Bool.and_eq_true, decide_eq_true_eq] at h
    obtain ⟨hk, hrest⟩ := h
    have hlt : key < n := hk
    rw [read_cons_of_ne _ _ (by omega), ih hrest]

theorem memRead1_eq_some_of_lt {a : Nat} (h : a < st.len) : st.memRead1 a = some (st.cells.read a) := if_pos h

theorem memRead1_eq_none_of_le {a : Nat} (h : st.len ≤ a) : st.memRead1 a = none := if_neg (by omega)

/-- Log entry 4: a canonical stream is its length and its bytes. -/
theorem stream_eq_of_reads (hw : st.wf = true) (hw' : st'.wf = true) (hl : st.len = st'.len)
    (h : ∀ a, st.memRead1 a = st'.memRead1 a) : st = st' := by
  obtain ⟨cells, len⟩ := st
  obtain ⟨cells', len'⟩ := st'
  obtain rfl : len = len' := hl
  simp only [Stream.wf, Bool.and_eq_true] at hw hw'
  have hcells : cells = cells' := eq_of_read_eq hw.1 hw'.1 fun a => by
    by_cases ha : a < len
    · have hread := h a
      rwa [memRead1_eq_some_of_lt ha, memRead1_eq_some_of_lt ha, Option.some.injEq] at hread
    · rw [read_of_len_le hw.2 (Nat.le_of_not_lt ha), read_of_len_le hw'.2 (Nat.le_of_not_lt ha)]
  rw [hcells]

/-- The bytes of a stream, the first at offset 0. -/
def bytesOf (st : Stream) : List Byte := (List.range st.len).map st.cells.read

/-- The stream made of a stream's bytes reads as the stream does. -/
theorem memRead1_bytesOf (st : Stream) (a : Nat) : (Stream.ofBytes (bytesOf st)).memRead1 a = st.memRead1 a := by
  rw [Stream.memRead1_ofBytes, bytesOf, List.getElem?_map]
  by_cases ha : a < st.len
  · rw [List.getElem?_range ha, memRead1_eq_some_of_lt ha]; rfl
  · rw [List.getElem?_eq_none (by simpa using ha), memRead1_eq_none_of_le (Nat.le_of_not_lt ha)]; rfl

/-- Settles O53: equality from the reads, and with it a canonical stream from its own bytes. -/
theorem streamsAreCanonical : Obligations.StreamsAreCanonical := by
  refine ⟨fun st st' => stream_eq_of_reads,
    fun bs => ⟨Stream.wf_ofBytes bs, Stream.len_ofBytes bs, Stream.memRead1_ofBytes bs⟩, fun st hw => ?_⟩
  have hlen : st.len = (Stream.ofBytes (bytesOf st)).len := by
    rw [Stream.len_ofBytes, bytesOf, List.length_map, List.length_range]
  exact ⟨bytesOf st, stream_eq_of_reads hw (Stream.wf_ofBytes _) hlen fun a => (memRead1_bytesOf st a).symm⟩

end Sys2Proof.StreamProofs
end

section
/-! PROOFS. Placing a word of the opcode table (log entry 5): the placed word is the next that the controller takes. -/

namespace Sys2Proof.LoaderProofs

open Sys2Proof.Machine

variable {s : State} {i : Instr}

/-! ### A word of the record port -/

theorem getElem?_placeItem (items : List PortItem) (k : Nat) (item : PortItem) :
    (placeItem items k item)[k]? = some item := by
  have hlen : ((items ++ List.replicate (k - items.length) (PortItem.packed 0)).take k).length = k := by
    simp only [List.length_take, List.length_append, List.length_replicate]; omega
  rw [placeItem, List.append_assoc, List.getElem?_append_right (Nat.le_of_eq hlen), hlen, Nat.sub_self]
  rfl

theorem atRecord_placeXrec (s : State) (x : BitVec 24) : Spec.atRecord (s.placeXrec x) (.packed x) :=
  ⟨rfl, rfl, getElem?_placeItem _ _ _⟩

/-! ### Bytes of the stream -/

/-- What the host places lies inside the stream, which it lengthens where it must. -/
theorem le_len_load (st : Stream) (a : Nat) (b : Byte) (bs : List Byte) :
    a + (b :: bs).length ≤ (st.load a (b :: bs)).len := by
  have ha : a + 1 ≤ (st.poke a b).len := Nat.le_max_right _ _
  rw [Stream.load, Stream.len_load (a + 1) bs ha, List.length_cons]
  omega

/-- The stream holds the bytes that the host placed in it. -/
theorem memRead1_load {st : Stream} (hw : st.wf = true) (a : Nat) {bs : List Byte} {k : Nat} (hk : k < bs.length) :
    (st.load a bs).memRead1 (a + k) = bs[k]? := by
  have hcells : st.cells.wf = true := (Bool.and_eq_true_iff.mp hw).1
  have hlen : a + k < (st.load a bs).len := by
    cases bs with
    | nil => cases hk
    | cons b bs => have := le_len_load st a b bs; omega
  rw [StreamProofs.memRead1_eq_some_of_lt hlen, Stream.read_load a (a + k) bs hcells, if_pos (Nat.le_add_right a k),
    Nat.add_sub_cancel_left, List.getElem?_eq_getElem hk]
  rfl

theorem placeBytes_mode (s : State) (bs : List Byte) : (s.placeBytes bs).inputs.mode ≠ .recordExec := by
  cases h : s.inputs.mode <;> simp [State.placeBytes, h, Config.defaultMode]

/-- Bytes that decode by themselves decode where the host has placed them. -/
theorem decodeAt_placeBytes {bs : List Byte} (hw : s.inputs.stream.wf = true)
    (hd : decodeAt s.inputs.extCheck (Stream.ofBytes bs) 0 = .ok i) :
    decodeAt (s.placeBytes bs).inputs.extCheck (s.placeBytes bs).inputs.stream (s.placeBytes bs).pc = .ok i := by
  obtain ⟨hle, -, -⟩ := length_of_decodeAt_ok hd
  rw [Stream.len_ofBytes, Nat.zero_add] at hle
  refine CodecProofs.decodeReadsItsOwnBytes s.inputs.extCheck _ _ 0 s.pc i hd fun k hk => ?_
  rw [Nat.zero_add, Stream.memRead1_ofBytes]
  exact memRead1_load hw s.pc (Nat.lt_of_lt_of_le hk hle)

theorem decodeAt_of_decodeTableWord {w : Nat} (h : decodeTableWord 16 w = some i) :
    decodeAt true (Stream.ofBytes (tableWordBytes 16 w)) 0 = .ok i := by
  rw [decodeTableWord, if_neg (by decide)] at h
  split at h
  next hd => cases h; exact hd
  all_goals cases h

/-- Settles O54: the placed word is the next record, or the bytes at `pc`, and the step takes what it decodes to. -/
theorem placedWordIsRun : Obligations.PlacedWordIsRun := by
  intro s w i hext hw nbits hn _ hdec
  obtain rfl | rfl := hn
  · have hd := decodeAt_of_decodeTableWord hdec
    rw [← hext] at hd
    exact TakenProofs.step_of_decodeAt_ok (placeBytes_status s _) (placeBytes_mode s _) (decodeAt_placeBytes hw hd)
  · exact TakenProofs.step_of_packed (atRecord_placeXrec s (BitVec.ofNat 24 w)) hdec

end Sys2Proof.LoaderProofs
end

section
/-! PROOFS. The text of an instruction: displacement, elision and size keyword (30_encoding R98 to R100). -/

namespace Sys2Proof.TextProofs

open Sys2Proof.Machine

/-- R98: the sign of a displacement stands before its digits. -/
theorem renderDisp_eq (disp : Word) :
    renderDisp disp =
      if 0 ≤ disp.toInt then " + " ++ toString disp.toInt.natAbs else " - " ++ toString disp.toInt.natAbs := by
  by_cases h : disp.toInt < 0
  · rw [renderDisp, if_pos h, if_neg (Int.not_le.mpr h)]
  · rw [renderDisp, if_neg h, if_pos (Int.not_lt.mp h)]

/-- R98: a base and a displacement that is not elided. -/
theorem render_base_disp (base : Base) (disp : Word) :
    "[" ++ renderBase base ++ renderDisp disp ++ "]" =
      if 0 ≤ disp.toInt then "[" ++ renderBase base ++ " + " ++ toString disp.toInt.natAbs ++ "]"
      else "[" ++ renderBase base ++ " - " ++ toString disp.toInt.natAbs ++ "]" := by
  rw [renderDisp_eq]
  split <;> simp only [String.append_assoc]

/-- R99: the elision is that of base `bp` alone with an 8-bit displacement of 0. -/
theorem renderMemory_eq (base : Base) {kind : DispKind} (disp : Word) (hk : kind ≠ .none) :
    renderMemory base kind disp =
      if base = .bp ∧ kind = .d8 ∧ disp = 0 then "[bp]" else "[" ++ renderBase base ++ renderDisp disp ++ "]" := by
  cases kind with
  | none => exact absurd rfl hk
  | d8 => simp [renderMemory]
  | d16 => simp [renderMemory]

/-- Settles O51: the elision, and the size keyword by the kinds of the two operands. -/
theorem elisionAndSizeKeyword : Obligations.ElisionAndSizeKeyword := by
  refine ⟨fun base kind disp hk => ?elision, fun m dest src len => ?keyword⟩
  case elision => rw [renderOperand, renderMemory_eq base disp hk, render_base_disp]
  case keyword =>
    cases dest with
    | register | immediate => rfl
    | memory | direct =>
      cases src with
      | immediate _ w => cases w <;> rfl
      | register | memory | direct => rfl

end Sys2Proof.TextProofs
end
